-- ==== Sys2Proof/Word.lean ====
section
/-! DEFINITION. The word types of the machine (`00_scope.md` R9). -/

namespace Sys2Proof

/-- An 8-bit byte, the addressable unit (R50). -/
abbrev Byte := BitVec 8

/-- A 16-bit halfword (R9). -/
abbrev Half := BitVec 16

/-- A 32-bit word: a register, an address, an instruction (R9). -/
abbrev Word := BitVec 32

/-- A 64-bit value: a double-precision operand (R9). -/
abbrev Dword := BitVec 64

/-- The number of a general register, R0 to R31 (R20, R85). -/
abbrev GReg := BitVec 5

/-- The number of a floating-point register, F0 to F31 (R24, R85). -/
abbrev FReg := BitVec 5

/-- The number of a special register in MOVI2S and MOVS2I (R141, R142). -/
abbrev SReg := BitVec 5

end Sys2Proof
end

