-- ==== Sys2Proof/Config.lean ====
section
/-! DEFINITION. What an implementation or a launch fixes: the parameters of `00_scope.md` R6 as plain
data, the floating-point record of `43_floating_point.md` R200, the free values, and the values the
model names for reset where the spec gives none. -/

namespace Sys2Proof

/-- A run of consecutive byte addresses: `base`, `base + 1`, …, `base + size - 1`. -/
structure Region where
  base : Nat
  size : Nat
  deriving DecidableEq, Repr

/-- What a store into `TEXT` does (R68). -/
inductive SmcPolicy where
  /-- The store faults: the model gives no meaning to self-modifying code. -/
  | refuse
  /-- The store is performed and every later fetch sees it. -/
  | coherent
  deriving DecidableEq, Repr

/-- The numbers that name IAR and FPSR in MOVI2S and MOVS2I: the parameter `SREG` (R6, R141, R142). -/
structure SRegNumbers where
  iar : SReg
  fpsr : SReg
  deriving DecidableEq, Repr

/-- Which floating-point record a launch uses: the parameter `FPOps` (R6, R200). -/
inductive FPRecord where
  /-- The default record, IEEE 754 (R201). -/
  | ieee754
  /-- Some other record, of which the model knows nothing (R200). -/
  | other (k : Nat)
  deriving DecidableEq, Repr

/-- The numbers of an instruction: its primary opcode and, in the R-type format, its function code
(R94 to R96). -/
structure OpcodeNumbers where
  op : BitVec 6
  func : Option (BitVec 11)
  deriving DecidableEq, Repr

/-- The numbers of all instructions: the parameter `OPC` (R6). -/
inductive OpcodeMap where
  /-- The default, the table of R94 to R96. -/
  | standard
  /-- Other numbers: a row pairs an instruction's numbers in this map with its numbers in the default
  one, which name it. An instruction without a row is left out. -/
  | renumbered (rows : List (OpcodeNumbers × OpcodeNumbers))
  deriving DecidableEq, Repr

/-- The launch parameters of R6 that a step reads, fixed for a run. -/
structure Launch where
  /-- `OPC`: the numbers of the instructions (R94 to R97). -/
  opc : OpcodeMap
  /-- `MEM_MAP`: the byte addresses that hold memory (R52). -/
  memMap : List Region
  /-- `TEXT`: the byte addresses that hold the loaded program (R68). -/
  text : List Region
  /-- `SMC_POLICY` (R68). -/
  smc : SmcPolicy
  /-- `RESET_PC`: where the run starts (R321). -/
  resetPc : Word
  /-- `END_PC`: where the run is over (R323). -/
  endPc : Word
  /-- `OVF_TRAPS`: whether signed overflow faults or wraps (R151). -/
  ovfTraps : Bool
  /-- `SREG` (R141, R142). -/
  sreg : SRegNumbers
  /-- `FPOps` (R200). -/
  fpOps : FPRecord
  deriving DecidableEq, Repr

/-- What a field of the floating-point record answers for given operands (R200, R201). -/
inductive FPResult (w : Nat) where
  /-- The result, as a bit pattern. -/
  | value (v : BitVec w)
  /-- Any quiet NaN: sign and payload are open (R201). -/
  | quietNaN
  /-- Any bit pattern: the result is open (R201). -/
  | anyBits
  /-- The instruction raises `FPFault` (R200); never with the default record. -/
  | fault
  deriving DecidableEq, Repr, Inhabited

/-- The floating-point record `FPOps` of R200, field by field. A comparison answers `none` where it
answers fault. -/
structure FPOps where
  add32 : Word → Word → FPResult 32
  sub32 : Word → Word → FPResult 32
  mul32 : Word → Word → FPResult 32
  div32 : Word → Word → FPResult 32
  add64 : Dword → Dword → FPResult 64
  sub64 : Dword → Dword → FPResult 64
  mul64 : Dword → Dword → FPResult 64
  div64 : Dword → Dword → FPResult 64
  f2d : Word → FPResult 64
  d2f : Dword → FPResult 32
  f2i : Word → FPResult 32
  d2i : Dword → FPResult 32
  i2f : Word → FPResult 32
  i2d : Word → FPResult 64
  eq32 : Word → Word → Option Bool
  lt32 : Word → Word → Option Bool
  le32 : Word → Word → Option Bool
  eq64 : Dword → Dword → Option Bool
  lt64 : Dword → Dword → Option Bool
  le64 : Dword → Dword → Option Bool
  deriving Inhabited

namespace Config

/-- The bits of the n-th open value that a run draws (R201; `93_implementation_defined.md` U15, U16).
Log 6. -/
opaque freeBits : Nat → BitVec 64

/-- The k-th floating-point record that is not the default one (R200). Log 7. -/
opaque otherFPOps : Nat → FPOps

/-- What a byte of memory that the state's list does not name reads as. DESIGN CHOICE, unsafe: the
spec leaves the value open (R36, R70). Log 3. -/
def unnamedByte : Byte := 0xFF#8

/-- The numbers of IAR and FPSR by default (R6, R141, R142). -/
def defaultSReg : SRegNumbers where
  iar := 0#5
  fpsr := 1#5

/-- The launch parameters of `State.reset`: the spec's defaults where R6 gives one; `MEM_MAP` (all
2^32 addresses), `TEXT` (empty), `RESET_PC` and `END_PC` (the values of the spec's test programs) are
DESIGN CHOICE. Log 2. -/
def defaultLaunch : Launch where
  opc := .standard
  memMap := [⟨0, 2 ^ 32⟩]
  text := []
  smc := .refuse
  resetPc := 0x00000100#32
  endPc := 0x00000000#32
  ovfTraps := true
  sreg := defaultSReg
  fpOps := .ieee754

/-- The general registers `State.reset` starts from. DESIGN CHOICE, unsafe: R36 leaves them open and
R37 forbids zero. Log 1. -/
def startGprs : Vector Word 32 :=
  Vector.ofFn fun i => BitVec.ofNat 32 (0x1000 + 8 * i.val)

/-- The floating-point registers `State.reset` starts from. DESIGN CHOICE, unsafe. Log 1. -/
def startFprs : Vector Word 32 :=
  Vector.ofFn fun i => BitVec.ofNat 32 (0x2000 + 8 * i.val)

/-- The IAR `State.reset` starts from. DESIGN CHOICE, unsafe. Log 1. -/
def startIar : Word := 0x00003000#32

/-- The FPSR `State.reset` starts from. DESIGN CHOICE, unsafe. Log 1. -/
def startFpsr : BitVec 1 := 1#1

end Config

end Sys2Proof
end

