-- ==== Sys2Proof/Syntax.lean ====
section
/-! DEFINITION. The 92 instructions of `30_encoding.md` R93, one constructor per row of
`spec/opcode_table.json`, in the six classes of the source. A constructor holds the fields its
instruction uses (R82 to R84, R109); the unused ones (R92) select nothing and are not held. A store's
`rd` is its data source; a double-precision operand is an FPR number that has to be even (R26). -/

namespace Sys2Proof

/-- An instruction of the DLX (R93). -/
inductive Instr where
  -- load and store
  /-- LB: load byte, signed (R122). -/
  | lb (rd rs1 : GReg) (imm : Half)
  /-- LBU: load byte, unsigned (R123). -/
  | lbu (rd rs1 : GReg) (imm : Half)
  /-- LH: load halfword, signed (R124). -/
  | lh (rd rs1 : GReg) (imm : Half)
  /-- LHU: load halfword, unsigned (R125). -/
  | lhu (rd rs1 : GReg) (imm : Half)
  /-- LW: load word (R126). -/
  | lw (rd rs1 : GReg) (imm : Half)
  /-- LF: load single (R127). -/
  | lf (rd : FReg) (rs1 : GReg) (imm : Half)
  /-- LD: load double (R128). -/
  | ld (rd : FReg) (rs1 : GReg) (imm : Half)
  /-- SB: store byte (R129). -/
  | sb (rd rs1 : GReg) (imm : Half)
  /-- SH: store halfword (R130). -/
  | sh (rd rs1 : GReg) (imm : Half)
  /-- SW: store word (R131). -/
  | sw (rd rs1 : GReg) (imm : Half)
  /-- SF: store single (R132). -/
  | sf (rd : FReg) (rs1 : GReg) (imm : Half)
  /-- SD: store double (R133). -/
  | sd (rd : FReg) (rs1 : GReg) (imm : Half)
  -- move
  /-- MOVI2S: general to special register (R141). -/
  | movi2s (rd : SReg) (rs1 : GReg)
  /-- MOVS2I: special to general register (R142). -/
  | movs2i (rd : GReg) (rs1 : SReg)
  /-- MOVF: move single (R143). -/
  | movf (rd rs1 : FReg)
  /-- MOVD: move double (R144). -/
  | movd (rd rs1 : FReg)
  /-- MOVFP2I: floating-point to general register (R145). -/
  | movfp2i (rd : GReg) (rs1 : FReg)
  /-- MOVI2FP: general to floating-point register (R146). -/
  | movi2fp (rd : FReg) (rs1 : GReg)
  -- arithmetic and logical
  /-- ADD: add signed (R152). -/
  | add (rd rs1 rs2 : GReg)
  /-- ADDI: add immediate signed (R153). -/
  | addi (rd rs1 : GReg) (imm : Half)
  /-- ADDU: add unsigned (R154). -/
  | addu (rd rs1 rs2 : GReg)
  /-- ADDUI: add immediate unsigned (R155). -/
  | addui (rd rs1 : GReg) (imm : Half)
  /-- SUB: subtract signed (R156). -/
  | sub (rd rs1 rs2 : GReg)
  /-- SUBI: subtract immediate signed (R157). -/
  | subi (rd rs1 : GReg) (imm : Half)
  /-- SUBU: subtract unsigned (R158). -/
  | subu (rd rs1 rs2 : GReg)
  /-- SUBUI: subtract immediate unsigned (R159). -/
  | subui (rd rs1 : GReg) (imm : Half)
  /-- MULT: multiply signed (R160). -/
  | mult (rd rs1 rs2 : FReg)
  /-- MULTU: multiply unsigned (R161). -/
  | multu (rd rs1 rs2 : FReg)
  /-- DIV: divide signed (R162). -/
  | div (rd rs1 rs2 : FReg)
  /-- DIVU: divide unsigned (R163). -/
  | divu (rd rs1 rs2 : FReg)
  /-- AND: and (R164). -/
  | and (rd rs1 rs2 : GReg)
  /-- ANDI: and immediate (R165). -/
  | andi (rd rs1 : GReg) (imm : Half)
  /-- OR: or (R166). -/
  | or (rd rs1 rs2 : GReg)
  /-- ORI: or immediate (R167). -/
  | ori (rd rs1 : GReg) (imm : Half)
  /-- XOR: exclusive or (R168). -/
  | xor (rd rs1 rs2 : GReg)
  /-- XORI: exclusive or immediate (R169). -/
  | xori (rd rs1 : GReg) (imm : Half)
  /-- LHI: load high immediate (R170). -/
  | lhi (rd : GReg) (imm : Half)
  /-- SLL: shift left logical (R171). -/
  | sll (rd rs1 rs2 : GReg)
  /-- SRL: shift right logical (R172). -/
  | srl (rd rs1 rs2 : GReg)
  /-- SRA: shift right arithmetic (R173). -/
  | sra (rd rs1 rs2 : GReg)
  /-- SLLI: shift left logical immediate (R174). -/
  | slli (rd rs1 : GReg) (imm : Half)
  /-- SRLI: shift right logical immediate (R175). -/
  | srli (rd rs1 : GReg) (imm : Half)
  /-- SRAI: shift right arithmetic immediate (R176). -/
  | srai (rd rs1 : GReg) (imm : Half)
  /-- SEQ: set if equal (R177). -/
  | seq (rd rs1 rs2 : GReg)
  /-- SNE: set if not equal (R178). -/
  | sne (rd rs1 rs2 : GReg)
  /-- SLT: set if less (R179). -/
  | slt (rd rs1 rs2 : GReg)
  /-- SGT: set if greater (R180). -/
  | sgt (rd rs1 rs2 : GReg)
  /-- SLE: set if less or equal (R181). -/
  | sle (rd rs1 rs2 : GReg)
  /-- SGE: set if greater or equal (R182). -/
  | sge (rd rs1 rs2 : GReg)
  /-- SEQI: set if equal immediate (R183). -/
  | seqi (rd rs1 : GReg) (imm : Half)
  /-- SNEI: set if not equal immediate (R184). -/
  | snei (rd rs1 : GReg) (imm : Half)
  /-- SLTI: set if less immediate (R185). -/
  | slti (rd rs1 : GReg) (imm : Half)
  /-- SGTI: set if greater immediate (R186). -/
  | sgti (rd rs1 : GReg) (imm : Half)
  /-- SLEI: set if less or equal immediate (R187). -/
  | slei (rd rs1 : GReg) (imm : Half)
  /-- SGEI: set if greater or equal immediate (R188). -/
  | sgei (rd rs1 : GReg) (imm : Half)
  -- floating point
  /-- ADDF: add single (R204). -/
  | addf (rd rs1 rs2 : FReg)
  /-- SUBF: subtract single (R205). -/
  | subf (rd rs1 rs2 : FReg)
  /-- MULTF: multiply single (R206). -/
  | multf (rd rs1 rs2 : FReg)
  /-- DIVF: divide single (R207). -/
  | divf (rd rs1 rs2 : FReg)
  /-- ADDD: add double (R208). -/
  | addd (rd rs1 rs2 : FReg)
  /-- SUBD: subtract double (R209). -/
  | subd (rd rs1 rs2 : FReg)
  /-- MULTD: multiply double (R210). -/
  | multd (rd rs1 rs2 : FReg)
  /-- DIVD: divide double (R211). -/
  | divd (rd rs1 rs2 : FReg)
  /-- CVTF2D: single to double (R212). -/
  | cvtf2d (rd rs1 : FReg)
  /-- CVTF2I: single to integer (R213). -/
  | cvtf2i (rd rs1 : FReg)
  /-- CVTD2F: double to single (R214). -/
  | cvtd2f (rd rs1 : FReg)
  /-- CVTD2I: double to integer (R215). -/
  | cvtd2i (rd rs1 : FReg)
  /-- CVTI2F: integer to single (R216). -/
  | cvti2f (rd rs1 : FReg)
  /-- CVTI2D: integer to double (R217). -/
  | cvti2d (rd rs1 : FReg)
  /-- EQF: equal single (R218). -/
  | eqf (rs1 rs2 : FReg)
  /-- NEF: not equal single (R219). -/
  | nef (rs1 rs2 : FReg)
  /-- LTF: less single (R220). -/
  | ltf (rs1 rs2 : FReg)
  /-- GTF: greater single (R221). -/
  | gtf (rs1 rs2 : FReg)
  /-- LEF: less or equal single (R222). -/
  | lef (rs1 rs2 : FReg)
  /-- GEF: greater or equal single (R223). -/
  | gef (rs1 rs2 : FReg)
  /-- EQD: equal double (R224). -/
  | eqd (rs1 rs2 : FReg)
  /-- NED: not equal double (R225). -/
  | ned (rs1 rs2 : FReg)
  /-- LTD: less double (R226). -/
  | ltd (rs1 rs2 : FReg)
  /-- GTD: greater double (R227). -/
  | gtd (rs1 rs2 : FReg)
  /-- LED: less or equal double (R228). -/
  | led (rs1 rs2 : FReg)
  /-- GED: greater or equal double (R229). -/
  | ged (rs1 rs2 : FReg)
  -- jump and branch
  /-- BEQZ: branch if the register is zero (R254). -/
  | beqz (rs1 : GReg) (imm : Half)
  /-- BNEZ: branch if the register is not zero (R255). -/
  | bnez (rs1 : GReg) (imm : Half)
  /-- BFPT: branch if FPSR is 1 (R256). -/
  | bfpt (imm : Half)
  /-- BFPF: branch if FPSR is 0 (R257). -/
  | bfpf (imm : Half)
  /-- J: jump (R258). -/
  | j (name : BitVec 26)
  /-- JAL: jump and link (R259). -/
  | jal (name : BitVec 26)
  /-- JR: jump to register (R260). -/
  | jr (rs1 : GReg)
  /-- JALR: jump to register and link (R261). -/
  | jalr (rs1 : GReg)
  -- special
  /-- TRAP: trap (R270). -/
  | trap (name : BitVec 26)
  /-- RFE: return from exception (R271). -/
  | rfe
  /-- NOP: no operation (R272). -/
  | nop
  deriving DecidableEq, Repr

/-- The instruction's mnemonic, as `spec/opcode_table.json` spells it. -/
def Instr.mnemonic : Instr → String
  | .lb _ _ _ => "LB"
  | .lbu _ _ _ => "LBU"
  | .lh _ _ _ => "LH"
  | .lhu _ _ _ => "LHU"
  | .lw _ _ _ => "LW"
  | .lf _ _ _ => "LF"
  | .ld _ _ _ => "LD"
  | .sb _ _ _ => "SB"
  | .sh _ _ _ => "SH"
  | .sw _ _ _ => "SW"
  | .sf _ _ _ => "SF"
  | .sd _ _ _ => "SD"
  | .movi2s _ _ => "MOVI2S"
  | .movs2i _ _ => "MOVS2I"
  | .movf _ _ => "MOVF"
  | .movd _ _ => "MOVD"
  | .movfp2i _ _ => "MOVFP2I"
  | .movi2fp _ _ => "MOVI2FP"
  | .add _ _ _ => "ADD"
  | .addi _ _ _ => "ADDI"
  | .addu _ _ _ => "ADDU"
  | .addui _ _ _ => "ADDUI"
  | .sub _ _ _ => "SUB"
  | .subi _ _ _ => "SUBI"
  | .subu _ _ _ => "SUBU"
  | .subui _ _ _ => "SUBUI"
  | .mult _ _ _ => "MULT"
  | .multu _ _ _ => "MULTU"
  | .div _ _ _ => "DIV"
  | .divu _ _ _ => "DIVU"
  | .and _ _ _ => "AND"
  | .andi _ _ _ => "ANDI"
  | .or _ _ _ => "OR"
  | .ori _ _ _ => "ORI"
  | .xor _ _ _ => "XOR"
  | .xori _ _ _ => "XORI"
  | .lhi _ _ => "LHI"
  | .sll _ _ _ => "SLL"
  | .srl _ _ _ => "SRL"
  | .sra _ _ _ => "SRA"
  | .slli _ _ _ => "SLLI"
  | .srli _ _ _ => "SRLI"
  | .srai _ _ _ => "SRAI"
  | .seq _ _ _ => "SEQ"
  | .sne _ _ _ => "SNE"
  | .slt _ _ _ => "SLT"
  | .sgt _ _ _ => "SGT"
  | .sle _ _ _ => "SLE"
  | .sge _ _ _ => "SGE"
  | .seqi _ _ _ => "SEQI"
  | .snei _ _ _ => "SNEI"
  | .slti _ _ _ => "SLTI"
  | .sgti _ _ _ => "SGTI"
  | .slei _ _ _ => "SLEI"
  | .sgei _ _ _ => "SGEI"
  | .addf _ _ _ => "ADDF"
  | .subf _ _ _ => "SUBF"
  | .multf _ _ _ => "MULTF"
  | .divf _ _ _ => "DIVF"
  | .addd _ _ _ => "ADDD"
  | .subd _ _ _ => "SUBD"
  | .multd _ _ _ => "MULTD"
  | .divd _ _ _ => "DIVD"
  | .cvtf2d _ _ => "CVTF2D"
  | .cvtf2i _ _ => "CVTF2I"
  | .cvtd2f _ _ => "CVTD2F"
  | .cvtd2i _ _ => "CVTD2I"
  | .cvti2f _ _ => "CVTI2F"
  | .cvti2d _ _ => "CVTI2D"
  | .eqf _ _ => "EQF"
  | .nef _ _ => "NEF"
  | .ltf _ _ => "LTF"
  | .gtf _ _ => "GTF"
  | .lef _ _ => "LEF"
  | .gef _ _ => "GEF"
  | .eqd _ _ => "EQD"
  | .ned _ _ => "NED"
  | .ltd _ _ => "LTD"
  | .gtd _ _ => "GTD"
  | .led _ _ => "LED"
  | .ged _ _ => "GED"
  | .beqz _ _ => "BEQZ"
  | .bnez _ _ => "BNEZ"
  | .bfpt _ => "BFPT"
  | .bfpf _ => "BFPF"
  | .j _ => "J"
  | .jal _ => "JAL"
  | .jr _ => "JR"
  | .jalr _ => "JALR"
  | .trap _ => "TRAP"
  | .rfe => "RFE"
  | .nop => "NOP"

end Sys2Proof
end

