-- ==== Sys2Proof/Decode.lean ====
section
/-! DEFINITION. Decoding and encoding (`30_encoding.md` R80 to R99). `decode` and `encode` use the
default of the parameter `OPC` (R94 to R96), `decodeUnder` any other (log 4). -/

namespace Sys2Proof

/-! The fields of an instruction word (R82 to R84). -/

/-- The opcode, the source's bits M0..M5 (R81). -/
def opField (w : Word) : BitVec 6 := w.extractLsb' 26 6

/-- The first source register of the I-type and R-type formats (R82, R83). -/
def rs1Field (w : Word) : BitVec 5 := w.extractLsb' 21 5

/-- The second source register of the R-type format (R83). -/
def rs2Field (w : Word) : BitVec 5 := w.extractLsb' 16 5

/-- The destination register of the I-type format, a store's data register (R82). -/
def rdIField (w : Word) : BitVec 5 := w.extractLsb' 16 5

/-- The destination register of the R-type format (R83). -/
def rdRField (w : Word) : BitVec 5 := w.extractLsb' 11 5

/-- The function code of the R-type format, all 11 bits (R83, R99). -/
def funcField (w : Word) : BitVec 11 := w.extractLsb' 0 11

/-- The immediate of the I-type format (R82). -/
def immField (w : Word) : Half := w.extractLsb' 0 16

/-- The name field of the J-type format (R84). -/
def nameField (w : Word) : BitVec 26 := w.extractLsb' 0 26

/-- Why a word or a run of bytes is no instruction. -/
inductive DecodeError where
  /-- The primary opcode is reserved (R98). -/
  | reservedOpcode (op : BitVec 6)
  /-- The SPECIAL function code is reserved (R95, R98, R99). -/
  | reservedSpecial (func : BitVec 11)
  /-- The FPARITH function code is reserved (R96, R98, R99). -/
  | reservedFParith (func : BitVec 11)
  /-- No row of a numbering other than the default has the word's numbers (R6, R98). -/
  | unassigned
  /-- Fewer than the four bytes of an instruction (R80). -/
  | truncated
  deriving DecidableEq, Repr

/-- The SPECIAL group, opcode 0x00 (R95). -/
def decodeSpecial (w : Word) : Except DecodeError Instr :=
  match funcField w with
  | 0x000#11 => .ok .nop
  | 0x004#11 => .ok (.sll (rdRField w) (rs1Field w) (rs2Field w))
  | 0x006#11 => .ok (.srl (rdRField w) (rs1Field w) (rs2Field w))
  | 0x007#11 => .ok (.sra (rdRField w) (rs1Field w) (rs2Field w))
  | 0x020#11 => .ok (.add (rdRField w) (rs1Field w) (rs2Field w))
  | 0x021#11 => .ok (.addu (rdRField w) (rs1Field w) (rs2Field w))
  | 0x022#11 => .ok (.sub (rdRField w) (rs1Field w) (rs2Field w))
  | 0x023#11 => .ok (.subu (rdRField w) (rs1Field w) (rs2Field w))
  | 0x024#11 => .ok (.and (rdRField w) (rs1Field w) (rs2Field w))
  | 0x025#11 => .ok (.or (rdRField w) (rs1Field w) (rs2Field w))
  | 0x026#11 => .ok (.xor (rdRField w) (rs1Field w) (rs2Field w))
  | 0x028#11 => .ok (.seq (rdRField w) (rs1Field w) (rs2Field w))
  | 0x029#11 => .ok (.sne (rdRField w) (rs1Field w) (rs2Field w))
  | 0x02A#11 => .ok (.slt (rdRField w) (rs1Field w) (rs2Field w))
  | 0x02B#11 => .ok (.sgt (rdRField w) (rs1Field w) (rs2Field w))
  | 0x02C#11 => .ok (.sle (rdRField w) (rs1Field w) (rs2Field w))
  | 0x02D#11 => .ok (.sge (rdRField w) (rs1Field w) (rs2Field w))
  | 0x030#11 => .ok (.movi2s (rdRField w) (rs1Field w))
  | 0x031#11 => .ok (.movs2i (rdRField w) (rs1Field w))
  | 0x032#11 => .ok (.movf (rdRField w) (rs1Field w))
  | 0x033#11 => .ok (.movd (rdRField w) (rs1Field w))
  | 0x034#11 => .ok (.movfp2i (rdRField w) (rs1Field w))
  | 0x035#11 => .ok (.movi2fp (rdRField w) (rs1Field w))
  | func => .error (.reservedSpecial func)

/-- The FPARITH group, opcode 0x01 (R96). -/
def decodeFParith (w : Word) : Except DecodeError Instr :=
  match funcField w with
  | 0x000#11 => .ok (.addf (rdRField w) (rs1Field w) (rs2Field w))
  | 0x001#11 => .ok (.subf (rdRField w) (rs1Field w) (rs2Field w))
  | 0x002#11 => .ok (.multf (rdRField w) (rs1Field w) (rs2Field w))
  | 0x003#11 => .ok (.divf (rdRField w) (rs1Field w) (rs2Field w))
  | 0x004#11 => .ok (.addd (rdRField w) (rs1Field w) (rs2Field w))
  | 0x005#11 => .ok (.subd (rdRField w) (rs1Field w) (rs2Field w))
  | 0x006#11 => .ok (.multd (rdRField w) (rs1Field w) (rs2Field w))
  | 0x007#11 => .ok (.divd (rdRField w) (rs1Field w) (rs2Field w))
  | 0x008#11 => .ok (.cvtf2d (rdRField w) (rs1Field w))
  | 0x009#11 => .ok (.cvtf2i (rdRField w) (rs1Field w))
  | 0x00A#11 => .ok (.cvtd2f (rdRField w) (rs1Field w))
  | 0x00B#11 => .ok (.cvtd2i (rdRField w) (rs1Field w))
  | 0x00C#11 => .ok (.cvti2f (rdRField w) (rs1Field w))
  | 0x00D#11 => .ok (.cvti2d (rdRField w) (rs1Field w))
  | 0x00E#11 => .ok (.mult (rdRField w) (rs1Field w) (rs2Field w))
  | 0x00F#11 => .ok (.div (rdRField w) (rs1Field w) (rs2Field w))
  | 0x010#11 => .ok (.eqf (rs1Field w) (rs2Field w))
  | 0x011#11 => .ok (.nef (rs1Field w) (rs2Field w))
  | 0x012#11 => .ok (.ltf (rs1Field w) (rs2Field w))
  | 0x013#11 => .ok (.gtf (rs1Field w) (rs2Field w))
  | 0x014#11 => .ok (.lef (rs1Field w) (rs2Field w))
  | 0x015#11 => .ok (.gef (rs1Field w) (rs2Field w))
  | 0x016#11 => .ok (.multu (rdRField w) (rs1Field w) (rs2Field w))
  | 0x017#11 => .ok (.divu (rdRField w) (rs1Field w) (rs2Field w))
  | 0x018#11 => .ok (.eqd (rs1Field w) (rs2Field w))
  | 0x019#11 => .ok (.ned (rs1Field w) (rs2Field w))
  | 0x01A#11 => .ok (.ltd (rs1Field w) (rs2Field w))
  | 0x01B#11 => .ok (.gtd (rs1Field w) (rs2Field w))
  | 0x01C#11 => .ok (.led (rs1Field w) (rs2Field w))
  | 0x01D#11 => .ok (.ged (rs1Field w) (rs2Field w))
  | func => .error (.reservedFParith func)

/-- The decode procedure (R97) over the primary map (R94). -/
def decode (w : Word) : Except DecodeError Instr :=
  match opField w with
  | 0x00#6 => decodeSpecial w
  | 0x01#6 => decodeFParith w
  | 0x02#6 => .ok (.j (nameField w))
  | 0x03#6 => .ok (.jal (nameField w))
  | 0x04#6 => .ok (.beqz (rs1Field w) (immField w))
  | 0x05#6 => .ok (.bnez (rs1Field w) (immField w))
  | 0x06#6 => .ok (.bfpt (immField w))
  | 0x07#6 => .ok (.bfpf (immField w))
  | 0x08#6 => .ok (.addi (rdIField w) (rs1Field w) (immField w))
  | 0x09#6 => .ok (.addui (rdIField w) (rs1Field w) (immField w))
  | 0x0A#6 => .ok (.subi (rdIField w) (rs1Field w) (immField w))
  | 0x0B#6 => .ok (.subui (rdIField w) (rs1Field w) (immField w))
  | 0x0C#6 => .ok (.andi (rdIField w) (rs1Field w) (immField w))
  | 0x0D#6 => .ok (.ori (rdIField w) (rs1Field w) (immField w))
  | 0x0E#6 => .ok (.xori (rdIField w) (rs1Field w) (immField w))
  | 0x0F#6 => .ok (.lhi (rdIField w) (immField w))
  | 0x10#6 => .ok .rfe
  | 0x11#6 => .ok (.trap (nameField w))
  | 0x12#6 => .ok (.jr (rs1Field w))
  | 0x13#6 => .ok (.jalr (rs1Field w))
  | 0x14#6 => .ok (.slli (rdIField w) (rs1Field w) (immField w))
  | 0x16#6 => .ok (.srli (rdIField w) (rs1Field w) (immField w))
  | 0x17#6 => .ok (.srai (rdIField w) (rs1Field w) (immField w))
  | 0x18#6 => .ok (.seqi (rdIField w) (rs1Field w) (immField w))
  | 0x19#6 => .ok (.snei (rdIField w) (rs1Field w) (immField w))
  | 0x1A#6 => .ok (.slti (rdIField w) (rs1Field w) (immField w))
  | 0x1B#6 => .ok (.sgti (rdIField w) (rs1Field w) (immField w))
  | 0x1C#6 => .ok (.slei (rdIField w) (rs1Field w) (immField w))
  | 0x1D#6 => .ok (.sgei (rdIField w) (rs1Field w) (immField w))
  | 0x20#6 => .ok (.lb (rdIField w) (rs1Field w) (immField w))
  | 0x21#6 => .ok (.lh (rdIField w) (rs1Field w) (immField w))
  | 0x23#6 => .ok (.lw (rdIField w) (rs1Field w) (immField w))
  | 0x24#6 => .ok (.lbu (rdIField w) (rs1Field w) (immField w))
  | 0x25#6 => .ok (.lhu (rdIField w) (rs1Field w) (immField w))
  | 0x26#6 => .ok (.lf (rdIField w) (rs1Field w) (immField w))
  | 0x27#6 => .ok (.ld (rdIField w) (rs1Field w) (immField w))
  | 0x28#6 => .ok (.sb (rdIField w) (rs1Field w) (immField w))
  | 0x29#6 => .ok (.sh (rdIField w) (rs1Field w) (immField w))
  | 0x2B#6 => .ok (.sw (rdIField w) (rs1Field w) (immField w))
  | 0x2E#6 => .ok (.sf (rdIField w) (rs1Field w) (immField w))
  | 0x2F#6 => .ok (.sd (rdIField w) (rs1Field w) (immField w))
  | op => .error (.reservedOpcode op)

/-! Decoding under other numbers (R6). -/

/-- The word has these numbers. -/
def OpcodeNumbers.selects (n : OpcodeNumbers) (w : Word) : Bool :=
  n.op == opField w &&
    match n.func with
    | some func => func == funcField w
    | none => true

/-- The word with its numbers replaced by these. -/
def OpcodeNumbers.put (n : OpcodeNumbers) (w : Word) : Word :=
  match n.func with
  | some func => n.op ++ w.extractLsb' 11 15 ++ func
  | none => n.op ++ w.extractLsb' 0 26

/-- The decode procedure under the numbers of a launch (R6, R97): a word with the numbers of a row is
the instruction that the row names, its other fields as they stand. -/
def decodeUnder (opc : OpcodeMap) (w : Word) : Except DecodeError Instr :=
  match opc with
  | .standard => decode w
  | .renumbered rows =>
    match rows.find? fun row => row.1.selects w with
    | some row => decode (row.2.put w)
    | none => .error .unassigned

/-- Decoding of any bytes: the first four, the byte at the lowest address the most significant (R54),
and the bytes that follow the instruction. -/
def decodeBytes : List Byte → Except DecodeError (Instr × List Byte)
  | b0 :: b1 :: b2 :: b3 :: rest => (decode (b0 ++ b1 ++ b2 ++ b3)).map fun i => (i, rest)
  | _ => .error .truncated

/-! Encoding, from the same maps; an unused field is written as zero (R92). -/

/-- An I-type word (R82). -/
def iWord (op : BitVec 6) (rs1 rd : BitVec 5) (imm : Half) : Word := op ++ rs1 ++ rd ++ imm

/-- An R-type word (R83). -/
def rWord (op : BitVec 6) (rs1 rs2 rd : BitVec 5) (func : BitVec 11) : Word :=
  op ++ rs1 ++ rs2 ++ rd ++ func

/-- A J-type word (R84). -/
def jWord (op : BitVec 6) (name : BitVec 26) : Word := op ++ name

/-- The word of an instruction. -/
def encode : Instr → Word
  | .lb rd rs1 imm => iWord 0x20#6 rs1 rd imm
  | .lbu rd rs1 imm => iWord 0x24#6 rs1 rd imm
  | .lh rd rs1 imm => iWord 0x21#6 rs1 rd imm
  | .lhu rd rs1 imm => iWord 0x25#6 rs1 rd imm
  | .lw rd rs1 imm => iWord 0x23#6 rs1 rd imm
  | .lf rd rs1 imm => iWord 0x26#6 rs1 rd imm
  | .ld rd rs1 imm => iWord 0x27#6 rs1 rd imm
  | .sb rd rs1 imm => iWord 0x28#6 rs1 rd imm
  | .sh rd rs1 imm => iWord 0x29#6 rs1 rd imm
  | .sw rd rs1 imm => iWord 0x2B#6 rs1 rd imm
  | .sf rd rs1 imm => iWord 0x2E#6 rs1 rd imm
  | .sd rd rs1 imm => iWord 0x2F#6 rs1 rd imm
  | .movi2s rd rs1 => rWord 0x00#6 rs1 0#5 rd 0x030#11
  | .movs2i rd rs1 => rWord 0x00#6 rs1 0#5 rd 0x031#11
  | .movf rd rs1 => rWord 0x00#6 rs1 0#5 rd 0x032#11
  | .movd rd rs1 => rWord 0x00#6 rs1 0#5 rd 0x033#11
  | .movfp2i rd rs1 => rWord 0x00#6 rs1 0#5 rd 0x034#11
  | .movi2fp rd rs1 => rWord 0x00#6 rs1 0#5 rd 0x035#11
  | .add rd rs1 rs2 => rWord 0x00#6 rs1 rs2 rd 0x020#11
  | .addi rd rs1 imm => iWord 0x08#6 rs1 rd imm
  | .addu rd rs1 rs2 => rWord 0x00#6 rs1 rs2 rd 0x021#11
  | .addui rd rs1 imm => iWord 0x09#6 rs1 rd imm
  | .sub rd rs1 rs2 => rWord 0x00#6 rs1 rs2 rd 0x022#11
  | .subi rd rs1 imm => iWord 0x0A#6 rs1 rd imm
  | .subu rd rs1 rs2 => rWord 0x00#6 rs1 rs2 rd 0x023#11
  | .subui rd rs1 imm => iWord 0x0B#6 rs1 rd imm
  | .mult rd rs1 rs2 => rWord 0x01#6 rs1 rs2 rd 0x00E#11
  | .multu rd rs1 rs2 => rWord 0x01#6 rs1 rs2 rd 0x016#11
  | .div rd rs1 rs2 => rWord 0x01#6 rs1 rs2 rd 0x00F#11
  | .divu rd rs1 rs2 => rWord 0x01#6 rs1 rs2 rd 0x017#11
  | .and rd rs1 rs2 => rWord 0x00#6 rs1 rs2 rd 0x024#11
  | .andi rd rs1 imm => iWord 0x0C#6 rs1 rd imm
  | .or rd rs1 rs2 => rWord 0x00#6 rs1 rs2 rd 0x025#11
  | .ori rd rs1 imm => iWord 0x0D#6 rs1 rd imm
  | .xor rd rs1 rs2 => rWord 0x00#6 rs1 rs2 rd 0x026#11
  | .xori rd rs1 imm => iWord 0x0E#6 rs1 rd imm
  | .lhi rd imm => iWord 0x0F#6 0#5 rd imm
  | .sll rd rs1 rs2 => rWord 0x00#6 rs1 rs2 rd 0x004#11
  | .srl rd rs1 rs2 => rWord 0x00#6 rs1 rs2 rd 0x006#11
  | .sra rd rs1 rs2 => rWord 0x00#6 rs1 rs2 rd 0x007#11
  | .slli rd rs1 imm => iWord 0x14#6 rs1 rd imm
  | .srli rd rs1 imm => iWord 0x16#6 rs1 rd imm
  | .srai rd rs1 imm => iWord 0x17#6 rs1 rd imm
  | .seq rd rs1 rs2 => rWord 0x00#6 rs1 rs2 rd 0x028#11
  | .sne rd rs1 rs2 => rWord 0x00#6 rs1 rs2 rd 0x029#11
  | .slt rd rs1 rs2 => rWord 0x00#6 rs1 rs2 rd 0x02A#11
  | .sgt rd rs1 rs2 => rWord 0x00#6 rs1 rs2 rd 0x02B#11
  | .sle rd rs1 rs2 => rWord 0x00#6 rs1 rs2 rd 0x02C#11
  | .sge rd rs1 rs2 => rWord 0x00#6 rs1 rs2 rd 0x02D#11
  | .seqi rd rs1 imm => iWord 0x18#6 rs1 rd imm
  | .snei rd rs1 imm => iWord 0x19#6 rs1 rd imm
  | .slti rd rs1 imm => iWord 0x1A#6 rs1 rd imm
  | .sgti rd rs1 imm => iWord 0x1B#6 rs1 rd imm
  | .slei rd rs1 imm => iWord 0x1C#6 rs1 rd imm
  | .sgei rd rs1 imm => iWord 0x1D#6 rs1 rd imm
  | .addf rd rs1 rs2 => rWord 0x01#6 rs1 rs2 rd 0x000#11
  | .subf rd rs1 rs2 => rWord 0x01#6 rs1 rs2 rd 0x001#11
  | .multf rd rs1 rs2 => rWord 0x01#6 rs1 rs2 rd 0x002#11
  | .divf rd rs1 rs2 => rWord 0x01#6 rs1 rs2 rd 0x003#11
  | .addd rd rs1 rs2 => rWord 0x01#6 rs1 rs2 rd 0x004#11
  | .subd rd rs1 rs2 => rWord 0x01#6 rs1 rs2 rd 0x005#11
  | .multd rd rs1 rs2 => rWord 0x01#6 rs1 rs2 rd 0x006#11
  | .divd rd rs1 rs2 => rWord 0x01#6 rs1 rs2 rd 0x007#11
  | .cvtf2d rd rs1 => rWord 0x01#6 rs1 0#5 rd 0x008#11
  | .cvtf2i rd rs1 => rWord 0x01#6 rs1 0#5 rd 0x009#11
  | .cvtd2f rd rs1 => rWord 0x01#6 rs1 0#5 rd 0x00A#11
  | .cvtd2i rd rs1 => rWord 0x01#6 rs1 0#5 rd 0x00B#11
  | .cvti2f rd rs1 => rWord 0x01#6 rs1 0#5 rd 0x00C#11
  | .cvti2d rd rs1 => rWord 0x01#6 rs1 0#5 rd 0x00D#11
  | .eqf rs1 rs2 => rWord 0x01#6 rs1 rs2 0#5 0x010#11
  | .nef rs1 rs2 => rWord 0x01#6 rs1 rs2 0#5 0x011#11
  | .ltf rs1 rs2 => rWord 0x01#6 rs1 rs2 0#5 0x012#11
  | .gtf rs1 rs2 => rWord 0x01#6 rs1 rs2 0#5 0x013#11
  | .lef rs1 rs2 => rWord 0x01#6 rs1 rs2 0#5 0x014#11
  | .gef rs1 rs2 => rWord 0x01#6 rs1 rs2 0#5 0x015#11
  | .eqd rs1 rs2 => rWord 0x01#6 rs1 rs2 0#5 0x018#11
  | .ned rs1 rs2 => rWord 0x01#6 rs1 rs2 0#5 0x019#11
  | .ltd rs1 rs2 => rWord 0x01#6 rs1 rs2 0#5 0x01A#11
  | .gtd rs1 rs2 => rWord 0x01#6 rs1 rs2 0#5 0x01B#11
  | .led rs1 rs2 => rWord 0x01#6 rs1 rs2 0#5 0x01C#11
  | .ged rs1 rs2 => rWord 0x01#6 rs1 rs2 0#5 0x01D#11
  | .beqz rs1 imm => iWord 0x04#6 rs1 0#5 imm
  | .bnez rs1 imm => iWord 0x05#6 rs1 0#5 imm
  | .bfpt imm => iWord 0x06#6 0#5 0#5 imm
  | .bfpf imm => iWord 0x07#6 0#5 0#5 imm
  | .j name => jWord 0x02#6 name
  | .jal name => jWord 0x03#6 name
  | .jr rs1 => iWord 0x12#6 rs1 0#5 0#16
  | .jalr rs1 => iWord 0x13#6 rs1 0#5 0#16
  | .trap name => jWord 0x11#6 name
  | .rfe => jWord 0x10#6 0#26
  | .nop => rWord 0x00#6 0#5 0#5 0#5 0x000#11

/-- The bits of the instruction's unused fields (R92). -/
def unusedBits : Instr → Word
  | .lb _ _ _ => 0x00000000#32
  | .lbu _ _ _ => 0x00000000#32
  | .lh _ _ _ => 0x00000000#32
  | .lhu _ _ _ => 0x00000000#32
  | .lw _ _ _ => 0x00000000#32
  | .lf _ _ _ => 0x00000000#32
  | .ld _ _ _ => 0x00000000#32
  | .sb _ _ _ => 0x00000000#32
  | .sh _ _ _ => 0x00000000#32
  | .sw _ _ _ => 0x00000000#32
  | .sf _ _ _ => 0x00000000#32
  | .sd _ _ _ => 0x00000000#32
  | .movi2s _ _ => 0x001F0000#32
  | .movs2i _ _ => 0x001F0000#32
  | .movf _ _ => 0x001F0000#32
  | .movd _ _ => 0x001F0000#32
  | .movfp2i _ _ => 0x001F0000#32
  | .movi2fp _ _ => 0x001F0000#32
  | .add _ _ _ => 0x00000000#32
  | .addi _ _ _ => 0x00000000#32
  | .addu _ _ _ => 0x00000000#32
  | .addui _ _ _ => 0x00000000#32
  | .sub _ _ _ => 0x00000000#32
  | .subi _ _ _ => 0x00000000#32
  | .subu _ _ _ => 0x00000000#32
  | .subui _ _ _ => 0x00000000#32
  | .mult _ _ _ => 0x00000000#32
  | .multu _ _ _ => 0x00000000#32
  | .div _ _ _ => 0x00000000#32
  | .divu _ _ _ => 0x00000000#32
  | .and _ _ _ => 0x00000000#32
  | .andi _ _ _ => 0x00000000#32
  | .or _ _ _ => 0x00000000#32
  | .ori _ _ _ => 0x00000000#32
  | .xor _ _ _ => 0x00000000#32
  | .xori _ _ _ => 0x00000000#32
  | .lhi _ _ => 0x03E00000#32
  | .sll _ _ _ => 0x00000000#32
  | .srl _ _ _ => 0x00000000#32
  | .sra _ _ _ => 0x00000000#32
  | .slli _ _ _ => 0x00000000#32
  | .srli _ _ _ => 0x00000000#32
  | .srai _ _ _ => 0x00000000#32
  | .seq _ _ _ => 0x00000000#32
  | .sne _ _ _ => 0x00000000#32
  | .slt _ _ _ => 0x00000000#32
  | .sgt _ _ _ => 0x00000000#32
  | .sle _ _ _ => 0x00000000#32
  | .sge _ _ _ => 0x00000000#32
  | .seqi _ _ _ => 0x00000000#32
  | .snei _ _ _ => 0x00000000#32
  | .slti _ _ _ => 0x00000000#32
  | .sgti _ _ _ => 0x00000000#32
  | .slei _ _ _ => 0x00000000#32
  | .sgei _ _ _ => 0x00000000#32
  | .addf _ _ _ => 0x00000000#32
  | .subf _ _ _ => 0x00000000#32
  | .multf _ _ _ => 0x00000000#32
  | .divf _ _ _ => 0x00000000#32
  | .addd _ _ _ => 0x00000000#32
  | .subd _ _ _ => 0x00000000#32
  | .multd _ _ _ => 0x00000000#32
  | .divd _ _ _ => 0x00000000#32
  | .cvtf2d _ _ => 0x001F0000#32
  | .cvtf2i _ _ => 0x001F0000#32
  | .cvtd2f _ _ => 0x001F0000#32
  | .cvtd2i _ _ => 0x001F0000#32
  | .cvti2f _ _ => 0x001F0000#32
  | .cvti2d _ _ => 0x001F0000#32
  | .eqf _ _ => 0x0000F800#32
  | .nef _ _ => 0x0000F800#32
  | .ltf _ _ => 0x0000F800#32
  | .gtf _ _ => 0x0000F800#32
  | .lef _ _ => 0x0000F800#32
  | .gef _ _ => 0x0000F800#32
  | .eqd _ _ => 0x0000F800#32
  | .ned _ _ => 0x0000F800#32
  | .ltd _ _ => 0x0000F800#32
  | .gtd _ _ => 0x0000F800#32
  | .led _ _ => 0x0000F800#32
  | .ged _ _ => 0x0000F800#32
  | .beqz _ _ => 0x001F0000#32
  | .bnez _ _ => 0x001F0000#32
  | .bfpt _ => 0x03FF0000#32
  | .bfpf _ => 0x03FF0000#32
  | .j _ => 0x00000000#32
  | .jal _ => 0x00000000#32
  | .jr _ => 0x001FFFFF#32
  | .jalr _ => 0x001FFFFF#32
  | .trap _ => 0x00000000#32
  | .rfe => 0x03FFFFFF#32
  | .nop => 0x03FFF800#32

/-- The four bytes of a word as they lie in memory, the most significant first (R53, R54). -/
def wordBytes (w : Word) : List Byte :=
  [w.extractLsb' 24 8, w.extractLsb' 16 8, w.extractLsb' 8 8, w.extractLsb' 0 8]

/-- The instruction that the decoder reads from a row's `nbits` bits `w`, every bit above them zero,
laid out in memory as the hardware stores it (R53, R54, R80). -/
def decodeTableWord (nbits w : Nat) : Option Instr :=
  match decodeBytes (wordBytes (BitVec.ofNat 32 (w % 2 ^ nbits))) with
  | .ok (i, _) => some i
  | .error _ => none

/-! The table of match and mask pairs of R97, transcribed from `spec/opcode_table.json`. -/

/-- One row: a word `w` selects it when `w &&& mask = pattern`. -/
structure OpcodeRow where
  mnemonic : String
  pattern : Word
  mask : Word
  deriving DecidableEq, Repr

/-- The rows of the load and store class. -/
def opcodeRowsLoadAndStore : List OpcodeRow :=
  [⟨"LB", 0x80000000#32, 0xFC000000#32⟩,
   ⟨"LBU", 0x90000000#32, 0xFC000000#32⟩,
   ⟨"LH", 0x84000000#32, 0xFC000000#32⟩,
   ⟨"LHU", 0x94000000#32, 0xFC000000#32⟩,
   ⟨"LW", 0x8C000000#32, 0xFC000000#32⟩,
   ⟨"LF", 0x98000000#32, 0xFC000000#32⟩,
   ⟨"LD", 0x9C000000#32, 0xFC000000#32⟩,
   ⟨"SB", 0xA0000000#32, 0xFC000000#32⟩,
   ⟨"SH", 0xA4000000#32, 0xFC000000#32⟩,
   ⟨"SW", 0xAC000000#32, 0xFC000000#32⟩,
   ⟨"SF", 0xB8000000#32, 0xFC000000#32⟩,
   ⟨"SD", 0xBC000000#32, 0xFC000000#32⟩]

/-- The rows of the move class. -/
def opcodeRowsMove : List OpcodeRow :=
  [⟨"MOVI2S", 0x00000030#32, 0xFC0007FF#32⟩,
   ⟨"MOVS2I", 0x00000031#32, 0xFC0007FF#32⟩,
   ⟨"MOVF", 0x00000032#32, 0xFC0007FF#32⟩,
   ⟨"MOVD", 0x00000033#32, 0xFC0007FF#32⟩,
   ⟨"MOVFP2I", 0x00000034#32, 0xFC0007FF#32⟩,
   ⟨"MOVI2FP", 0x00000035#32, 0xFC0007FF#32⟩]

/-- The rows of the arithmetic and logical class (part). -/
def opcodeRowsArithmeticAndLogical1 : List OpcodeRow :=
  [⟨"ADD", 0x00000020#32, 0xFC0007FF#32⟩,
   ⟨"ADDI", 0x20000000#32, 0xFC000000#32⟩,
   ⟨"ADDU", 0x00000021#32, 0xFC0007FF#32⟩,
   ⟨"ADDUI", 0x24000000#32, 0xFC000000#32⟩,
   ⟨"SUB", 0x00000022#32, 0xFC0007FF#32⟩,
   ⟨"SUBI", 0x28000000#32, 0xFC000000#32⟩,
   ⟨"SUBU", 0x00000023#32, 0xFC0007FF#32⟩,
   ⟨"SUBUI", 0x2C000000#32, 0xFC000000#32⟩,
   ⟨"MULT", 0x0400000E#32, 0xFC0007FF#32⟩,
   ⟨"MULTU", 0x04000016#32, 0xFC0007FF#32⟩,
   ⟨"DIV", 0x0400000F#32, 0xFC0007FF#32⟩,
   ⟨"DIVU", 0x04000017#32, 0xFC0007FF#32⟩,
   ⟨"AND", 0x00000024#32, 0xFC0007FF#32⟩,
   ⟨"ANDI", 0x30000000#32, 0xFC000000#32⟩,
   ⟨"OR", 0x00000025#32, 0xFC0007FF#32⟩,
   ⟨"ORI", 0x34000000#32, 0xFC000000#32⟩,
   ⟨"XOR", 0x00000026#32, 0xFC0007FF#32⟩,
   ⟨"XORI", 0x38000000#32, 0xFC000000#32⟩,
   ⟨"LHI", 0x3C000000#32, 0xFC000000#32⟩,
   ⟨"SLL", 0x00000004#32, 0xFC0007FF#32⟩]

/-- The rows of the arithmetic and logical class (part). -/
def opcodeRowsArithmeticAndLogical2 : List OpcodeRow :=
  [⟨"SRL", 0x00000006#32, 0xFC0007FF#32⟩,
   ⟨"SRA", 0x00000007#32, 0xFC0007FF#32⟩,
   ⟨"SLLI", 0x50000000#32, 0xFC000000#32⟩,
   ⟨"SRLI", 0x58000000#32, 0xFC000000#32⟩,
   ⟨"SRAI", 0x5C000000#32, 0xFC000000#32⟩,
   ⟨"SEQ", 0x00000028#32, 0xFC0007FF#32⟩,
   ⟨"SNE", 0x00000029#32, 0xFC0007FF#32⟩,
   ⟨"SLT", 0x0000002A#32, 0xFC0007FF#32⟩,
   ⟨"SGT", 0x0000002B#32, 0xFC0007FF#32⟩,
   ⟨"SLE", 0x0000002C#32, 0xFC0007FF#32⟩,
   ⟨"SGE", 0x0000002D#32, 0xFC0007FF#32⟩,
   ⟨"SEQI", 0x60000000#32, 0xFC000000#32⟩,
   ⟨"SNEI", 0x64000000#32, 0xFC000000#32⟩,
   ⟨"SLTI", 0x68000000#32, 0xFC000000#32⟩,
   ⟨"SGTI", 0x6C000000#32, 0xFC000000#32⟩,
   ⟨"SLEI", 0x70000000#32, 0xFC000000#32⟩,
   ⟨"SGEI", 0x74000000#32, 0xFC000000#32⟩]

/-- The rows of the floating point class (part). -/
def opcodeRowsFloatingPoint1 : List OpcodeRow :=
  [⟨"ADDF", 0x04000000#32, 0xFC0007FF#32⟩,
   ⟨"SUBF", 0x04000001#32, 0xFC0007FF#32⟩,
   ⟨"MULTF", 0x04000002#32, 0xFC0007FF#32⟩,
   ⟨"DIVF", 0x04000003#32, 0xFC0007FF#32⟩,
   ⟨"ADDD", 0x04000004#32, 0xFC0007FF#32⟩,
   ⟨"SUBD", 0x04000005#32, 0xFC0007FF#32⟩,
   ⟨"MULTD", 0x04000006#32, 0xFC0007FF#32⟩,
   ⟨"DIVD", 0x04000007#32, 0xFC0007FF#32⟩,
   ⟨"CVTF2D", 0x04000008#32, 0xFC0007FF#32⟩,
   ⟨"CVTF2I", 0x04000009#32, 0xFC0007FF#32⟩,
   ⟨"CVTD2F", 0x0400000A#32, 0xFC0007FF#32⟩,
   ⟨"CVTD2I", 0x0400000B#32, 0xFC0007FF#32⟩,
   ⟨"CVTI2F", 0x0400000C#32, 0xFC0007FF#32⟩,
   ⟨"CVTI2D", 0x0400000D#32, 0xFC0007FF#32⟩,
   ⟨"EQF", 0x04000010#32, 0xFC0007FF#32⟩,
   ⟨"NEF", 0x04000011#32, 0xFC0007FF#32⟩,
   ⟨"LTF", 0x04000012#32, 0xFC0007FF#32⟩,
   ⟨"GTF", 0x04000013#32, 0xFC0007FF#32⟩,
   ⟨"LEF", 0x04000014#32, 0xFC0007FF#32⟩,
   ⟨"GEF", 0x04000015#32, 0xFC0007FF#32⟩]

/-- The rows of the floating point class (part). -/
def opcodeRowsFloatingPoint2 : List OpcodeRow :=
  [⟨"EQD", 0x04000018#32, 0xFC0007FF#32⟩,
   ⟨"NED", 0x04000019#32, 0xFC0007FF#32⟩,
   ⟨"LTD", 0x0400001A#32, 0xFC0007FF#32⟩,
   ⟨"GTD", 0x0400001B#32, 0xFC0007FF#32⟩,
   ⟨"LED", 0x0400001C#32, 0xFC0007FF#32⟩,
   ⟨"GED", 0x0400001D#32, 0xFC0007FF#32⟩]

/-- The rows of the jump and branch class. -/
def opcodeRowsJumpAndBranch : List OpcodeRow :=
  [⟨"BEQZ", 0x10000000#32, 0xFC000000#32⟩,
   ⟨"BNEZ", 0x14000000#32, 0xFC000000#32⟩,
   ⟨"BFPT", 0x18000000#32, 0xFC000000#32⟩,
   ⟨"BFPF", 0x1C000000#32, 0xFC000000#32⟩,
   ⟨"J", 0x08000000#32, 0xFC000000#32⟩,
   ⟨"JAL", 0x0C000000#32, 0xFC000000#32⟩,
   ⟨"JR", 0x48000000#32, 0xFC000000#32⟩,
   ⟨"JALR", 0x4C000000#32, 0xFC000000#32⟩]

/-- The rows of the special class. -/
def opcodeRowsSpecial : List OpcodeRow :=
  [⟨"TRAP", 0x44000000#32, 0xFC000000#32⟩,
   ⟨"RFE", 0x40000000#32, 0xFC000000#32⟩,
   ⟨"NOP", 0x00000000#32, 0xFC0007FF#32⟩]

/-- All 92 rows. -/
def opcodeRows : List OpcodeRow :=
  opcodeRowsLoadAndStore ++
  opcodeRowsMove ++
  opcodeRowsArithmeticAndLogical1 ++
  opcodeRowsArithmeticAndLogical2 ++
  opcodeRowsFloatingPoint1 ++
  opcodeRowsFloatingPoint2 ++
  opcodeRowsJumpAndBranch ++
  opcodeRowsSpecial

/-- The numbers of a row. -/
def OpcodeRow.numbers (r : OpcodeRow) : OpcodeNumbers where
  op := opField r.pattern
  func := if funcField r.mask = 0#11 then none else some (funcField r.pattern)

/-- The default numbers of the 92 instructions. -/
def standardNumbers : List OpcodeNumbers := opcodeRows.map OpcodeRow.numbers

end Sys2Proof
end

