-- ==== Sys2Proof/Machine/State.lean ====
section
/-! DEFINITION. The architectural state (`10_state.md`), the ways a step can stop
(`60_exceptions.md` R281, R282), and the states a run may start from (R36, R320). -/

namespace Sys2Proof.Machine

/-- Memory as the (address, byte) pairs that differ from `Config.unnamedByte`, addresses strictly
rising; `Memory.wf` in `Machine/Ops.lean` says so. -/
abbrev Memory := List Host.Cell

/-- The whole state of the machine (R20 to R36). -/
structure State where
  /-- R0 to R31 (R20). Slot 0 is never read: R0 reads zero (R22). -/
  x : Vector Word 32
  /-- F0 to F31 (R24); a double is an even/odd pair of them (R26). -/
  f : Vector Word 32
  /-- The program counter: the address of the next instruction to be fetched (R30). -/
  pc : Word
  /-- The Interrupt Address Register (R29). -/
  iar : Word
  /-- The Floating-Point Status Register, one bit (R28). -/
  fpsr : BitVec 1
  /-- Memory (R50). -/
  mem : Memory
  /-- The launch parameters, fixed for a run (R6). -/
  launch : Launch
  /-- The model's own counter of the open values drawn so far (log 6). -/
  draws : Nat
  deriving DecidableEq, Repr

/-- The kind of an access to memory (R13). -/
inductive AccessKind where
  | fetch
  | load
  | store
  deriving DecidableEq, Repr

/-- The faults of R13 and R282. A fault is terminal (R281): it is the outcome of its step, `a` is the
address of the faulting instruction and the other arguments are what R282 records. Each errs toward
unprovable, so each is safe (`92_eei_decisions.md`). -/
inductive Fault where
  /-- Raised by every step at its fetch when `pc` is not a multiple of 4 (R31, R58). Safe (D4). -/
  | fetchMisaligned (a addr : Word)
  /-- Raised at a fetch, load or store with a byte outside `MEM_MAP` (R52). Safe (D2). -/
  | accessFault (a addr : Word) (n : Nat) (kind : AccessKind)
  /-- Raised by decode on a reserved encoding, and by MOVI2S and MOVS2I on a number that names neither
  IAR nor FPSR (R98, R99, R141, R142). Safe (D13, D19). -/
  | illegalInstruction (a word : Word)
  /-- Raised by an odd register number in a double-precision position (R26, R202). Safe (D12). -/
  | oddFPRegister (a : Word) (i : FReg)
  /-- Raised by a load or store whose address is not a multiple of its width (R57). Safe (D3). -/
  | dataMisaligned (a addr : Word) (n : Nat)
  /-- Raised by a store into `TEXT` under `SMC_POLICY = refuse` (R68). Safe (D24). -/
  | storeToText (a addr : Word)
  /-- Raised by DIV and DIVU with a zero divisor (R162, R163). Safe (D16). -/
  | divideByZero (a : Word)
  /-- Raised by ADD, ADDI, SUB, SUBI, MULT, DIV on signed overflow under `OVF_TRAPS` (R151).
  Safe (D15). -/
  | integerOverflow (a : Word)
  /-- Raised by a floating-point instruction whose `FPOps` field answers fault; never with the default
  record (R200). Safe (D17). -/
  | fpFault (a : Word)
  deriving DecidableEq, Repr

/-- The address of the faulting instruction (R281). -/
def Fault.address : Fault → Word
  | .fetchMisaligned a _ => a
  | .accessFault a _ _ _ => a
  | .illegalInstruction a _ => a
  | .oddFPRegister a _ => a
  | .dataMisaligned a _ _ => a
  | .storeToText a _ => a
  | .divideByZero a => a
  | .integerOverflow a => a
  | .fpFault a => a

/-- The model's refusals. -/
inductive Refusal where
  /-- Raised by an arm of `exec` whose instruction has no meaning yet; no arm is one. Safe. -/
  | notModelled (mnemonic : String)
  deriving DecidableEq, Repr

/-- What a launch leaves open (R36, R37): the values of the registers and of memory. -/
structure StartValues where
  x : Vector Word 32
  f : Vector Word 32
  iar : Word
  fpsr : BitVec 1
  mem : Memory
  deriving DecidableEq, Repr

/-- The state at the start of a run (R36, R320): `pc = RESET_PC`, R0 zero, no fault recorded, and any
values `v` in the rest; `n` is where the run's open values start. -/
def State.launched (l : Launch) (v : StartValues) (n : Nat) : State where
  x := v.x.set 0 0#32
  f := v.f
  pc := l.resetPc
  iar := v.iar
  fpsr := v.fpsr
  mem := v.mem
  launch := l
  draws := n

/-- The start values of `State.reset`, each a DESIGN CHOICE (logs 1 and 3). -/
def startValues : StartValues where
  x := Config.startGprs
  f := Config.startFprs
  iar := Config.startIar
  fpsr := Config.startFpsr
  mem := []

/-- The machine right after reset: the launch with the default parameters (logs 1, 2, 3, 6). -/
def State.reset : State := State.launched Config.defaultLaunch startValues 0

end Sys2Proof.Machine
end

