-- ==== Sys2Proof/Machine/Ops.lean ====
section
/-! DEFINITION. The named operations over the state: registers, memory, the checks of an access, the
draw of an open value, trap entry and return. -/

namespace Sys2Proof.Machine

/-! Registers (R10). -/

/-- `x[i]`: R0 reads zero (R22). -/
def State.gpr (s : State) (i : GReg) : Word := if i = 0#5 then 0#32 else s.x[i.toNat]

/-- `x[i] <- v`: a write to R0 is discarded (R22). -/
def State.setGpr (s : State) (i : GReg) (v : Word) : State :=
  { s with x := if i = 0#5 then s.x else s.x.set i.toNat v i.isLt }

/-- `f[i]`, a bit pattern (R25). -/
def State.fpr (s : State) (i : FReg) : Word := s.f[i.toNat]

/-- `f[i] <- v`. -/
def State.setFpr (s : State) (i : FReg) (v : Word) : State :=
  { s with f := s.f.set i.toNat v i.isLt }

/-- `d[i]`, for even `i`: the even register is the more significant half (R26). -/
def State.dpr (s : State) (i : FReg) : Dword := s.fpr i ++ s.fpr (i + 1#5)

/-- `d[i] <- v`, for even `i` (R26). -/
def State.setDpr (s : State) (i : FReg) (v : Dword) : State :=
  (s.setFpr i (v.extractLsb' 32 32)).setFpr (i + 1#5) (v.extractLsb' 0 32)

/-- `IAR <- v` (R29). -/
def State.setIar (s : State) (v : Word) : State := { s with iar := v }

/-- `FPSR <- v` (R28). -/
def State.setFpsr (s : State) (v : BitVec 1) : State := { s with fpsr := v }

/-- `pc <- v`: a transfer of control. -/
def State.setPc (s : State) (v : Word) : State := { s with pc := v }

/-- The address of the next instruction in sequence, modulo 2^32 (R32, R33). Before an instruction's
writes `pc` is `A`. -/
def State.nextPc (s : State) : Word := s.pc + 4#32

/-- `pc <- A + 4` (R32). -/
def State.advance (s : State) : State := s.setPc s.nextPc

/-- One more open value has been drawn (log 6). -/
def State.countDraw (s : State) : State := { s with draws := s.draws + 1 }

/-! Memory (R12, R50 to R55). -/

/-- The byte that the list `m` gives address `a`; an unlisted one reads `Config.unnamedByte`. -/
def Memory.read : Memory → Nat → Byte
  | [], _ => Config.unnamedByte
  | (k, v) :: m, a => if a = k then v else if a < k then Config.unnamedByte else Memory.read m a

/-- `v` at address `a`, as a list entry: none where an unlisted address reads the same. -/
def memoryEntry (a : Nat) (v : Byte) : Memory := if v = Config.unnamedByte then [] else [(a, v)]

/-- The byte at `a` becomes `v`; the list keeps its canonical form. -/
def Memory.write : Memory → Nat → Byte → Memory
  | [], a, v => memoryEntry a v
  | (k, w) :: m, a, v =>
    if a = k then memoryEntry a v ++ m
    else if a < k then memoryEntry a v ++ (k, w) :: m
    else (k, w) :: Memory.write m a v

/-- The canonical form from address `lo` on: addresses strictly rising, below 2^32, none below `lo`,
and no entry equal to what an unlisted address reads as. -/
def Memory.wfFrom : Nat → Memory → Bool
  | _, [] => true
  | lo, (k, v) :: m =>
    decide (lo ≤ k) && decide (k < 2 ^ 32) && decide (v ≠ Config.unnamedByte) && Memory.wfFrom (k + 1) m

/-- The canonical form of a memory. -/
def Memory.wf (m : Memory) : Bool := m.wfFrom 0

/-- The byte at an address (R50). -/
def State.byteAt (s : State) (a : Word) : Byte := s.mem.read a.toNat

/-- `MemRead(a, 2)`, big endian (R53). -/
def State.halfAt (s : State) (a : Word) : Half := s.byteAt a ++ s.byteAt (a + 1#32)

/-- `MemRead(a, 4)`, big endian (R53). -/
def State.wordAt (s : State) (a : Word) : Word := s.halfAt a ++ s.halfAt (a + 2#32)

/-- `MemRead(a, 8)`, big endian (R53). -/
def State.dwordAt (s : State) (a : Word) : Dword := s.wordAt a ++ s.wordAt (a + 4#32)

/-- `MemWrite(a, 1, v)` on the list (R12). -/
def Memory.write8 (m : Memory) (a : Word) (v : Byte) : Memory := m.write a.toNat v

/-- `MemWrite(a, 2, v)` on the list, big endian (R53). -/
def Memory.write16 (m : Memory) (a : Word) (v : Half) : Memory :=
  (m.write8 a (v.extractLsb' 8 8)).write8 (a + 1#32) (v.extractLsb' 0 8)

/-- `MemWrite(a, 4, v)` on the list, big endian (R53). -/
def Memory.write32 (m : Memory) (a : Word) (v : Word) : Memory :=
  (m.write16 a (v.extractLsb' 16 16)).write16 (a + 2#32) (v.extractLsb' 0 16)

/-- `MemWrite(a, 8, v)` on the list, big endian (R53). -/
def Memory.write64 (m : Memory) (a : Word) (v : Dword) : Memory :=
  (m.write32 a (v.extractLsb' 32 32)).write32 (a + 4#32) (v.extractLsb' 0 32)

/-- `MemWrite(a, 1, v)` (R12). -/
def State.setByte (s : State) (a : Word) (v : Byte) : State := { s with mem := s.mem.write8 a v }

/-- `MemWrite(a, 2, v)` (R12, R53). -/
def State.setHalf (s : State) (a : Word) (v : Half) : State := { s with mem := s.mem.write16 a v }

/-- `MemWrite(a, 4, v)` (R12, R53). -/
def State.setWord (s : State) (a : Word) (v : Word) : State := { s with mem := s.mem.write32 a v }

/-- `MemWrite(a, 8, v)` (R12, R53). -/
def State.setDword (s : State) (a : Word) (v : Dword) : State := { s with mem := s.mem.write64 a v }

/-! The checks of an access (R52, R57, R68). -/

/-- Some region of the list holds the address. -/
def inRegions (rs : List Region) (a : Word) : Bool :=
  rs.any fun r => decide (r.base ≤ a.toNat) && decide (a.toNat < r.base + r.size)

/-- The addresses `a`, `a + 1`, …, `a + n - 1`, each modulo 2^32 (R52, R64). -/
def bytesFrom (a : Word) (n : Nat) : List Word := (List.range n).map fun k => a + BitVec.ofNat 32 k

/-- Every byte of the access is in `MEM_MAP` (R52). -/
def mapped (l : Launch) (a : Word) (n : Nat) : Bool := (bytesFrom a n).all (inRegions l.memMap)

/-- Some byte of the access is in `TEXT` (R68). -/
def meetsText (l : Launch) (a : Word) (n : Nat) : Bool := (bytesFrom a n).any (inRegions l.text)

/-- `a` is a multiple of `n` (R57). -/
def aligned (a : Word) (n : Nat) : Bool := a.toNat % n == 0

/-- The faults of a data access in the order of R121: alignment, then mapping. -/
def dataFault (s : State) (a : Word) (n : Nat) (kind : AccessKind) : Option Fault :=
  if !aligned a n then some (.dataMisaligned s.pc a n)
  else if !mapped s.launch a n then some (.accessFault s.pc a n kind)
  else none

/-- The faults of a load (R121). -/
def loadFault (s : State) (a : Word) (n : Nat) : Option Fault := dataFault s a n .load

/-- The fault of a store into `TEXT` (R68). -/
def textFault (s : State) (a : Word) (n : Nat) : Option Fault :=
  if s.launch.smc = .refuse ∧ meetsText s.launch a n = true then some (.storeToText s.pc a) else none

/-- The faults of a store (R121). -/
def storeFault (s : State) (a : Word) (n : Nat) : Option Fault :=
  (dataFault s a n .store).or (textFault s a n)

/-- The fault of a register number in a double-precision position (R26, R202). -/
def oddFault (s : State) (i : FReg) : Option Fault :=
  if i.getLsbD 0 then some (.oddFPRegister s.pc i) else none

/-- The step ends in the fault where there is one, with none of the writes (R281), and else in `t`. -/
def raiseOr (fault : Option Fault) (t : State) : Host.Outcome State Fault Refusal :=
  match fault with
  | some r => .fault r
  | none => .next t

/-! Trap entry and return (R286, R288). -/

/-- Trap entry: the return address `A + 4` into IAR, `pc` to the handler, nothing else (R286). -/
def enterTrap (s : State) (handler : Word) : State := (s.setIar s.nextPc).setPc handler

/-- Trap return: `pc` from IAR, nothing else (R288). -/
def returnFromTrap (s : State) : State := s.setPc s.iar

end Sys2Proof.Machine
end

