-- ==== Sys2Proof/Machine/Flags.lean ====
section
/-! DEFINITION. The one flag, FPSR (R28), the truth value of a set instruction (`42_arith_logical.md`
section 6), and signed overflow (R151), which this machine has no flag for. -/

namespace Sys2Proof.Machine

/-- A truth value as FPSR holds it (R28). -/
def flagBit (b : Bool) : BitVec 1 := if b then 1#1 else 0#1

/-- A truth value as a set instruction writes it (R177). -/
def truthWord (b : Bool) : Word := if b then 1#32 else 0#32

/-- FPSR as MOVS2I reads it (R142). -/
def fpsrWord (v : BitVec 1) : Word := v.zeroExtend 32

/-- The bit of a word that MOVI2S writes to FPSR: the least significant (R141). -/
def wordFpsr (v : Word) : BitVec 1 := v.extractLsb' 0 1

/-- The result of a floating-point comparison into FPSR; `none` raises `FPFault` (R200, R203). -/
def compareTo (s : State) (answer : Option Bool) : Host.Outcome State Fault Refusal :=
  match answer with
  | some b => .next (s.setFpsr (flagBit b)).advance
  | none => .fault (.fpFault s.pc)

/-- Signed overflow (R151): `r` as a word if it fits or if overflow wraps, `none` if it traps. -/
def signedResult (ovfTraps : Bool) (r : Int) : Option Word :=
  if -(2 : Int) ^ 31 ≤ r ∧ r ≤ (2 : Int) ^ 31 - 1 then some (BitVec.ofInt 32 r)
  else if ovfTraps then none
  else some (BitVec.ofInt 32 r)

/-- A signed result into a general register, or `IntegerOverflow` (R151). -/
def signedToGpr (s : State) (rd : GReg) (r : Int) : Host.Outcome State Fault Refusal :=
  match signedResult s.launch.ovfTraps r with
  | some v => .next (s.setGpr rd v).advance
  | none => .fault (.integerOverflow s.pc)

/-- A signed result into a floating-point register, or `IntegerOverflow` (R151, R160). -/
def signedToFpr (s : State) (rd : FReg) (r : Int) : Host.Outcome State Fault Refusal :=
  match signedResult s.launch.ovfTraps r with
  | some v => .next (s.setFpr rd v).advance
  | none => .fault (.integerOverflow s.pc)

end Sys2Proof.Machine
end

