-- ==== Sys2Proof/Machine/Operands.lean ====
section
/-! DEFINITION. The operand forms (`30_encoding.md` R87 to R91) and the addresses computed from them
(R120, R250). -/

namespace Sys2Proof.Machine

/-- The sign-extended 16-bit immediate (R87). -/
def signedImm (imm : Half) : Word := imm.signExtend 32

/-- The zero-extended 16-bit immediate (R88). -/
def unsignedImm (imm : Half) : Word := imm.zeroExtend 32

/-- The shift amount of SLLI, SRLI, SRAI: the low five bits (R89). -/
def immShift (imm : Half) : Nat := (imm.extractLsb' 0 5).toNat

/-- The shift amount of SLL, SRL, SRA: the low five bits of the register (R171). -/
def regShift (v : Word) : Nat := (v.extractLsb' 0 5).toNat

/-- The immediate of LHI, in the upper half (R90). -/
def highImm (imm : Half) : Word := imm ++ 0#16

/-- The signed name field of J and JAL (R91). -/
def signedName (name : BitVec 26) : Word := name.signExtend 32

/-- The unsigned name field of TRAP (R91). -/
def unsignedName (name : BitVec 26) : Word := name.zeroExtend 32

/-- The effective address of a load or store, modulo 2^32 (R64, R120). -/
def effectiveAddress (s : State) (rs1 : GReg) (imm : Half) : Word := s.gpr rs1 + signedImm imm

/-- The target of a conditional branch, modulo 2^32 (R250). -/
def branchTarget (s : State) (imm : Half) : Word := s.nextPc + signedImm imm

/-- The target of J and JAL, modulo 2^32 (R250). -/
def jumpTarget (s : State) (name : BitVec 26) : Word := s.nextPc + signedName name

/-- A conditional branch: to the target if it is taken, else to the next instruction (R250, R251). -/
def branchIf (s : State) (taken : Bool) (imm : Half) : State :=
  s.setPc (if taken then branchTarget s imm else s.nextPc)

end Sys2Proof.Machine
end

