-- ==== Sys2Proof/Machine/ArithLogical.lean ====
section
/-! DEFINITION. `42_arith_logical.md`: the 37 arithmetic and logical instructions (R150). -/

namespace Sys2Proof.Machine

/-- ADD, add signed (R152). -/
def execAdd (rd rs1 rs2 : GReg) (s : State) : Host.Outcome State Fault Refusal :=
  signedToGpr s rd ((s.gpr rs1).toInt + (s.gpr rs2).toInt)

/-- ADDI, add immediate signed (R153). -/
def execAddi (rd rs1 : GReg) (imm : Half) (s : State) : Host.Outcome State Fault Refusal :=
  signedToGpr s rd ((s.gpr rs1).toInt + (signedImm imm).toInt)

/-- ADDU, add unsigned (R154). -/
def execAddu (rd rs1 rs2 : GReg) (s : State) : Host.Outcome State Fault Refusal :=
  .next (s.setGpr rd (s.gpr rs1 + s.gpr rs2)).advance

/-- ADDUI, add immediate unsigned (R155). -/
def execAddui (rd rs1 : GReg) (imm : Half) (s : State) : Host.Outcome State Fault Refusal :=
  .next (s.setGpr rd (s.gpr rs1 + unsignedImm imm)).advance

/-- SUB, subtract signed (R156). -/
def execSub (rd rs1 rs2 : GReg) (s : State) : Host.Outcome State Fault Refusal :=
  signedToGpr s rd ((s.gpr rs1).toInt - (s.gpr rs2).toInt)

/-- SUBI, subtract immediate signed (R157). -/
def execSubi (rd rs1 : GReg) (imm : Half) (s : State) : Host.Outcome State Fault Refusal :=
  signedToGpr s rd ((s.gpr rs1).toInt - (signedImm imm).toInt)

/-- SUBU, subtract unsigned (R158). -/
def execSubu (rd rs1 rs2 : GReg) (s : State) : Host.Outcome State Fault Refusal :=
  .next (s.setGpr rd (s.gpr rs1 - s.gpr rs2)).advance

/-- SUBUI, subtract immediate unsigned (R159). -/
def execSubui (rd rs1 : GReg) (imm : Half) (s : State) : Host.Outcome State Fault Refusal :=
  .next (s.setGpr rd (s.gpr rs1 - unsignedImm imm)).advance

/-- MULT, multiply signed (R160). The operands are 32-bit integers in FPRs. -/
def execMult (rd rs1 rs2 : FReg) (s : State) : Host.Outcome State Fault Refusal :=
  signedToFpr s rd ((s.fpr rs1).toInt * (s.fpr rs2).toInt)

/-- MULTU, multiply unsigned (R161). -/
def execMultu (rd rs1 rs2 : FReg) (s : State) : Host.Outcome State Fault Refusal :=
  .next (s.setFpr rd (BitVec.ofNat 32 ((s.fpr rs1).toNat * (s.fpr rs2).toNat))).advance

/-- DIV, divide signed (R162). The quotient is rounded toward zero. -/
def execDiv (rd rs1 rs2 : FReg) (s : State) : Host.Outcome State Fault Refusal :=
  if s.fpr rs2 = 0#32 then .fault (.divideByZero s.pc)
  else signedToFpr s rd ((s.fpr rs1).toInt.tdiv (s.fpr rs2).toInt)

/-- DIVU, divide unsigned (R163). -/
def execDivu (rd rs1 rs2 : FReg) (s : State) : Host.Outcome State Fault Refusal :=
  if s.fpr rs2 = 0#32 then .fault (.divideByZero s.pc)
  else .next (s.setFpr rd (BitVec.ofNat 32 ((s.fpr rs1).toNat / (s.fpr rs2).toNat))).advance

/-- AND, and (R164). -/
def execAnd (rd rs1 rs2 : GReg) (s : State) : Host.Outcome State Fault Refusal :=
  .next (s.setGpr rd (s.gpr rs1 &&& s.gpr rs2)).advance

/-- ANDI, and immediate (R165). -/
def execAndi (rd rs1 : GReg) (imm : Half) (s : State) : Host.Outcome State Fault Refusal :=
  .next (s.setGpr rd (s.gpr rs1 &&& unsignedImm imm)).advance

/-- OR, or (R166). -/
def execOr (rd rs1 rs2 : GReg) (s : State) : Host.Outcome State Fault Refusal :=
  .next (s.setGpr rd (s.gpr rs1 ||| s.gpr rs2)).advance

/-- ORI, or immediate (R167). -/
def execOri (rd rs1 : GReg) (imm : Half) (s : State) : Host.Outcome State Fault Refusal :=
  .next (s.setGpr rd (s.gpr rs1 ||| unsignedImm imm)).advance

/-- XOR, exclusive or (R168). -/
def execXor (rd rs1 rs2 : GReg) (s : State) : Host.Outcome State Fault Refusal :=
  .next (s.setGpr rd (s.gpr rs1 ^^^ s.gpr rs2)).advance

/-- XORI, exclusive or immediate (R169). -/
def execXori (rd rs1 : GReg) (imm : Half) (s : State) : Host.Outcome State Fault Refusal :=
  .next (s.setGpr rd (s.gpr rs1 ^^^ unsignedImm imm)).advance

/-- LHI, load high immediate (R170). -/
def execLhi (rd : GReg) (imm : Half) (s : State) : Host.Outcome State Fault Refusal :=
  .next (s.setGpr rd (highImm imm)).advance

/-- SLL, shift left logical (R171). -/
def execSll (rd rs1 rs2 : GReg) (s : State) : Host.Outcome State Fault Refusal :=
  .next (s.setGpr rd ((s.gpr rs1) <<< (regShift (s.gpr rs2)))).advance

/-- SRL, shift right logical (R172). -/
def execSrl (rd rs1 rs2 : GReg) (s : State) : Host.Outcome State Fault Refusal :=
  .next (s.setGpr rd ((s.gpr rs1) >>> (regShift (s.gpr rs2)))).advance

/-- SRA, shift right arithmetic (R173). -/
def execSra (rd rs1 rs2 : GReg) (s : State) : Host.Outcome State Fault Refusal :=
  .next (s.setGpr rd ((s.gpr rs1).sshiftRight (regShift (s.gpr rs2)))).advance

/-- SLLI, shift left logical immediate (R174). -/
def execSlli (rd rs1 : GReg) (imm : Half) (s : State) : Host.Outcome State Fault Refusal :=
  .next (s.setGpr rd ((s.gpr rs1) <<< (immShift imm))).advance

/-- SRLI, shift right logical immediate (R175). -/
def execSrli (rd rs1 : GReg) (imm : Half) (s : State) : Host.Outcome State Fault Refusal :=
  .next (s.setGpr rd ((s.gpr rs1) >>> (immShift imm))).advance

/-- SRAI, shift right arithmetic immediate (R176). -/
def execSrai (rd rs1 : GReg) (imm : Half) (s : State) : Host.Outcome State Fault Refusal :=
  .next (s.setGpr rd ((s.gpr rs1).sshiftRight (immShift imm))).advance

/-- SEQ, set if equal (R177). -/
def execSeq (rd rs1 rs2 : GReg) (s : State) : Host.Outcome State Fault Refusal :=
  .next (s.setGpr rd (truthWord (s.gpr rs1 == s.gpr rs2))).advance

/-- SNE, set if not equal (R178). -/
def execSne (rd rs1 rs2 : GReg) (s : State) : Host.Outcome State Fault Refusal :=
  .next (s.setGpr rd (truthWord (s.gpr rs1 != s.gpr rs2))).advance

/-- SLT, set if less (R179). -/
def execSlt (rd rs1 rs2 : GReg) (s : State) : Host.Outcome State Fault Refusal :=
  .next (s.setGpr rd (truthWord ((s.gpr rs1).slt (s.gpr rs2)))).advance

/-- SGT, set if greater (R180). -/
def execSgt (rd rs1 rs2 : GReg) (s : State) : Host.Outcome State Fault Refusal :=
  .next (s.setGpr rd (truthWord ((s.gpr rs2).slt (s.gpr rs1)))).advance

/-- SLE, set if less or equal (R181). -/
def execSle (rd rs1 rs2 : GReg) (s : State) : Host.Outcome State Fault Refusal :=
  .next (s.setGpr rd (truthWord ((s.gpr rs1).sle (s.gpr rs2)))).advance

/-- SGE, set if greater or equal (R182). -/
def execSge (rd rs1 rs2 : GReg) (s : State) : Host.Outcome State Fault Refusal :=
  .next (s.setGpr rd (truthWord ((s.gpr rs2).sle (s.gpr rs1)))).advance

/-- SEQI, set if equal immediate (R183). -/
def execSeqi (rd rs1 : GReg) (imm : Half) (s : State) : Host.Outcome State Fault Refusal :=
  .next (s.setGpr rd (truthWord (s.gpr rs1 == signedImm imm))).advance

/-- SNEI, set if not equal immediate (R184). -/
def execSnei (rd rs1 : GReg) (imm : Half) (s : State) : Host.Outcome State Fault Refusal :=
  .next (s.setGpr rd (truthWord (s.gpr rs1 != signedImm imm))).advance

/-- SLTI, set if less immediate (R185). -/
def execSlti (rd rs1 : GReg) (imm : Half) (s : State) : Host.Outcome State Fault Refusal :=
  .next (s.setGpr rd (truthWord ((s.gpr rs1).slt (signedImm imm)))).advance

/-- SGTI, set if greater immediate (R186). -/
def execSgti (rd rs1 : GReg) (imm : Half) (s : State) : Host.Outcome State Fault Refusal :=
  .next (s.setGpr rd (truthWord ((signedImm imm).slt (s.gpr rs1)))).advance

/-- SLEI, set if less or equal immediate (R187). -/
def execSlei (rd rs1 : GReg) (imm : Half) (s : State) : Host.Outcome State Fault Refusal :=
  .next (s.setGpr rd (truthWord ((s.gpr rs1).sle (signedImm imm)))).advance

/-- SGEI, set if greater or equal immediate (R188). -/
def execSgei (rd rs1 : GReg) (imm : Half) (s : State) : Host.Outcome State Fault Refusal :=
  .next (s.setGpr rd (truthWord ((signedImm imm).sle (s.gpr rs1)))).advance

end Sys2Proof.Machine
end

