-- ==== Sys2Proof/Machine/Float.lean ====
section
/-! DEFINITION. The floating-point record (`43_floating_point.md` R200), its default, IEEE 754
binary32 and binary64 with round to nearest even (R201), and how an answer of the record reaches the
destination. Arithmetic is exact on integers and rounded once. -/

namespace Sys2Proof.Machine

/-- A binary format: the widths of the exponent and of the fraction (R201). -/
structure FPFormat where
  expBits : Nat
  fracBits : Nat
  deriving DecidableEq, Repr

/-- binary32 (R201). -/
def single : FPFormat := ⟨8, 23⟩

/-- binary64 (R201). -/
def double : FPFormat := ⟨11, 52⟩

/-- A decoded operand. A finite one is `mant * 2 ^ exp`, negated if `neg`. -/
inductive FPClass where
  | nan
  | inf (neg : Bool)
  | finite (neg : Bool) (mant : Nat) (exp : Int)
  deriving DecidableEq, Repr

/-- The exponent of the last place of the subnormal numbers: 1 - bias - fracBits. -/
def minExp (fmt : FPFormat) : Int := 2 - (2 : Int) ^ (fmt.expBits - 1) - fmt.fracBits

/-- The bits of positive infinity. -/
def infinityBits (fmt : FPFormat) : Nat := (2 ^ fmt.expBits - 1) * 2 ^ fmt.fracBits

/-- The sign bit in its place. -/
def signBits (fmt : FPFormat) (neg : Bool) : Nat :=
  if neg then 2 ^ (fmt.expBits + fmt.fracBits) else 0

/-- Sign, exponent and fraction of a bit pattern (R201). -/
def unpack (fmt : FPFormat) (bits : Nat) : FPClass :=
  let frac := bits % 2 ^ fmt.fracBits
  let e := bits / 2 ^ fmt.fracBits % 2 ^ fmt.expBits
  let neg := bits / 2 ^ (fmt.expBits + fmt.fracBits) % 2 == 1
  if e = 2 ^ fmt.expBits - 1 then (if frac = 0 then .inf neg else .nan)
  else if e = 0 then .finite neg frac (minExp fmt)
  else .finite neg (2 ^ fmt.fracBits + frac) (minExp fmt + (e - 1 : Nat))

/-- The integer nearest to `n / d`, ties to even. -/
def nearestEven (n d : Nat) : Nat :=
  let q := n / d
  let r := n % d
  if d < 2 * r ∨ (d = 2 * r ∧ q % 2 = 1) then q + 1 else q

/-- The integer part of the binary logarithm of `n / d`, both positive. -/
def floorLog2 (n d : Nat) : Int :=
  let k : Int := (n.log2 : Int) - d.log2
  if d * 2 ^ k.toNat ≤ n * 2 ^ (-k).toNat then k else k - 1

/-- The bits of `n / d * 2 ^ e`, negated if `neg`, rounded to nearest even: gradual underflow, overflow
to infinity (R201). `d` is positive. -/
def roundRatio (fmt : FPFormat) (neg : Bool) (n d : Nat) (e : Int) : Nat :=
  if n = 0 then signBits fmt neg
  else
    let q := max (floorLog2 n d + e - fmt.fracBits) (minExp fmt)
    let m := nearestEven (n * 2 ^ (e - q).toNat) (d * 2 ^ (q - e).toNat)
    signBits fmt neg + min ((q - minExp fmt).toNat * 2 ^ fmt.fracBits + m) (infinityBits fmt)

/-- A rounded value as an answer of the record. -/
def rounded (fmt : FPFormat) (w : Nat) (neg : Bool) (n d : Nat) (e : Int) : FPResult w :=
  .value (BitVec.ofNat w (roundRatio fmt neg n d e))

/-- An infinity as an answer of the record. -/
def infinite (fmt : FPFormat) (w : Nat) (neg : Bool) : FPResult w :=
  .value (BitVec.ofNat w (signBits fmt neg + infinityBits fmt))

/-- `mant * 2 ^ exp` in units of `2 ^ unit`, signed; `unit ≤ exp`. -/
def scaled (neg : Bool) (mant : Nat) (exp unit : Int) : Int :=
  let m : Int := mant * 2 ^ (exp - unit).toNat
  if neg then -m else m

/-- Addition of decoded operands (R201, R204). An exact zero is negative only if both operands are. -/
def addClass (fmt : FPFormat) (w : Nat) : FPClass → FPClass → FPResult w
  | .nan, _ => .quietNaN
  | _, .nan => .quietNaN
  | .inf s, .inf t => if s = t then infinite fmt w s else .quietNaN
  | .inf s, .finite _ _ _ => infinite fmt w s
  | .finite _ _ _, .inf t => infinite fmt w t
  | .finite s m e, .finite t n k =>
    let u := min e k
    let v := scaled s m e u + scaled t n k u
    if v = 0 then rounded fmt w (s && t) 0 1 u else rounded fmt w (decide (v < 0)) v.natAbs 1 u

/-- The operand with its sign turned. -/
def negClass : FPClass → FPClass
  | .nan => .nan
  | .inf s => .inf (!s)
  | .finite s m e => .finite (!s) m e

/-- Multiplication of decoded operands (R201, R206). -/
def mulClass (fmt : FPFormat) (w : Nat) : FPClass → FPClass → FPResult w
  | .nan, _ => .quietNaN
  | _, .nan => .quietNaN
  | .inf s, .inf t => infinite fmt w (s ^^ t)
  | .inf s, .finite t n _ => if n = 0 then .quietNaN else infinite fmt w (s ^^ t)
  | .finite s m _, .inf t => if m = 0 then .quietNaN else infinite fmt w (s ^^ t)
  | .finite s m e, .finite t n k => rounded fmt w (s ^^ t) (m * n) 1 (e + k)

/-- Division of decoded operands (R201, R207). -/
def divClass (fmt : FPFormat) (w : Nat) : FPClass → FPClass → FPResult w
  | .nan, _ => .quietNaN
  | _, .nan => .quietNaN
  | .inf _, .inf _ => .quietNaN
  | .inf s, .finite t _ _ => infinite fmt w (s ^^ t)
  | .finite s _ _, .inf t => rounded fmt w (s ^^ t) 0 1 0
  | .finite s m e, .finite t n k =>
    if n = 0 then (if m = 0 then .quietNaN else infinite fmt w (s ^^ t))
    else rounded fmt w (s ^^ t) m n (e - k)

/-- Change of format (R201, R212, R214). -/
def convertClass (fmt : FPFormat) (w : Nat) : FPClass → FPResult w
  | .nan => .quietNaN
  | .inf s => infinite fmt w s
  | .finite s m e => rounded fmt w s m 1 e

/-- Conversion to an integer, toward zero; open for a NaN and out of range (R201, R213, R215). -/
def integerClass : FPClass → FPResult 32
  | .nan => .anyBits
  | .inf _ => .anyBits
  | .finite s m e =>
    let a : Int := ((m <<< e.toNat) >>> (-e).toNat : Nat)
    let r := if s then -a else a
    if -(2 : Int) ^ 31 ≤ r ∧ r ≤ (2 : Int) ^ 31 - 1 then .value (BitVec.ofInt 32 r) else .anyBits

/-- Conversion of a two's complement integer (R201, R216, R217). -/
def ofInteger (fmt : FPFormat) (w : Nat) (v : Word) : FPResult w :=
  rounded fmt w (decide (v.toInt < 0)) v.toInt.natAbs 1 0

/-- Numeric equality (R201). -/
def eqClass : FPClass → FPClass → Bool
  | .nan, _ => false
  | _, .nan => false
  | .inf s, .inf t => s == t
  | .inf _, .finite _ _ _ => false
  | .finite _ _ _, .inf _ => false
  | .finite s m e, .finite t n k => scaled s m e (min e k) == scaled t n k (min e k)

/-- Numeric order (R201). -/
def ltClass : FPClass → FPClass → Bool
  | .nan, _ => false
  | _, .nan => false
  | .inf s, .inf t => s && !t
  | .inf s, .finite _ _ _ => s
  | .finite _ _ _, .inf t => !t
  | .finite s m e, .finite t n k => decide (scaled s m e (min e k) < scaled t n k (min e k))

/-- Numeric order or equality (R201). -/
def leClass (a b : FPClass) : Bool := ltClass a b || eqClass a b

/-- The default record (R201). -/
def ieee754Ops : FPOps where
  add32 a b := addClass single 32 (unpack single a.toNat) (unpack single b.toNat)
  sub32 a b := addClass single 32 (unpack single a.toNat) (negClass (unpack single b.toNat))
  mul32 a b := mulClass single 32 (unpack single a.toNat) (unpack single b.toNat)
  div32 a b := divClass single 32 (unpack single a.toNat) (unpack single b.toNat)
  add64 a b := addClass double 64 (unpack double a.toNat) (unpack double b.toNat)
  sub64 a b := addClass double 64 (unpack double a.toNat) (negClass (unpack double b.toNat))
  mul64 a b := mulClass double 64 (unpack double a.toNat) (unpack double b.toNat)
  div64 a b := divClass double 64 (unpack double a.toNat) (unpack double b.toNat)
  f2d a := convertClass double 64 (unpack single a.toNat)
  d2f a := convertClass single 32 (unpack double a.toNat)
  f2i a := integerClass (unpack single a.toNat)
  d2i a := integerClass (unpack double a.toNat)
  i2f v := ofInteger single 32 v
  i2d v := ofInteger double 64 v
  eq32 a b := some (eqClass (unpack single a.toNat) (unpack single b.toNat))
  lt32 a b := some (ltClass (unpack single a.toNat) (unpack single b.toNat))
  le32 a b := some (leClass (unpack single a.toNat) (unpack single b.toNat))
  eq64 a b := some (eqClass (unpack double a.toNat) (unpack double b.toNat))
  lt64 a b := some (ltClass (unpack double a.toNat) (unpack double b.toNat))
  le64 a b := some (leClass (unpack double a.toNat) (unpack double b.toNat))

/-- The record a launch has chosen (R200, R201). -/
def recordOf (r : FPRecord) : FPOps :=
  match r with
  | .ieee754 => ieee754Ops
  | .other k => Config.otherFPOps k

/-- The record of the run. -/
def State.fpOps (s : State) : FPOps := recordOf s.launch.fpOps

/-- The single-precision quiet NaN whose sign and payload the bits `b` give (R201). -/
def quietNaN32 (b : BitVec 64) : Word := b.extractLsb' 63 1 ++ 0x1FF#9 ++ b.extractLsb' 0 22

/-- The double-precision quiet NaN whose sign and payload the bits `b` give (R201). -/
def quietNaN64 (b : BitVec 64) : Dword := b.extractLsb' 63 1 ++ 0xFFF#12 ++ b.extractLsb' 0 51

/-- An answer of the record into a 32-bit register: an open value is drawn (log 6), a fault raises
`FPFault` (R200). -/
def answerToFpr (s : State) (rd : FReg) (answer : FPResult 32) : Host.Outcome State Fault Refusal :=
  match answer with
  | .value v => .next (s.setFpr rd v).advance
  | .quietNaN => .next (s.setFpr rd (quietNaN32 (Config.freeBits s.draws))).countDraw.advance
  | .anyBits =>
    .next (s.setFpr rd ((Config.freeBits s.draws).extractLsb' 0 32)).countDraw.advance
  | .fault => .fault (.fpFault s.pc)

/-- An answer of the record into an even/odd pair. -/
def answerToDpr (s : State) (rd : FReg) (answer : FPResult 64) : Host.Outcome State Fault Refusal :=
  match answer with
  | .value v => .next (s.setDpr rd v).advance
  | .quietNaN => .next (s.setDpr rd (quietNaN64 (Config.freeBits s.draws))).countDraw.advance
  | .anyBits => .next (s.setDpr rd (Config.freeBits s.draws)).countDraw.advance
  | .fault => .fault (.fpFault s.pc)

/-- `go` unless a double-precision operand is odd: the registers are checked in order (R202). -/
def withEven (s : State) (regs : List FReg) (go : Host.Outcome State Fault Refusal) :
    Host.Outcome State Fault Refusal :=
  match regs.findSome? (oddFault s) with
  | some r => .fault r
  | none => go

end Sys2Proof.Machine
end

