-- ==== Sys2Proof/Machine/FloatingPoint.lean ====
section
/-! DEFINITION. `43_floating_point.md`: the 26 floating-point instructions (R200 to R203). -/

namespace Sys2Proof.Machine

/-- ADDF, add single (R204). -/
def execAddf (rd rs1 rs2 : FReg) (s : State) : Host.Outcome State Fault Refusal :=
  answerToFpr s rd (s.fpOps.add32 (s.fpr rs1) (s.fpr rs2))

/-- SUBF, subtract single (R205). -/
def execSubf (rd rs1 rs2 : FReg) (s : State) : Host.Outcome State Fault Refusal :=
  answerToFpr s rd (s.fpOps.sub32 (s.fpr rs1) (s.fpr rs2))

/-- MULTF, multiply single (R206). -/
def execMultf (rd rs1 rs2 : FReg) (s : State) : Host.Outcome State Fault Refusal :=
  answerToFpr s rd (s.fpOps.mul32 (s.fpr rs1) (s.fpr rs2))

/-- DIVF, divide single (R207). -/
def execDivf (rd rs1 rs2 : FReg) (s : State) : Host.Outcome State Fault Refusal :=
  answerToFpr s rd (s.fpOps.div32 (s.fpr rs1) (s.fpr rs2))

/-- ADDD, add double (R208). -/
def execAddd (rd rs1 rs2 : FReg) (s : State) : Host.Outcome State Fault Refusal :=
  withEven s [rd, rs1, rs2] (answerToDpr s rd (s.fpOps.add64 (s.dpr rs1) (s.dpr rs2)))

/-- SUBD, subtract double (R209). -/
def execSubd (rd rs1 rs2 : FReg) (s : State) : Host.Outcome State Fault Refusal :=
  withEven s [rd, rs1, rs2] (answerToDpr s rd (s.fpOps.sub64 (s.dpr rs1) (s.dpr rs2)))

/-- MULTD, multiply double (R210). -/
def execMultd (rd rs1 rs2 : FReg) (s : State) : Host.Outcome State Fault Refusal :=
  withEven s [rd, rs1, rs2] (answerToDpr s rd (s.fpOps.mul64 (s.dpr rs1) (s.dpr rs2)))

/-- DIVD, divide double (R211). -/
def execDivd (rd rs1 rs2 : FReg) (s : State) : Host.Outcome State Fault Refusal :=
  withEven s [rd, rs1, rs2] (answerToDpr s rd (s.fpOps.div64 (s.dpr rs1) (s.dpr rs2)))

/-- CVTF2D, single to double (R212). -/
def execCvtf2d (rd rs1 : FReg) (s : State) : Host.Outcome State Fault Refusal :=
  withEven s [rd] (answerToDpr s rd (s.fpOps.f2d (s.fpr rs1)))

/-- CVTF2I, single to integer (R213). -/
def execCvtf2i (rd rs1 : FReg) (s : State) : Host.Outcome State Fault Refusal :=
  answerToFpr s rd (s.fpOps.f2i (s.fpr rs1))

/-- CVTD2F, double to single (R214). -/
def execCvtd2f (rd rs1 : FReg) (s : State) : Host.Outcome State Fault Refusal :=
  withEven s [rs1] (answerToFpr s rd (s.fpOps.d2f (s.dpr rs1)))

/-- CVTD2I, double to integer (R215). -/
def execCvtd2i (rd rs1 : FReg) (s : State) : Host.Outcome State Fault Refusal :=
  withEven s [rs1] (answerToFpr s rd (s.fpOps.d2i (s.dpr rs1)))

/-- CVTI2F, integer to single (R216). -/
def execCvti2f (rd rs1 : FReg) (s : State) : Host.Outcome State Fault Refusal :=
  answerToFpr s rd (s.fpOps.i2f (s.fpr rs1))

/-- CVTI2D, integer to double (R217). -/
def execCvti2d (rd rs1 : FReg) (s : State) : Host.Outcome State Fault Refusal :=
  withEven s [rd] (answerToDpr s rd (s.fpOps.i2d (s.fpr rs1)))

/-- EQF, equal single (R218). -/
def execEqf (rs1 rs2 : FReg) (s : State) : Host.Outcome State Fault Refusal :=
  compareTo s (s.fpOps.eq32 (s.fpr rs1) (s.fpr rs2))

/-- NEF, not equal single (R219). -/
def execNef (rs1 rs2 : FReg) (s : State) : Host.Outcome State Fault Refusal :=
  compareTo s ((s.fpOps.eq32 (s.fpr rs1) (s.fpr rs2)).map (!·))

/-- LTF, less single (R220). -/
def execLtf (rs1 rs2 : FReg) (s : State) : Host.Outcome State Fault Refusal :=
  compareTo s (s.fpOps.lt32 (s.fpr rs1) (s.fpr rs2))

/-- GTF, greater single (R221). -/
def execGtf (rs1 rs2 : FReg) (s : State) : Host.Outcome State Fault Refusal :=
  compareTo s (s.fpOps.lt32 (s.fpr rs2) (s.fpr rs1))

/-- LEF, less or equal single (R222). -/
def execLef (rs1 rs2 : FReg) (s : State) : Host.Outcome State Fault Refusal :=
  compareTo s (s.fpOps.le32 (s.fpr rs1) (s.fpr rs2))

/-- GEF, greater or equal single (R223). -/
def execGef (rs1 rs2 : FReg) (s : State) : Host.Outcome State Fault Refusal :=
  compareTo s (s.fpOps.le32 (s.fpr rs2) (s.fpr rs1))

/-- EQD, equal double (R224). -/
def execEqd (rs1 rs2 : FReg) (s : State) : Host.Outcome State Fault Refusal :=
  withEven s [rs1, rs2] (compareTo s (s.fpOps.eq64 (s.dpr rs1) (s.dpr rs2)))

/-- NED, not equal double (R225). -/
def execNed (rs1 rs2 : FReg) (s : State) : Host.Outcome State Fault Refusal :=
  withEven s [rs1, rs2] (compareTo s ((s.fpOps.eq64 (s.dpr rs1) (s.dpr rs2)).map (!·)))

/-- LTD, less double (R226). -/
def execLtd (rs1 rs2 : FReg) (s : State) : Host.Outcome State Fault Refusal :=
  withEven s [rs1, rs2] (compareTo s (s.fpOps.lt64 (s.dpr rs1) (s.dpr rs2)))

/-- GTD, greater double (R227). -/
def execGtd (rs1 rs2 : FReg) (s : State) : Host.Outcome State Fault Refusal :=
  withEven s [rs1, rs2] (compareTo s (s.fpOps.lt64 (s.dpr rs2) (s.dpr rs1)))

/-- LED, less or equal double (R228). -/
def execLed (rs1 rs2 : FReg) (s : State) : Host.Outcome State Fault Refusal :=
  withEven s [rs1, rs2] (compareTo s (s.fpOps.le64 (s.dpr rs1) (s.dpr rs2)))

/-- GED, greater or equal double (R229). -/
def execGed (rs1 rs2 : FReg) (s : State) : Host.Outcome State Fault Refusal :=
  withEven s [rs1, rs2] (compareTo s (s.fpOps.le64 (s.dpr rs2) (s.dpr rs1)))

end Sys2Proof.Machine
end

