-- ==== Sys2Proof/Machine/JumpBranch.lean ====
section
/-! DEFINITION. `44_jump_branch.md`: the eight branches and jumps; no delay slot (R251), no fault in
their own step (R252). -/

namespace Sys2Proof.Machine

/-- BEQZ, branch if the register is zero (R254). -/
def execBeqz (rs1 : GReg) (imm : Half) (s : State) : Host.Outcome State Fault Refusal :=
  .next (branchIf s (s.gpr rs1 == 0#32) imm)

/-- BNEZ, branch if the register is not zero (R255). -/
def execBnez (rs1 : GReg) (imm : Half) (s : State) : Host.Outcome State Fault Refusal :=
  .next (branchIf s (s.gpr rs1 != 0#32) imm)

/-- BFPT, branch if FPSR is 1 (R256). -/
def execBfpt (imm : Half) (s : State) : Host.Outcome State Fault Refusal :=
  .next (branchIf s (s.fpsr == 1#1) imm)

/-- BFPF, branch if FPSR is 0 (R257). -/
def execBfpf (imm : Half) (s : State) : Host.Outcome State Fault Refusal :=
  .next (branchIf s (s.fpsr == 0#1) imm)

/-- J, jump (R258). -/
def execJ (name : BitVec 26) (s : State) : Host.Outcome State Fault Refusal :=
  .next (s.setPc (jumpTarget s name))

/-- JAL, jump and link (R259). -/
def execJal (name : BitVec 26) (s : State) : Host.Outcome State Fault Refusal :=
  .next ((s.setGpr 31#5 s.nextPc).setPc (jumpTarget s name))

/-- JR, jump to register (R260). -/
def execJr (rs1 : GReg) (s : State) : Host.Outcome State Fault Refusal :=
  .next (s.setPc (s.gpr rs1))

/-- JALR, jump to register and link (R261). The target is read before R31 is written. -/
def execJalr (rs1 : GReg) (s : State) : Host.Outcome State Fault Refusal :=
  .next ((s.setGpr 31#5 s.nextPc).setPc (s.gpr rs1))

end Sys2Proof.Machine
end

