-- ==== Sys2Proof/Machine/LoadStore.lean ====
section
/-! DEFINITION. `40_load_store.md`: the twelve loads and stores. -/

namespace Sys2Proof.Machine

/-- LB, load byte, signed (R122). -/
def execLb (rd rs1 : GReg) (imm : Half) (s : State) : Host.Outcome State Fault Refusal :=
  let ea := effectiveAddress s rs1 imm
  raiseOr (loadFault s ea 1) (s.setGpr rd ((s.byteAt ea).signExtend 32)).advance

/-- LBU, load byte, unsigned (R123). -/
def execLbu (rd rs1 : GReg) (imm : Half) (s : State) : Host.Outcome State Fault Refusal :=
  let ea := effectiveAddress s rs1 imm
  raiseOr (loadFault s ea 1) (s.setGpr rd ((s.byteAt ea).zeroExtend 32)).advance

/-- LH, load halfword, signed (R124). -/
def execLh (rd rs1 : GReg) (imm : Half) (s : State) : Host.Outcome State Fault Refusal :=
  let ea := effectiveAddress s rs1 imm
  raiseOr (loadFault s ea 2) (s.setGpr rd ((s.halfAt ea).signExtend 32)).advance

/-- LHU, load halfword, unsigned (R125). -/
def execLhu (rd rs1 : GReg) (imm : Half) (s : State) : Host.Outcome State Fault Refusal :=
  let ea := effectiveAddress s rs1 imm
  raiseOr (loadFault s ea 2) (s.setGpr rd ((s.halfAt ea).zeroExtend 32)).advance

/-- LW, load word (R126). -/
def execLw (rd rs1 : GReg) (imm : Half) (s : State) : Host.Outcome State Fault Refusal :=
  let ea := effectiveAddress s rs1 imm
  raiseOr (loadFault s ea 4) (s.setGpr rd (s.wordAt ea)).advance

/-- LF, load single (R127). -/
def execLf (rd : FReg) (rs1 : GReg) (imm : Half) (s : State) : Host.Outcome State Fault Refusal :=
  let ea := effectiveAddress s rs1 imm
  raiseOr (loadFault s ea 4) (s.setFpr rd (s.wordAt ea)).advance

/-- LD, load double (R128). -/
def execLd (rd : FReg) (rs1 : GReg) (imm : Half) (s : State) : Host.Outcome State Fault Refusal :=
  let ea := effectiveAddress s rs1 imm
  raiseOr ((oddFault s rd).or (loadFault s ea 8)) (s.setDpr rd (s.dwordAt ea)).advance

/-- SB, store byte (R129). -/
def execSb (rd rs1 : GReg) (imm : Half) (s : State) : Host.Outcome State Fault Refusal :=
  let ea := effectiveAddress s rs1 imm
  raiseOr (storeFault s ea 1) (s.setByte ea ((s.gpr rd).extractLsb' 0 8)).advance

/-- SH, store halfword (R130). -/
def execSh (rd rs1 : GReg) (imm : Half) (s : State) : Host.Outcome State Fault Refusal :=
  let ea := effectiveAddress s rs1 imm
  raiseOr (storeFault s ea 2) (s.setHalf ea ((s.gpr rd).extractLsb' 0 16)).advance

/-- SW, store word (R131). -/
def execSw (rd rs1 : GReg) (imm : Half) (s : State) : Host.Outcome State Fault Refusal :=
  let ea := effectiveAddress s rs1 imm
  raiseOr (storeFault s ea 4) (s.setWord ea (s.gpr rd)).advance

/-- SF, store single (R132). -/
def execSf (rd : FReg) (rs1 : GReg) (imm : Half) (s : State) : Host.Outcome State Fault Refusal :=
  let ea := effectiveAddress s rs1 imm
  raiseOr (storeFault s ea 4) (s.setWord ea (s.fpr rd)).advance

/-- SD, store double (R133). -/
def execSd (rd : FReg) (rs1 : GReg) (imm : Half) (s : State) : Host.Outcome State Fault Refusal :=
  let ea := effectiveAddress s rs1 imm
  raiseOr ((oddFault s rd).or (storeFault s ea 8)) (s.setDword ea (s.dpr rd)).advance

end Sys2Proof.Machine
end

