-- ==== Sys2Proof/Machine/Move.lean ====
section
/-! DEFINITION. `41_move.md`: the six moves; bit patterns are copied without conversion (R140). -/

namespace Sys2Proof.Machine

/-- MOVI2S, general to special register (R141). The word recorded on any other number is the one
fetched at `A`. -/
def execMovi2s (rd : SReg) (rs1 : GReg) (s : State) : Host.Outcome State Fault Refusal :=
  if rd = s.launch.sreg.iar then .next (s.setIar (s.gpr rs1)).advance
  else if rd = s.launch.sreg.fpsr then .next (s.setFpsr (wordFpsr (s.gpr rs1))).advance
  else .fault (.illegalInstruction s.pc (s.wordAt s.pc))

/-- MOVS2I, special to general register (R142). The word recorded on any other number is the one
fetched at `A`. -/
def execMovs2i (rd : GReg) (rs1 : SReg) (s : State) : Host.Outcome State Fault Refusal :=
  if rs1 = s.launch.sreg.iar then .next (s.setGpr rd s.iar).advance
  else if rs1 = s.launch.sreg.fpsr then .next (s.setGpr rd (fpsrWord s.fpsr)).advance
  else .fault (.illegalInstruction s.pc (s.wordAt s.pc))

/-- MOVF, move single (R143). -/
def execMovf (rd rs1 : FReg) (s : State) : Host.Outcome State Fault Refusal :=
  .next (s.setFpr rd (s.fpr rs1)).advance

/-- MOVD, move double (R144). -/
def execMovd (rd rs1 : FReg) (s : State) : Host.Outcome State Fault Refusal :=
  raiseOr ((oddFault s rd).or (oddFault s rs1)) (s.setDpr rd (s.dpr rs1)).advance

/-- MOVFP2I, floating-point to general register (R145). -/
def execMovfp2i (rd : GReg) (rs1 : FReg) (s : State) : Host.Outcome State Fault Refusal :=
  .next (s.setGpr rd (s.fpr rs1)).advance

/-- MOVI2FP, general to floating-point register (R146). -/
def execMovi2fp (rd : FReg) (rs1 : GReg) (s : State) : Host.Outcome State Fault Refusal :=
  .next (s.setFpr rd (s.gpr rs1)).advance

end Sys2Proof.Machine
end

