-- ==== Sys2Proof/Machine/Special.lean ====
section
/-! DEFINITION. `45_special.md`: TRAP, RFE and NOP. -/

namespace Sys2Proof.Machine

/-- TRAP, trap (R270). -/
def execTrap (name : BitVec 26) (s : State) : Host.Outcome State Fault Refusal :=
  .next (enterTrap s (unsignedName name))

/-- RFE, return from exception (R271). -/
def execRfe (s : State) : Host.Outcome State Fault Refusal :=
  .next (returnFromTrap s)

/-- NOP, no operation (R272). -/
def execNop (s : State) : Host.Outcome State Fault Refusal :=
  .next s.advance

end Sys2Proof.Machine
end

