-- ==== Sys2Proof/Machine/Dispatch.lean ====
section
/-! DEFINITION. One instruction's meaning: one arm per constructor of `Instr`. -/

namespace Sys2Proof.Machine

open Sys2Proof

def exec (i : Instr) (s : State) : Host.Outcome State Fault Refusal :=
  match i with
  -- load and store
  | .lb rd rs1 imm => Sys2Proof.Machine.execLb rd rs1 imm s
  | .lbu rd rs1 imm => Sys2Proof.Machine.execLbu rd rs1 imm s
  | .lh rd rs1 imm => Sys2Proof.Machine.execLh rd rs1 imm s
  | .lhu rd rs1 imm => Sys2Proof.Machine.execLhu rd rs1 imm s
  | .lw rd rs1 imm => Sys2Proof.Machine.execLw rd rs1 imm s
  | .lf rd rs1 imm => Sys2Proof.Machine.execLf rd rs1 imm s
  | .ld rd rs1 imm => Sys2Proof.Machine.execLd rd rs1 imm s
  | .sb rd rs1 imm => Sys2Proof.Machine.execSb rd rs1 imm s
  | .sh rd rs1 imm => Sys2Proof.Machine.execSh rd rs1 imm s
  | .sw rd rs1 imm => Sys2Proof.Machine.execSw rd rs1 imm s
  | .sf rd rs1 imm => Sys2Proof.Machine.execSf rd rs1 imm s
  | .sd rd rs1 imm => Sys2Proof.Machine.execSd rd rs1 imm s
  -- move
  | .movi2s rd rs1 => Sys2Proof.Machine.execMovi2s rd rs1 s
  | .movs2i rd rs1 => Sys2Proof.Machine.execMovs2i rd rs1 s
  | .movf rd rs1 => Sys2Proof.Machine.execMovf rd rs1 s
  | .movd rd rs1 => Sys2Proof.Machine.execMovd rd rs1 s
  | .movfp2i rd rs1 => Sys2Proof.Machine.execMovfp2i rd rs1 s
  | .movi2fp rd rs1 => Sys2Proof.Machine.execMovi2fp rd rs1 s
  -- arithmetic and logical
  | .add rd rs1 rs2 => Sys2Proof.Machine.execAdd rd rs1 rs2 s
  | .addi rd rs1 imm => Sys2Proof.Machine.execAddi rd rs1 imm s
  | .addu rd rs1 rs2 => Sys2Proof.Machine.execAddu rd rs1 rs2 s
  | .addui rd rs1 imm => Sys2Proof.Machine.execAddui rd rs1 imm s
  | .sub rd rs1 rs2 => Sys2Proof.Machine.execSub rd rs1 rs2 s
  | .subi rd rs1 imm => Sys2Proof.Machine.execSubi rd rs1 imm s
  | .subu rd rs1 rs2 => Sys2Proof.Machine.execSubu rd rs1 rs2 s
  | .subui rd rs1 imm => Sys2Proof.Machine.execSubui rd rs1 imm s
  | .mult rd rs1 rs2 => Sys2Proof.Machine.execMult rd rs1 rs2 s
  | .multu rd rs1 rs2 => Sys2Proof.Machine.execMultu rd rs1 rs2 s
  | .div rd rs1 rs2 => Sys2Proof.Machine.execDiv rd rs1 rs2 s
  | .divu rd rs1 rs2 => Sys2Proof.Machine.execDivu rd rs1 rs2 s
  | .and rd rs1 rs2 => Sys2Proof.Machine.execAnd rd rs1 rs2 s
  | .andi rd rs1 imm => Sys2Proof.Machine.execAndi rd rs1 imm s
  | .or rd rs1 rs2 => Sys2Proof.Machine.execOr rd rs1 rs2 s
  | .ori rd rs1 imm => Sys2Proof.Machine.execOri rd rs1 imm s
  | .xor rd rs1 rs2 => Sys2Proof.Machine.execXor rd rs1 rs2 s
  | .xori rd rs1 imm => Sys2Proof.Machine.execXori rd rs1 imm s
  | .lhi rd imm => Sys2Proof.Machine.execLhi rd imm s
  | .sll rd rs1 rs2 => Sys2Proof.Machine.execSll rd rs1 rs2 s
  | .srl rd rs1 rs2 => Sys2Proof.Machine.execSrl rd rs1 rs2 s
  | .sra rd rs1 rs2 => Sys2Proof.Machine.execSra rd rs1 rs2 s
  | .slli rd rs1 imm => Sys2Proof.Machine.execSlli rd rs1 imm s
  | .srli rd rs1 imm => Sys2Proof.Machine.execSrli rd rs1 imm s
  | .srai rd rs1 imm => Sys2Proof.Machine.execSrai rd rs1 imm s
  | .seq rd rs1 rs2 => Sys2Proof.Machine.execSeq rd rs1 rs2 s
  | .sne rd rs1 rs2 => Sys2Proof.Machine.execSne rd rs1 rs2 s
  | .slt rd rs1 rs2 => Sys2Proof.Machine.execSlt rd rs1 rs2 s
  | .sgt rd rs1 rs2 => Sys2Proof.Machine.execSgt rd rs1 rs2 s
  | .sle rd rs1 rs2 => Sys2Proof.Machine.execSle rd rs1 rs2 s
  | .sge rd rs1 rs2 => Sys2Proof.Machine.execSge rd rs1 rs2 s
  | .seqi rd rs1 imm => Sys2Proof.Machine.execSeqi rd rs1 imm s
  | .snei rd rs1 imm => Sys2Proof.Machine.execSnei rd rs1 imm s
  | .slti rd rs1 imm => Sys2Proof.Machine.execSlti rd rs1 imm s
  | .sgti rd rs1 imm => Sys2Proof.Machine.execSgti rd rs1 imm s
  | .slei rd rs1 imm => Sys2Proof.Machine.execSlei rd rs1 imm s
  | .sgei rd rs1 imm => Sys2Proof.Machine.execSgei rd rs1 imm s
  -- floating point
  | .addf rd rs1 rs2 => Sys2Proof.Machine.execAddf rd rs1 rs2 s
  | .subf rd rs1 rs2 => Sys2Proof.Machine.execSubf rd rs1 rs2 s
  | .multf rd rs1 rs2 => Sys2Proof.Machine.execMultf rd rs1 rs2 s
  | .divf rd rs1 rs2 => Sys2Proof.Machine.execDivf rd rs1 rs2 s
  | .addd rd rs1 rs2 => Sys2Proof.Machine.execAddd rd rs1 rs2 s
  | .subd rd rs1 rs2 => Sys2Proof.Machine.execSubd rd rs1 rs2 s
  | .multd rd rs1 rs2 => Sys2Proof.Machine.execMultd rd rs1 rs2 s
  | .divd rd rs1 rs2 => Sys2Proof.Machine.execDivd rd rs1 rs2 s
  | .cvtf2d rd rs1 => Sys2Proof.Machine.execCvtf2d rd rs1 s
  | .cvtf2i rd rs1 => Sys2Proof.Machine.execCvtf2i rd rs1 s
  | .cvtd2f rd rs1 => Sys2Proof.Machine.execCvtd2f rd rs1 s
  | .cvtd2i rd rs1 => Sys2Proof.Machine.execCvtd2i rd rs1 s
  | .cvti2f rd rs1 => Sys2Proof.Machine.execCvti2f rd rs1 s
  | .cvti2d rd rs1 => Sys2Proof.Machine.execCvti2d rd rs1 s
  | .eqf rs1 rs2 => Sys2Proof.Machine.execEqf rs1 rs2 s
  | .nef rs1 rs2 => Sys2Proof.Machine.execNef rs1 rs2 s
  | .ltf rs1 rs2 => Sys2Proof.Machine.execLtf rs1 rs2 s
  | .gtf rs1 rs2 => Sys2Proof.Machine.execGtf rs1 rs2 s
  | .lef rs1 rs2 => Sys2Proof.Machine.execLef rs1 rs2 s
  | .gef rs1 rs2 => Sys2Proof.Machine.execGef rs1 rs2 s
  | .eqd rs1 rs2 => Sys2Proof.Machine.execEqd rs1 rs2 s
  | .ned rs1 rs2 => Sys2Proof.Machine.execNed rs1 rs2 s
  | .ltd rs1 rs2 => Sys2Proof.Machine.execLtd rs1 rs2 s
  | .gtd rs1 rs2 => Sys2Proof.Machine.execGtd rs1 rs2 s
  | .led rs1 rs2 => Sys2Proof.Machine.execLed rs1 rs2 s
  | .ged rs1 rs2 => Sys2Proof.Machine.execGed rs1 rs2 s
  -- jump and branch
  | .beqz rs1 imm => Sys2Proof.Machine.execBeqz rs1 imm s
  | .bnez rs1 imm => Sys2Proof.Machine.execBnez rs1 imm s
  | .bfpt imm => Sys2Proof.Machine.execBfpt imm s
  | .bfpf imm => Sys2Proof.Machine.execBfpf imm s
  | .j name => Sys2Proof.Machine.execJ name s
  | .jal name => Sys2Proof.Machine.execJal name s
  | .jr rs1 => Sys2Proof.Machine.execJr rs1 s
  | .jalr rs1 => Sys2Proof.Machine.execJalr rs1 s
  -- special
  | .trap name => Sys2Proof.Machine.execTrap name s
  | .rfe => Sys2Proof.Machine.execRfe s
  | .nop => Sys2Proof.Machine.execNop s

end Sys2Proof.Machine
end

