-- ==== Sys2Proof/Machine/Fetch.lean ====
section
/-! DEFINITION. Fetching an instruction (`20_memory.md` R58). -/

namespace Sys2Proof.Machine

/-- `Fetch(A)`: the word at `pc`, or the fault (R58). -/
def fetch (s : State) : Except Fault Word :=
  if !aligned s.pc 4 then .error (.fetchMisaligned s.pc s.pc)
  else if !mapped s.launch s.pc 4 then .error (.accessFault s.pc s.pc 4 .fetch)
  else .ok (s.wordAt s.pc)

/-- At the beginning of a step the run is over (R323). -/
def runOver (s : State) : Bool := s.pc == s.launch.endPc

/-- The address at which the next instruction is placed for `State.withFetchWord`: `pc`, its low two
bits cleared, since nothing can be fetched from another address. -/
def fetchSlot (s : State) : Word := s.pc &&& 0xFFFFFFFC#32

/-- The launch parameters under which the four bytes at `a` can be fetched and decode by the default
numbers: `a` in `MEM_MAP` and not `END_PC`. -/
def launchFetching (l : Launch) (a : Word) : Launch :=
  { l with
    opc := .standard
    memMap := if mapped l a 4 then l.memMap else ⟨a.toNat, 4⟩ :: l.memMap
    endPc := if l.endPc = a then a + 4#32 else l.endPc }

end Sys2Proof.Machine
end

