-- ==== Sys2Proof/Machine/Step.lean ====
section
/-! DEFINITION. One step: the instruction cycle (`10_state.md` R34). -/

namespace Sys2Proof.Machine

/-- The instruction cycle (R34): nothing more happens once the run is over (R323; log 8); else fetch,
decode and execute, each of which may fault. -/
def step (s : State) : Host.Outcome State Fault Refusal :=
  if runOver s then .next s
  else
    match fetch s with
    | .error r => .fault r
    | .ok word =>
      match decodeUnder s.launch.opc word with
      | .error _ => .fault (.illegalInstruction s.pc word)
      | .ok i => exec i s

/-- `s` with the instruction whose `nbits` bits are `w` stored where `step` fetches next; it changes
`pc`, `MEM_MAP`, `END_PC` and `OPC` only where the instruction could not be fetched or decoded otherwise. It stands for the load of
a program from outside the machine (R306; log 9). -/
def State.withFetchWord (s : State) (nbits w : Nat) : State :=
  let a := fetchSlot s
  { s.setWord a (BitVec.ofNat 32 (w % 2 ^ nbits)) with
    pc := a
    launch := launchFetching s.launch a }

end Sys2Proof.Machine
end

