-- ==== Sys2Proof/Assembly.lean ====
section
/-! DEFINITION. Assembler text (`30_encoding.md` R102 to R108): the operands of each instruction in the
order of its line, the line itself, and the displacement that stands for a label. The machine does not
use it. -/

namespace Sys2Proof

/-- An operand as an assembler line writes it (R102 to R107). -/
inductive AsmOperand where
  | gpr (r : GReg)
  | fpr (r : FReg)
  /-- A special register, `iar` or `fpsr` (R107). -/
  | special (n : SReg)
  /-- An immediate, in decimal with an optional minus sign (R102). -/
  | number (v : Int)
  /-- A displacement and its base register, as in `6(r2)` (R103). -/
  | memory (displacement : Int) (base : GReg)
  deriving DecidableEq, Repr

/-- The operands of the line, in order: the destination first, but the address of a store first and its
data register second (R103 to R107). A branch or jump shows its displacement in place of the label. -/
def Instr.asmOperands : Instr → List AsmOperand
  | .lb rd rs1 imm => [.gpr rd, .memory imm.toInt rs1]
  | .lbu rd rs1 imm => [.gpr rd, .memory imm.toInt rs1]
  | .lh rd rs1 imm => [.gpr rd, .memory imm.toInt rs1]
  | .lhu rd rs1 imm => [.gpr rd, .memory imm.toInt rs1]
  | .lw rd rs1 imm => [.gpr rd, .memory imm.toInt rs1]
  | .lf rd rs1 imm => [.fpr rd, .memory imm.toInt rs1]
  | .ld rd rs1 imm => [.fpr rd, .memory imm.toInt rs1]
  | .sb rd rs1 imm => [.memory imm.toInt rs1, .gpr rd]
  | .sh rd rs1 imm => [.memory imm.toInt rs1, .gpr rd]
  | .sw rd rs1 imm => [.memory imm.toInt rs1, .gpr rd]
  | .sf rd rs1 imm => [.memory imm.toInt rs1, .fpr rd]
  | .sd rd rs1 imm => [.memory imm.toInt rs1, .fpr rd]
  | .movi2s rd rs1 => [.special rd, .gpr rs1]
  | .movs2i rd rs1 => [.gpr rd, .special rs1]
  | .movf rd rs1 => [.fpr rd, .fpr rs1]
  | .movd rd rs1 => [.fpr rd, .fpr rs1]
  | .movfp2i rd rs1 => [.gpr rd, .fpr rs1]
  | .movi2fp rd rs1 => [.fpr rd, .gpr rs1]
  | .add rd rs1 rs2 => [.gpr rd, .gpr rs1, .gpr rs2]
  | .addi rd rs1 imm => [.gpr rd, .gpr rs1, .number imm.toInt]
  | .addu rd rs1 rs2 => [.gpr rd, .gpr rs1, .gpr rs2]
  | .addui rd rs1 imm => [.gpr rd, .gpr rs1, .number imm.toNat]
  | .sub rd rs1 rs2 => [.gpr rd, .gpr rs1, .gpr rs2]
  | .subi rd rs1 imm => [.gpr rd, .gpr rs1, .number imm.toInt]
  | .subu rd rs1 rs2 => [.gpr rd, .gpr rs1, .gpr rs2]
  | .subui rd rs1 imm => [.gpr rd, .gpr rs1, .number imm.toNat]
  | .mult rd rs1 rs2 => [.fpr rd, .fpr rs1, .fpr rs2]
  | .multu rd rs1 rs2 => [.fpr rd, .fpr rs1, .fpr rs2]
  | .div rd rs1 rs2 => [.fpr rd, .fpr rs1, .fpr rs2]
  | .divu rd rs1 rs2 => [.fpr rd, .fpr rs1, .fpr rs2]
  | .and rd rs1 rs2 => [.gpr rd, .gpr rs1, .gpr rs2]
  | .andi rd rs1 imm => [.gpr rd, .gpr rs1, .number imm.toNat]
  | .or rd rs1 rs2 => [.gpr rd, .gpr rs1, .gpr rs2]
  | .ori rd rs1 imm => [.gpr rd, .gpr rs1, .number imm.toNat]
  | .xor rd rs1 rs2 => [.gpr rd, .gpr rs1, .gpr rs2]
  | .xori rd rs1 imm => [.gpr rd, .gpr rs1, .number imm.toNat]
  | .lhi rd imm => [.gpr rd, .number imm.toNat]
  | .sll rd rs1 rs2 => [.gpr rd, .gpr rs1, .gpr rs2]
  | .srl rd rs1 rs2 => [.gpr rd, .gpr rs1, .gpr rs2]
  | .sra rd rs1 rs2 => [.gpr rd, .gpr rs1, .gpr rs2]
  | .slli rd rs1 imm => [.gpr rd, .gpr rs1, .number imm.toNat]
  | .srli rd rs1 imm => [.gpr rd, .gpr rs1, .number imm.toNat]
  | .srai rd rs1 imm => [.gpr rd, .gpr rs1, .number imm.toNat]
  | .seq rd rs1 rs2 => [.gpr rd, .gpr rs1, .gpr rs2]
  | .sne rd rs1 rs2 => [.gpr rd, .gpr rs1, .gpr rs2]
  | .slt rd rs1 rs2 => [.gpr rd, .gpr rs1, .gpr rs2]
  | .sgt rd rs1 rs2 => [.gpr rd, .gpr rs1, .gpr rs2]
  | .sle rd rs1 rs2 => [.gpr rd, .gpr rs1, .gpr rs2]
  | .sge rd rs1 rs2 => [.gpr rd, .gpr rs1, .gpr rs2]
  | .seqi rd rs1 imm => [.gpr rd, .gpr rs1, .number imm.toInt]
  | .snei rd rs1 imm => [.gpr rd, .gpr rs1, .number imm.toInt]
  | .slti rd rs1 imm => [.gpr rd, .gpr rs1, .number imm.toInt]
  | .sgti rd rs1 imm => [.gpr rd, .gpr rs1, .number imm.toInt]
  | .slei rd rs1 imm => [.gpr rd, .gpr rs1, .number imm.toInt]
  | .sgei rd rs1 imm => [.gpr rd, .gpr rs1, .number imm.toInt]
  | .addf rd rs1 rs2 => [.fpr rd, .fpr rs1, .fpr rs2]
  | .subf rd rs1 rs2 => [.fpr rd, .fpr rs1, .fpr rs2]
  | .multf rd rs1 rs2 => [.fpr rd, .fpr rs1, .fpr rs2]
  | .divf rd rs1 rs2 => [.fpr rd, .fpr rs1, .fpr rs2]
  | .addd rd rs1 rs2 => [.fpr rd, .fpr rs1, .fpr rs2]
  | .subd rd rs1 rs2 => [.fpr rd, .fpr rs1, .fpr rs2]
  | .multd rd rs1 rs2 => [.fpr rd, .fpr rs1, .fpr rs2]
  | .divd rd rs1 rs2 => [.fpr rd, .fpr rs1, .fpr rs2]
  | .cvtf2d rd rs1 => [.fpr rd, .fpr rs1]
  | .cvtf2i rd rs1 => [.fpr rd, .fpr rs1]
  | .cvtd2f rd rs1 => [.fpr rd, .fpr rs1]
  | .cvtd2i rd rs1 => [.fpr rd, .fpr rs1]
  | .cvti2f rd rs1 => [.fpr rd, .fpr rs1]
  | .cvti2d rd rs1 => [.fpr rd, .fpr rs1]
  | .eqf rs1 rs2 => [.fpr rs1, .fpr rs2]
  | .nef rs1 rs2 => [.fpr rs1, .fpr rs2]
  | .ltf rs1 rs2 => [.fpr rs1, .fpr rs2]
  | .gtf rs1 rs2 => [.fpr rs1, .fpr rs2]
  | .lef rs1 rs2 => [.fpr rs1, .fpr rs2]
  | .gef rs1 rs2 => [.fpr rs1, .fpr rs2]
  | .eqd rs1 rs2 => [.fpr rs1, .fpr rs2]
  | .ned rs1 rs2 => [.fpr rs1, .fpr rs2]
  | .ltd rs1 rs2 => [.fpr rs1, .fpr rs2]
  | .gtd rs1 rs2 => [.fpr rs1, .fpr rs2]
  | .led rs1 rs2 => [.fpr rs1, .fpr rs2]
  | .ged rs1 rs2 => [.fpr rs1, .fpr rs2]
  | .beqz rs1 imm => [.gpr rs1, .number imm.toInt]
  | .bnez rs1 imm => [.gpr rs1, .number imm.toInt]
  | .bfpt imm => [.number imm.toInt]
  | .bfpf imm => [.number imm.toInt]
  | .j name => [.number name.toInt]
  | .jal name => [.number name.toInt]
  | .jr rs1 => [.gpr rs1]
  | .jalr rs1 => [.gpr rs1]
  | .trap name => [.number name.toNat]
  | .rfe => []
  | .nop => []

/-- An operand as text; a special-register number that names none is written as a number. -/
def AsmOperand.text (sr : SRegNumbers) : AsmOperand → String
  | .gpr r => "r" ++ toString r.toNat
  | .fpr r => "f" ++ toString r.toNat
  | .special n =>
    if n = sr.iar then "iar" else if n = sr.fpsr then "fpsr" else toString n.toNat
  | .number v => toString v
  | .memory d base => toString d ++ "(r" ++ toString base.toNat ++ ")"

/-- The line of an instruction: the mnemonic in lower case, the operands separated by commas (R102). -/
def Instr.asmLine (sr : SRegNumbers) (i : Instr) : String :=
  match i.asmOperands.map (AsmOperand.text sr) with
  | [] => i.mnemonic.toLower
  | operands => i.mnemonic.toLower ++ " " ++ ", ".intercalate operands

/-- The displacement that the assembler writes for a label at `label` in an instruction at `a`,
`T - (A + 4)`, where it fits in `bits` signed bits (R105). DEDUCED, safe: R105 does not say whether the
difference is exact; it is taken modulo 2^32, as R9 takes all arithmetic on words and R250 the sum that
undoes it, so that a label past the top of the address space has a displacement too. Log 15. -/
def labelDisplacement (bits : Nat) (a label : Word) : Option (BitVec bits) :=
  let d : Int := (label - (a + 4#32)).toInt
  if -(2 : Int) ^ (bits - 1) ≤ d ∧ d < (2 : Int) ^ (bits - 1) then some (BitVec.ofInt bits d) else none

end Sys2Proof
end

