-- ==== Sys2Proof/WellFormed.lean ====
section
/-! DEFINITION. The static checks of an instruction. Widths are carried by the types (R85, R82 to
R84); what is left is that a double-precision operand is an even register number (R26, R202) and that
the special-register number of MOVI2S and MOVS2I names IAR or FPSR (R141, R142). Every instruction
decodes and has a meaning whether well formed or not: an ill-formed one raises `OddFPRegister` or
`IllegalInstruction`. -/

namespace Sys2Proof

/-- The registers in the double-precision operand positions, in the order `rd`, `rs1`, `rs2` in which
they are checked (R202). -/
def Instr.doubleOperands : Instr → List FReg
  | .lb _ _ _ => []
  | .lbu _ _ _ => []
  | .lh _ _ _ => []
  | .lhu _ _ _ => []
  | .lw _ _ _ => []
  | .lf _ _ _ => []
  | .ld rd _ _ => [rd]
  | .sb _ _ _ => []
  | .sh _ _ _ => []
  | .sw _ _ _ => []
  | .sf _ _ _ => []
  | .sd rd _ _ => [rd]
  | .movi2s _ _ => []
  | .movs2i _ _ => []
  | .movf _ _ => []
  | .movd rd rs1 => [rd, rs1]
  | .movfp2i _ _ => []
  | .movi2fp _ _ => []
  | .add _ _ _ => []
  | .addi _ _ _ => []
  | .addu _ _ _ => []
  | .addui _ _ _ => []
  | .sub _ _ _ => []
  | .subi _ _ _ => []
  | .subu _ _ _ => []
  | .subui _ _ _ => []
  | .mult _ _ _ => []
  | .multu _ _ _ => []
  | .div _ _ _ => []
  | .divu _ _ _ => []
  | .and _ _ _ => []
  | .andi _ _ _ => []
  | .or _ _ _ => []
  | .ori _ _ _ => []
  | .xor _ _ _ => []
  | .xori _ _ _ => []
  | .lhi _ _ => []
  | .sll _ _ _ => []
  | .srl _ _ _ => []
  | .sra _ _ _ => []
  | .slli _ _ _ => []
  | .srli _ _ _ => []
  | .srai _ _ _ => []
  | .seq _ _ _ => []
  | .sne _ _ _ => []
  | .slt _ _ _ => []
  | .sgt _ _ _ => []
  | .sle _ _ _ => []
  | .sge _ _ _ => []
  | .seqi _ _ _ => []
  | .snei _ _ _ => []
  | .slti _ _ _ => []
  | .sgti _ _ _ => []
  | .slei _ _ _ => []
  | .sgei _ _ _ => []
  | .addf _ _ _ => []
  | .subf _ _ _ => []
  | .multf _ _ _ => []
  | .divf _ _ _ => []
  | .addd rd rs1 rs2 => [rd, rs1, rs2]
  | .subd rd rs1 rs2 => [rd, rs1, rs2]
  | .multd rd rs1 rs2 => [rd, rs1, rs2]
  | .divd rd rs1 rs2 => [rd, rs1, rs2]
  | .cvtf2d rd _ => [rd]
  | .cvtf2i _ _ => []
  | .cvtd2f _ rs1 => [rs1]
  | .cvtd2i _ rs1 => [rs1]
  | .cvti2f _ _ => []
  | .cvti2d rd _ => [rd]
  | .eqf _ _ => []
  | .nef _ _ => []
  | .ltf _ _ => []
  | .gtf _ _ => []
  | .lef _ _ => []
  | .gef _ _ => []
  | .eqd rs1 rs2 => [rs1, rs2]
  | .ned rs1 rs2 => [rs1, rs2]
  | .ltd rs1 rs2 => [rs1, rs2]
  | .gtd rs1 rs2 => [rs1, rs2]
  | .led rs1 rs2 => [rs1, rs2]
  | .ged rs1 rs2 => [rs1, rs2]
  | .beqz _ _ => []
  | .bnez _ _ => []
  | .bfpt _ => []
  | .bfpf _ => []
  | .j _ => []
  | .jal _ => []
  | .jr _ => []
  | .jalr _ => []
  | .trap _ => []
  | .rfe => []
  | .nop => []

/-- The special-register number an instruction names (R141, R142). -/
def Instr.specialOperand : Instr → Option SReg
  | .lb _ _ _ => none
  | .lbu _ _ _ => none
  | .lh _ _ _ => none
  | .lhu _ _ _ => none
  | .lw _ _ _ => none
  | .lf _ _ _ => none
  | .ld _ _ _ => none
  | .sb _ _ _ => none
  | .sh _ _ _ => none
  | .sw _ _ _ => none
  | .sf _ _ _ => none
  | .sd _ _ _ => none
  | .movi2s rd _ => some rd
  | .movs2i _ rs1 => some rs1
  | .movf _ _ => none
  | .movd _ _ => none
  | .movfp2i _ _ => none
  | .movi2fp _ _ => none
  | .add _ _ _ => none
  | .addi _ _ _ => none
  | .addu _ _ _ => none
  | .addui _ _ _ => none
  | .sub _ _ _ => none
  | .subi _ _ _ => none
  | .subu _ _ _ => none
  | .subui _ _ _ => none
  | .mult _ _ _ => none
  | .multu _ _ _ => none
  | .div _ _ _ => none
  | .divu _ _ _ => none
  | .and _ _ _ => none
  | .andi _ _ _ => none
  | .or _ _ _ => none
  | .ori _ _ _ => none
  | .xor _ _ _ => none
  | .xori _ _ _ => none
  | .lhi _ _ => none
  | .sll _ _ _ => none
  | .srl _ _ _ => none
  | .sra _ _ _ => none
  | .slli _ _ _ => none
  | .srli _ _ _ => none
  | .srai _ _ _ => none
  | .seq _ _ _ => none
  | .sne _ _ _ => none
  | .slt _ _ _ => none
  | .sgt _ _ _ => none
  | .sle _ _ _ => none
  | .sge _ _ _ => none
  | .seqi _ _ _ => none
  | .snei _ _ _ => none
  | .slti _ _ _ => none
  | .sgti _ _ _ => none
  | .slei _ _ _ => none
  | .sgei _ _ _ => none
  | .addf _ _ _ => none
  | .subf _ _ _ => none
  | .multf _ _ _ => none
  | .divf _ _ _ => none
  | .addd _ _ _ => none
  | .subd _ _ _ => none
  | .multd _ _ _ => none
  | .divd _ _ _ => none
  | .cvtf2d _ _ => none
  | .cvtf2i _ _ => none
  | .cvtd2f _ _ => none
  | .cvtd2i _ _ => none
  | .cvti2f _ _ => none
  | .cvti2d _ _ => none
  | .eqf _ _ => none
  | .nef _ _ => none
  | .ltf _ _ => none
  | .gtf _ _ => none
  | .lef _ _ => none
  | .gef _ _ => none
  | .eqd _ _ => none
  | .ned _ _ => none
  | .ltd _ _ => none
  | .gtd _ _ => none
  | .led _ _ => none
  | .ged _ _ => none
  | .beqz _ _ => none
  | .bnez _ _ => none
  | .bfpt _ => none
  | .bfpf _ => none
  | .j _ => none
  | .jal _ => none
  | .jr _ => none
  | .jalr _ => none
  | .trap _ => none
  | .rfe => none
  | .nop => none

/-- A register number that may stand in a double-precision position (R26). -/
def evenReg (r : FReg) : Bool := !r.getLsbD 0

/-- A number that names IAR or FPSR under the numbering `sr` (R141, R142). -/
def namesSpecial (sr : SRegNumbers) (n : SReg) : Bool := n == sr.iar || n == sr.fpsr

/-- The instruction passes both checks under the special-register numbering `sr`. -/
def Instr.wellFormed (sr : SRegNumbers) (i : Instr) : Bool :=
  i.doubleOperands.all evenReg && i.specialOperand.all (namesSpecial sr)

end Sys2Proof
end

