-- ==== Sys2Proof/Safety.lean ====
section
/-! DEFINITION. The terms in which claims speak: what a next state changes and keeps, when an access is
admitted, which instruction may raise which fault, what a run is. -/

namespace Sys2Proof.Machine

/-! What a step keeps. -/

/-- Every general register reads as before. -/
def SameGprs (s t : State) : Prop := ∀ r : GReg, t.gpr r = s.gpr r

/-- Every floating-point register reads as before. -/
def SameFprs (s t : State) : Prop := ∀ r : FReg, t.fpr r = s.fpr r

/-- IAR and FPSR are as before. -/
def SameSpecials (s t : State) : Prop := t.iar = s.iar ∧ t.fpsr = s.fpsr

/-- Every byte of memory reads as before. -/
def SameMemory (s t : State) : Prop := ∀ a : Word, t.byteAt a = s.byteAt a

/-- The launch parameters are as before and `d` open values have been drawn. -/
def SameRun (s t : State) (d : Nat) : Prop := t.launch = s.launch ∧ t.draws = s.draws + d

/-- Nothing but `pc` may have changed. -/
def KeepsAll (s t : State) : Prop :=
  SameGprs s t ∧ SameFprs s t ∧ SameSpecials s t ∧ SameMemory s t ∧ SameRun s t 0

/-- `x[rd]` has become `v` (zero if `rd` is R0, R22); nothing else but `pc` may have changed. -/
def WritesGpr (s t : State) (rd : GReg) (v : Word) : Prop :=
  t.gpr rd = (if rd = 0#5 then 0#32 else v) ∧ (∀ r : GReg, r ≠ rd → t.gpr r = s.gpr r) ∧
    SameFprs s t ∧ SameSpecials s t ∧ SameMemory s t ∧ SameRun s t 0

/-- `f[rd]` has become `v`, with `d` open values drawn; nothing else but `pc` may have changed. -/
def WritesFpr (s t : State) (rd : FReg) (v : Word) (d : Nat) : Prop :=
  t.fpr rd = v ∧ (∀ r : FReg, r ≠ rd → t.fpr r = s.fpr r) ∧
    SameGprs s t ∧ SameSpecials s t ∧ SameMemory s t ∧ SameRun s t d

/-- The pair `f[rd]`, `f[rd + 1]` has become `v`, the more significant half in `f[rd]` (R26), with `d`
open values drawn; nothing else but `pc` may have changed. -/
def WritesDpr (s t : State) (rd : FReg) (v : Dword) (d : Nat) : Prop :=
  t.fpr rd = v.extractLsb' 32 32 ∧ t.fpr (rd + 1#5) = v.extractLsb' 0 32 ∧
    (∀ r : FReg, r ≠ rd → r ≠ rd + 1#5 → t.fpr r = s.fpr r) ∧
    SameGprs s t ∧ SameSpecials s t ∧ SameMemory s t ∧ SameRun s t d

/-- FPSR has become `b`; nothing else but `pc` may have changed. -/
def WritesFpsr (s t : State) (b : BitVec 1) : Prop :=
  t.fpsr = b ∧ t.iar = s.iar ∧ SameGprs s t ∧ SameFprs s t ∧ SameMemory s t ∧ SameRun s t 0

/-- IAR has become `v`; nothing else but `pc` may have changed. -/
def WritesIar (s t : State) (v : Word) : Prop :=
  t.iar = v ∧ t.fpsr = s.fpsr ∧ SameGprs s t ∧ SameFprs s t ∧ SameMemory s t ∧ SameRun s t 0

/-- The bytes at `a`, `a + 1`, … have become `vs`, every other byte reads as before; nothing else but
`pc` may have changed. -/
def WritesBytes (s t : State) (a : Word) (vs : List Byte) : Prop :=
  (∀ k : Nat, k < vs.length → vs[k]? = some (t.byteAt (a + BitVec.ofNat 32 k))) ∧
    (∀ b : Word, (∀ k : Nat, k < vs.length → b ≠ a + BitVec.ofNat 32 k) → t.byteAt b = s.byteAt b) ∧
    SameGprs s t ∧ SameFprs s t ∧ SameSpecials s t ∧ SameRun s t 0

/-! What a step answers. -/

/-- The outcome is a next state of which `P` holds. -/
def Completes (o : Host.Outcome State Fault Refusal) (P : State → Prop) : Prop :=
  ∃ t, o = .next t ∧ P t

/-- A quiet NaN of single precision: exponent and first fraction bit all ones (R201). -/
def QuietNaN32 (v : Word) : Prop := v.extractLsb' 22 9 = 0x1FF#9

/-- A quiet NaN of double precision (R201). -/
def QuietNaN64 (v : Dword) : Prop := v.extractLsb' 51 12 = 0xFFF#12

/-- The instruction at `s` does with the answer of a floating-point record what R200 and R201 say: a
value goes to `f[rd]`, an open one is any quiet NaN or any word, a fault raises `FPFault`. -/
def AnswersFpr (s : State) (o : Host.Outcome State Fault Refusal) (rd : FReg) : FPResult 32 → Prop
  | .value v => Completes o fun t => WritesFpr s t rd v 0 ∧ t.pc = s.pc + 4#32
  | .quietNaN => Completes o fun t =>
      ∃ v, QuietNaN32 v ∧ WritesFpr s t rd v 1 ∧ t.pc = s.pc + 4#32
  | .anyBits => Completes o fun t => ∃ v, WritesFpr s t rd v 1 ∧ t.pc = s.pc + 4#32
  | .fault => o = .fault (.fpFault s.pc)

/-- The same for an even/odd pair. -/
def AnswersDpr (s : State) (o : Host.Outcome State Fault Refusal) (rd : FReg) : FPResult 64 → Prop
  | .value v => Completes o fun t => WritesDpr s t rd v 0 ∧ t.pc = s.pc + 4#32
  | .quietNaN => Completes o fun t =>
      ∃ v, QuietNaN64 v ∧ WritesDpr s t rd v 1 ∧ t.pc = s.pc + 4#32
  | .anyBits => Completes o fun t => ∃ v, WritesDpr s t rd v 1 ∧ t.pc = s.pc + 4#32
  | .fault => o = .fault (.fpFault s.pc)

/-- The same for a comparison: FPSR becomes 1 where the relation holds and 0 where it does not. -/
def AnswersFpsr (s : State) (o : Host.Outcome State Fault Refusal) : Option Bool → Prop
  | some b => Completes o fun t =>
      WritesFpsr s t (if b then 1#1 else 0#1) ∧ t.pc = s.pc + 4#32
  | none => o = .fault (.fpFault s.pc)

/-- An exact signed result that fits 32 bits (R151). -/
abbrev Fits (r : Int) : Prop := -(2 : Int) ^ 31 ≤ r ∧ r ≤ (2 : Int) ^ 31 - 1

/-! What the default floating-point record computes (R201), in exact numbers. -/

/-- The number of a finite single-precision pattern, from its sign, exponent and fraction (R201). -/
def singleValue (a : Word) : Option ℚ :=
  let sign : ℚ := if a.getLsbD 31 then -1 else 1
  let e := (a.extractLsb' 23 8).toNat
  let frac := (a.extractLsb' 0 23).toNat
  if e = 255 then none
  else if e = 0 then some (sign * frac * 2 ^ (-149 : ℤ))
  else some (sign * (2 ^ 23 + frac) * 2 ^ ((e : ℤ) - 150))

/-- The number of a finite double-precision pattern (R201). -/
def doubleValue (a : Dword) : Option ℚ :=
  let sign : ℚ := if a.getLsbD 63 then -1 else 1
  let e := (a.extractLsb' 52 11).toNat
  let frac := (a.extractLsb' 0 52).toNat
  if e = 2047 then none
  else if e = 0 then some (sign * frac * 2 ^ (-1074 : ℤ))
  else some (sign * (2 ^ 52 + frac) * 2 ^ ((e : ℤ) - 1075))

/-- The zero of the given sign. -/
def zeroPattern (w : Nat) (neg : Bool) : BitVec w := if neg then BitVec.intMin w else 0#w

/-- The four operations are exact where they can be: on finite operands, a result other than zero that
some pattern holds is that pattern, and a zero result is the zero of the sign that IEEE 754 gives it
(R201). -/
def ExactArithmetic {w : Nat} (value : BitVec w → Option ℚ)
    (add sub mul div : BitVec w → BitVec w → FPResult w) : Prop :=
  ∀ (a b : BitVec w) (x y : ℚ), value a = some x → value b = some y →
    (∀ (c : BitVec w) (z : ℚ), value c = some z → z ≠ 0 →
      (x + y = z → add a b = .value c) ∧ (x - y = z → sub a b = .value c) ∧
      (x * y = z → mul a b = .value c) ∧ (y ≠ 0 → x / y = z → div a b = .value c)) ∧
    (x + y = 0 → add a b = .value (zeroPattern w (a.msb && b.msb))) ∧
    (x - y = 0 → sub a b = .value (zeroPattern w (a.msb && !b.msb))) ∧
    (x * y = 0 → mul a b = .value (zeroPattern w (a.msb ^^ b.msb))) ∧
    (y ≠ 0 → x = 0 → div a b = .value (zeroPattern w (a.msb ^^ b.msb)))

/-- A conversion to an integer rounds toward zero; out of range its result is open (R201). -/
def TruncatesTo (x : ℚ) (answer : FPResult 32) : Prop :=
  answer = if Fits (if x < 0 then ⌈x⌉ else ⌊x⌋) then .value (BitVec.ofInt 32 (if x < 0 then ⌈x⌉ else ⌊x⌋))
    else .anyBits

/-! When an access is admitted (R52, R57, R68). -/

/-- The access of `n` bytes at `a` is aligned and every byte of it is in `MEM_MAP`. -/
abbrev Accessible (s : State) (a : Word) (n : Nat) : Prop :=
  a.toNat % n = 0 ∧ ∀ k : Nat, k < n → inRegions s.launch.memMap (a + BitVec.ofNat 32 k) = true

/-- The address is in `TEXT`. -/
abbrev InText (s : State) (a : Word) : Prop := inRegions s.launch.text a = true

/-- A store of `n` bytes at `a` is admitted. -/
abbrev Storable (s : State) (a : Word) (n : Nat) : Prop :=
  Accessible s a n ∧
    (s.launch.smc = .coherent ∨ ∀ k : Nat, k < n → ¬ InText s (a + BitVec.ofNat 32 k))

/-- A register number of a double-precision operand (R26). -/
abbrev EvenReg (r : FReg) : Prop := r.toNat % 2 = 0

/-! Which instruction may do what (R28, R29, R32, R282). -/

/-- The instruction's mnemonic is in the list. -/
def oneOf (names : List String) (i : Instr) : Bool := names.contains i.mnemonic

/-- The loads (R122 to R128). -/
def loadNames : List String := ["LB", "LBU", "LH", "LHU", "LW", "LF", "LD"]

/-- The stores (R129 to R133). -/
def storeNames : List String := ["SB", "SH", "SW", "SF", "SD"]

/-- The twelve floating-point comparisons (R218 to R229). -/
def compareNames : List String :=
  ["EQF", "NEF", "LTF", "GTF", "LEF", "GEF", "EQD", "NED", "LTD", "GTD", "LED", "GED"]

/-- The instructions that transfer control (R32). -/
def transferNames : List String :=
  ["BEQZ", "BNEZ", "BFPT", "BFPF", "J", "JAL", "JR", "JALR", "TRAP", "RFE"]

/-- The column "raised by" of R282 for the faults that an executing instruction can raise. -/
def raisers : Fault → List String
  | .fetchMisaligned _ _ => []
  | .accessFault _ _ _ .fetch => []
  | .accessFault _ _ _ .load => loadNames
  | .accessFault _ _ _ .store => storeNames
  | .illegalInstruction _ _ => ["MOVI2S", "MOVS2I"]
  | .oddFPRegister _ _ =>
    ["LD", "SD", "MOVD", "ADDD", "SUBD", "MULTD", "DIVD", "CVTF2D", "CVTD2F", "CVTD2I", "CVTI2D",
      "EQD", "NED", "LTD", "GTD", "LED", "GED"]
  | .dataMisaligned _ _ _ => ["LH", "LHU", "LW", "LF", "LD", "SH", "SW", "SF", "SD"]
  | .storeToText _ _ => storeNames
  | .integerOverflow _ => ["ADD", "ADDI", "SUB", "SUBI", "MULT", "DIV"]
  | .divideByZero _ => ["DIV", "DIVU"]
  | .fpFault _ =>
    ["ADDF", "SUBF", "MULTF", "DIVF", "ADDD", "SUBD", "MULTD", "DIVD", "CVTF2D", "CVTF2I", "CVTD2F",
      "CVTD2I", "CVTI2F", "CVTI2D"] ++ compareNames

/-! Invariants and runs. -/

/-- What holds of every state of a run: memory is in its canonical form and slot 0 of the general
registers, which nothing reads, is zero. -/
abbrev Inv (s : State) : Prop := s.mem.wf = true ∧ s.x[0] = 0#32

/-- `t` is reached from `s` in `k` steps without a fault. -/
def ReachesIn (k : Nat) (s t : State) : Prop := Host.Core.run Sys2Proof.core k s = .next t

/-- The run from `s` ends successfully: some number of steps reaches `END_PC` (R323). -/
def Ends (s : State) : Prop := ∃ k t, ReachesIn k s t ∧ runOver t = true

/-- A safe run: no number of steps faults (R281). -/
def SafeRun (s : State) : Prop := ∀ k, ∃ t, ReachesIn k s t

end Sys2Proof.Machine
end

