-- ==== Sys2Proof/Certificates/Slice0/Obligations.lean ====
section
/-! DEFINITION. The statements for the provers, in the order of the spec: encoding, the cycle, each class
of instructions, the rules of the whole machine. `OBLIGATIONS.json` lists them. -/

open Sys2Proof Sys2Proof.Machine

/-! Encoding (`30_encoding.md`). -/

/-- Decode and encode agree on every instruction, with every operand at every value. -/
def Obligations.DecodeOfEncodeIsTheInstruction : Prop :=
  ∀ i : Instr, decode (encode i) = .ok i

/-- Encoding what a word decodes to gives the word back, its unused fields cleared: decoding drops no
bit of a used field. -/
def Obligations.EncodeOfDecodeClearsUnusedFields : Prop :=
  ∀ (w : Word) (i : Instr), decode w = .ok i → encode i = w &&& ~~~(unusedBits i)

/-- Every word selects exactly the instruction whose match and mask pair of the opcode table it meets,
and no instruction when it meets none. -/
def Obligations.DecodeAgreesWithOpcodeTable : Prop :=
  ∀ w : Word,
    (opcodeRows.filter fun r => w &&& r.mask == r.pattern).map (·.mnemonic) =
      match decode w with
      | .ok i => [i.mnemonic]
      | .error _ => []

/-- R92: any value in the unused fields selects the same instruction, and the encoder writes zeros
there. -/
def Obligations.UnusedFieldsAreIgnored : Prop :=
  ∀ (i : Instr) (u : Word),
    decode (encode i ||| (u &&& unusedBits i)) = .ok i ∧ encode i &&& unusedBits i = 0#32

/-- R98, R99: under the default numbers a fetched word whose primary opcode or function code is reserved, among them every R-type
word with a function code above its low six bits, raises `IllegalInstruction`. -/
def Obligations.ReservedEncodingsRaiseIllegalInstruction : Prop :=
  ∀ (s : State) (w : Word), s.launch.opc = .standard → s.pc ≠ s.launch.endPc → fetch s = .ok w →
    ((opField w ∈ [0x15#6, 0x1E#6, 0x1F#6, 0x22#6, 0x2A#6, 0x2C#6, 0x2D#6] ∨ 0x30#6 ≤ opField w) →
      step s = .fault (.illegalInstruction s.pc w)) ∧
    ((opField w = 0x00#6 ∧ funcField w ∉ [0x00#11, 0x04#11, 0x06#11, 0x07#11, 0x20#11, 0x21#11, 0x22#11,
        0x23#11, 0x24#11, 0x25#11, 0x26#11, 0x28#11, 0x29#11, 0x2A#11, 0x2B#11, 0x2C#11, 0x2D#11, 0x30#11,
        0x31#11, 0x32#11, 0x33#11, 0x34#11, 0x35#11]) →
      step s = .fault (.illegalInstruction s.pc w)) ∧
    ((opField w = 0x01#6 ∧ 0x1E#11 ≤ funcField w) → step s = .fault (.illegalInstruction s.pc w)) ∧
    ((opField w = 0x00#6 ∨ opField w = 0x01#6) → (funcField w).extractLsb' 6 5 ≠ 0#5 →
      step s = .fault (.illegalInstruction s.pc w))

/-- Decoding under any other numbering reads the instruction that the numbers name, with every other bit
of the word as it stands (R6). For a list of rows of which no word meets two: the word of an instruction
with its default numbers replaced by those that its row gives it decodes to that instruction, and a word
that meets no row to none. The numbering that gives every instruction its default numbers decodes as the
default does. That a numbering is a list of such rows is the model's choice (log 4). -/
def Obligations.NumberingsNameTheInstruction : Prop :=
  (∀ rows : List (OpcodeNumbers × OpcodeNumbers),
    (rows.Pairwise fun r q => ∀ w : Word, ¬ (r.1.selects w = true ∧ q.1.selects w = true)) →
    ∀ n m : OpcodeNumbers, (n, m) ∈ rows → n.func.isSome = m.func.isSome →
    ∀ i : Instr, m.selects (encode i) = true →
      decodeUnder (.renumbered rows) (n.put (encode i)) = .ok i) ∧
  (∀ (rows : List (OpcodeNumbers × OpcodeNumbers)) (w : Word),
    (∀ r ∈ rows, r.1.selects w = false) → decodeUnder (.renumbered rows) w = .error .unassigned) ∧
  (∀ w : Word, (decodeUnder (.renumbered (standardNumbers.map fun n => (n, n))) w).toOption =
    (decode w).toOption)

/-- A few words written out from the spec's encodings decode to the instructions they stand for. -/
def Obligations.WrittenOutWordsDecode : Prop :=
  decode 0x8C430006#32 = .ok (.lw 3#5 2#5 6#16) ∧
  decode 0xAC83FFF9#32 = .ok (.sw 3#5 4#5 0xFFF9#16) ∧
  decode 0x00A00830#32 = .ok (.movi2s 1#5 5#5) ∧
  decode 0x00430820#32 = .ok (.add 1#5 2#5 3#5) ∧
  decode 0x04440004#32 = .ok (.addd 0#5 2#5 4#5) ∧
  decode 0x1420FFF4#32 = .ok (.bnez 1#5 0xFFF4#16) ∧
  decode 0x44000040#32 = .ok (.trap 0x40#26) ∧
  decode 0x00000000#32 = .ok .nop

/-! The instruction cycle (`10_state.md` R34, `20_memory.md` R58, `70_reset_and_hazards.md` R323). -/

/-- A step runs the instruction decoded, under the numbers of the launch, from the four bytes at
`pc`. -/
def Obligations.StepRunsTheDecodedInstruction : Prop :=
  ∀ (s : State) (i : Instr), s.pc ≠ s.launch.endPc → Accessible s s.pc 4 →
    decodeUnder s.launch.opc (s.byteAt s.pc ++ s.byteAt (s.pc + 1#32) ++ s.byteAt (s.pc + 2#32) ++
      s.byteAt (s.pc + 3#32)) = .ok i →
    step s = exec i s

/-- R58: the fetch checks alignment, then the map, and reads four bytes, the most significant first. -/
def Obligations.FetchChecksThenReads : Prop :=
  ∀ s : State,
    (s.pc.extractLsb' 0 2 ≠ 0#2 → fetch s = .error (.fetchMisaligned s.pc s.pc)) ∧
    (s.pc.extractLsb' 0 2 = 0#2 →
      (∃ k : Nat, k < 4 ∧ inRegions s.launch.memMap (s.pc + BitVec.ofNat 32 k) = false) →
      fetch s = .error (.accessFault s.pc s.pc 4 .fetch)) ∧
    (s.pc.extractLsb' 0 2 = 0#2 →
      (∀ k : Nat, k < 4 → inRegions s.launch.memMap (s.pc + BitVec.ofNat 32 k) = true) →
      fetch s = .ok (s.byteAt s.pc ++ s.byteAt (s.pc + 1#32) ++ s.byteAt (s.pc + 2#32) ++
        s.byteAt (s.pc + 3#32))) ∧
    (∀ r, s.pc ≠ s.launch.endPc → fetch s = .error r → step s = .fault r)

/-- Once `pc` is `END_PC` the run is over and the state stays as it is, however many steps are asked
for. That the step answers the same state is the model's choice (log 8). -/
def Obligations.FinishedRunStaysFinal : Prop :=
  ∀ (s : State) (k : Nat), s.pc = s.launch.endPc → Host.Core.run Sys2Proof.core k s = .next s

/-- No step is refused: the spec knows no refusal, and the model answers none. -/
def Obligations.StepNeverRefuses : Prop :=
  ∀ (s : State) (q : Refusal), step s ≠ .refused q

/-! Registers and memory (`10_state.md`, `20_memory.md`). -/

/-- R26: a pair is the concatenation of its halves, the even register the more significant; writing
either half changes the pair there, and writing the pair changes both halves and no other register. -/
def Obligations.DoublePairsShareTheirRegisters : Prop :=
  ∀ (s : State) (i : FReg) (v : Dword) (w : Word), EvenReg i →
    s.dpr i = s.fpr i ++ s.fpr (i + 1#5) ∧
    (s.setDpr i v).dpr i = v ∧
    (s.setFpr i w).dpr i = w ++ s.fpr (i + 1#5) ∧
    (s.setFpr (i + 1#5) w).dpr i = s.fpr i ++ w ∧
    ∀ j : FReg, j ≠ i → j ≠ i + 1#5 → (s.setDpr i v).fpr j = s.fpr j

/-- R53, R55: a datum is stored most significant byte first, and reads of other widths see its bytes. -/
def Obligations.MixedWidthAccessesSeeTheBytes : Prop :=
  ∀ (s : State) (a : Word), s.mem.wf = true →
    (∀ v : Byte, (s.setByte a v).byteAt a = v) ∧
    (∀ v : Half, (s.setHalf a v).halfAt a = v ∧ (s.setHalf a v).byteAt a = v.extractLsb' 8 8 ∧
      (s.setHalf a v).byteAt (a + 1#32) = v.extractLsb' 0 8) ∧
    (∀ v : Word, (s.setWord a v).wordAt a = v ∧ (s.setWord a v).halfAt a = v.extractLsb' 16 16 ∧
      (s.setWord a v).halfAt (a + 2#32) = v.extractLsb' 0 16 ∧
      (s.setWord a v).byteAt a = v.extractLsb' 24 8 ∧
      (s.setWord a v).byteAt (a + 3#32) = v.extractLsb' 0 8) ∧
    (∀ v : Dword, (s.setDword a v).dwordAt a = v ∧ (s.setDword a v).wordAt a = v.extractLsb' 32 32 ∧
      (s.setDword a v).wordAt (a + 4#32) = v.extractLsb' 0 32)

/-- R36, R37: a launch leaves `pc = RESET_PC`, R0 zero, and every other register, FPSR, IAR and memory
at whatever start values it is given. -/
def Obligations.LaunchGivesTheStartValues : Prop :=
  ∀ (l : Launch) (v : StartValues) (n : Nat),
    (State.launched l v n).pc = l.resetPc ∧ (State.launched l v n).gpr 0#5 = 0#32 ∧
    (∀ r : GReg, r ≠ 0#5 → (State.launched l v n).gpr r = v.x[r.toNat]) ∧
    (∀ r : FReg, (State.launched l v n).fpr r = v.f[r.toNat]) ∧
    (State.launched l v n).fpsr = v.fpsr ∧ (State.launched l v n).iar = v.iar ∧
    (∀ a : Word, (State.launched l v n).byteAt a = v.mem.read a.toNat)

/-! Load and store (`40_load_store.md`). -/

/-- The five loads to a general register complete on an admitted access: the register becomes the
extended datum, nothing else changes. -/
def Obligations.LoadsToGprComplete : Prop :=
  ∀ (s : State) (rd rs1 : GReg) (imm : Half),
    (Accessible s (effectiveAddress s rs1 imm) 1 → Completes (exec (.lb rd rs1 imm) s) fun t =>
      WritesGpr s t rd ((s.byteAt (effectiveAddress s rs1 imm)).signExtend 32) ∧ t.pc = s.pc + 4#32) ∧
    (Accessible s (effectiveAddress s rs1 imm) 1 → Completes (exec (.lbu rd rs1 imm) s) fun t =>
      WritesGpr s t rd ((s.byteAt (effectiveAddress s rs1 imm)).zeroExtend 32) ∧ t.pc = s.pc + 4#32) ∧
    (Accessible s (effectiveAddress s rs1 imm) 2 → Completes (exec (.lh rd rs1 imm) s) fun t =>
      WritesGpr s t rd ((s.byteAt (effectiveAddress s rs1 imm) ++
        s.byteAt (effectiveAddress s rs1 imm + 1#32)).signExtend 32) ∧ t.pc = s.pc + 4#32) ∧
    (Accessible s (effectiveAddress s rs1 imm) 2 → Completes (exec (.lhu rd rs1 imm) s) fun t =>
      WritesGpr s t rd ((s.byteAt (effectiveAddress s rs1 imm) ++
        s.byteAt (effectiveAddress s rs1 imm + 1#32)).zeroExtend 32) ∧ t.pc = s.pc + 4#32) ∧
    (Accessible s (effectiveAddress s rs1 imm) 4 → Completes (exec (.lw rd rs1 imm) s) fun t =>
      WritesGpr s t rd (s.byteAt (effectiveAddress s rs1 imm) ++
        s.byteAt (effectiveAddress s rs1 imm + 1#32) ++ s.byteAt (effectiveAddress s rs1 imm + 2#32) ++
        s.byteAt (effectiveAddress s rs1 imm + 3#32)) ∧ t.pc = s.pc + 4#32)

/-- LF and LD complete on an admitted access: the pattern goes to the register or to the pair, the word
at the lower address to the even register. -/
def Obligations.LoadsToFprComplete : Prop :=
  ∀ (s : State) (rd : FReg) (rs1 : GReg) (imm : Half),
    (Accessible s (effectiveAddress s rs1 imm) 4 → Completes (exec (.lf rd rs1 imm) s) fun t =>
      WritesFpr s t rd (s.wordAt (effectiveAddress s rs1 imm)) 0 ∧ t.pc = s.pc + 4#32) ∧
    (EvenReg rd → Accessible s (effectiveAddress s rs1 imm) 8 →
      Completes (exec (.ld rd rs1 imm) s) fun t =>
        WritesDpr s t rd (s.wordAt (effectiveAddress s rs1 imm) ++
          s.wordAt (effectiveAddress s rs1 imm + 4#32)) 0 ∧ t.pc = s.pc + 4#32)

/-- The five stores complete on an admitted access to a memory in canonical form: the bytes from the
effective address on become the datum, most significant first, and nothing else changes. The canonical
form is the model's choice (log 12) and every state of a run has it (`EveryStepKeepsTheInvariant`). -/
def Obligations.StoresComplete : Prop :=
  ∀ (s : State) (rd rs1 : GReg) (fd : FReg) (imm : Half), s.mem.wf = true →
    (Storable s (effectiveAddress s rs1 imm) 1 → Completes (exec (.sb rd rs1 imm) s) fun t =>
      WritesBytes s t (effectiveAddress s rs1 imm) [(s.gpr rd).extractLsb' 0 8] ∧
        t.pc = s.pc + 4#32) ∧
    (Storable s (effectiveAddress s rs1 imm) 2 → Completes (exec (.sh rd rs1 imm) s) fun t =>
      WritesBytes s t (effectiveAddress s rs1 imm)
        [(s.gpr rd).extractLsb' 8 8, (s.gpr rd).extractLsb' 0 8] ∧ t.pc = s.pc + 4#32) ∧
    (Storable s (effectiveAddress s rs1 imm) 4 → Completes (exec (.sw rd rs1 imm) s) fun t =>
      WritesBytes s t (effectiveAddress s rs1 imm)
        [(s.gpr rd).extractLsb' 24 8, (s.gpr rd).extractLsb' 16 8, (s.gpr rd).extractLsb' 8 8,
          (s.gpr rd).extractLsb' 0 8] ∧ t.pc = s.pc + 4#32) ∧
    (Storable s (effectiveAddress s rs1 imm) 4 → Completes (exec (.sf fd rs1 imm) s) fun t =>
      WritesBytes s t (effectiveAddress s rs1 imm)
        [(s.fpr fd).extractLsb' 24 8, (s.fpr fd).extractLsb' 16 8, (s.fpr fd).extractLsb' 8 8,
          (s.fpr fd).extractLsb' 0 8] ∧ t.pc = s.pc + 4#32) ∧
    (EvenReg fd → Storable s (effectiveAddress s rs1 imm) 8 →
      Completes (exec (.sd fd rs1 imm) s) fun t =>
        WritesBytes s t (effectiveAddress s rs1 imm)
          [(s.fpr fd).extractLsb' 24 8, (s.fpr fd).extractLsb' 16 8, (s.fpr fd).extractLsb' 8 8,
            (s.fpr fd).extractLsb' 0 8, (s.fpr (fd + 1#5)).extractLsb' 24 8,
            (s.fpr (fd + 1#5)).extractLsb' 16 8, (s.fpr (fd + 1#5)).extractLsb' 8 8,
            (s.fpr (fd + 1#5)).extractLsb' 0 8] ∧ t.pc = s.pc + 4#32)

/-- R121: the order of the checks of a load or store, common to all twelve: odd register (LD, SD),
alignment, map, `TEXT` (stores), else the access is performed; `rd` is any register, R0 too. -/
def Obligations.LoadStoreChecksInOrder : Prop :=
  ∀ (s : State) (rd : BitVec 5) (rs1 : GReg) (imm : Half),
    ∀ p ∈ [(Instr.lb rd rs1 imm, 1), (.lbu rd rs1 imm, 1), (.lh rd rs1 imm, 2), (.lhu rd rs1 imm, 2),
        (.lw rd rs1 imm, 4), (.lf rd rs1 imm, 4), (.ld rd rs1 imm, 8), (.sb rd rs1 imm, 1),
        (.sh rd rs1 imm, 2), (.sw rd rs1 imm, 4), (.sf rd rs1 imm, 4), (.sd rd rs1 imm, 8)],
      exec p.1 s =
        if oneOf ["LD", "SD"] p.1 = true ∧ rd.toNat % 2 = 1 then .fault (.oddFPRegister s.pc rd)
        else if (effectiveAddress s rs1 imm).toNat % p.2 ≠ 0 then
          .fault (.dataMisaligned s.pc (effectiveAddress s rs1 imm) p.2)
        else if ¬ ∀ k : Nat, k < p.2 →
            inRegions s.launch.memMap (effectiveAddress s rs1 imm + BitVec.ofNat 32 k) = true then
          .fault (.accessFault s.pc (effectiveAddress s rs1 imm) p.2
            (if oneOf storeNames p.1 then .store else .load))
        else if oneOf storeNames p.1 = true ∧ s.launch.smc = .refuse ∧
            ¬ ∀ k : Nat, k < p.2 →
              ¬ InText s (effectiveAddress s rs1 imm + BitVec.ofNat 32 k) then
          .fault (.storeToText s.pc (effectiveAddress s rs1 imm))
        else .next (match p.1 with
          | .lb .. => (s.setGpr rd ((s.byteAt (effectiveAddress s rs1 imm)).signExtend 32)).advance
          | .lbu .. => (s.setGpr rd ((s.byteAt (effectiveAddress s rs1 imm)).zeroExtend 32)).advance
          | .lh .. => (s.setGpr rd ((s.halfAt (effectiveAddress s rs1 imm)).signExtend 32)).advance
          | .lhu .. => (s.setGpr rd ((s.halfAt (effectiveAddress s rs1 imm)).zeroExtend 32)).advance
          | .lw .. => (s.setGpr rd (s.wordAt (effectiveAddress s rs1 imm))).advance
          | .lf .. => (s.setFpr rd (s.wordAt (effectiveAddress s rs1 imm))).advance
          | .ld .. => (s.setDpr rd (s.dwordAt (effectiveAddress s rs1 imm))).advance
          | .sb .. => (s.setByte (effectiveAddress s rs1 imm) ((s.gpr rd).extractLsb' 0 8)).advance
          | .sh .. => (s.setHalf (effectiveAddress s rs1 imm) ((s.gpr rd).extractLsb' 0 16)).advance
          | .sw .. => (s.setWord (effectiveAddress s rs1 imm) (s.gpr rd)).advance
          | .sf .. => (s.setWord (effectiveAddress s rs1 imm) (s.fpr rd)).advance
          | _ => (s.setDword (effectiveAddress s rs1 imm) (s.dpr rd)).advance)

/-- R68: an admitted word store under `coherent` is seen by the very next fetch, also over the
instruction that follows; under `refuse` a store over `TEXT` faults. -/
def Obligations.CoherentStoreIsFetched : Prop :=
  ∀ (s : State) (rd rs1 : GReg) (imm : Half), s.mem.wf = true →
    Accessible s (effectiveAddress s rs1 imm) 4 →
    (s.launch.smc = .coherent → effectiveAddress s rs1 imm = s.pc + 4#32 →
      Completes (exec (.sw rd rs1 imm) s) fun t => fetch t = .ok (s.gpr rd)) ∧
    (s.launch.smc = .refuse → InText s (effectiveAddress s rs1 imm + 3#32) →
      exec (.sw rd rs1 imm) s = .fault (.storeToText s.pc (effectiveAddress s rs1 imm)))

/-! Moves (`41_move.md`). -/

/-- The moves between register files complete and copy the bit pattern; MOVD reads both halves before
it writes either. -/
def Obligations.RegisterMovesComplete : Prop :=
  ∀ (s : State) (r : GReg) (fd fs : FReg),
    (Completes (exec (.movf fd fs) s) fun t => WritesFpr s t fd (s.fpr fs) 0 ∧ t.pc = s.pc + 4#32) ∧
    (Completes (exec (.movfp2i r fs) s) fun t => WritesGpr s t r (s.fpr fs) ∧ t.pc = s.pc + 4#32) ∧
    (Completes (exec (.movi2fp fd r) s) fun t => WritesFpr s t fd (s.gpr r) 0 ∧ t.pc = s.pc + 4#32) ∧
    (EvenReg fd → EvenReg fs → Completes (exec (.movd fd fs) s) fun t =>
      WritesDpr s t fd (s.fpr fs ++ s.fpr (fs + 1#5)) 0 ∧ t.pc = s.pc + 4#32)

/-- MOVI2S writes IAR or the one bit of FPSR, and raises `IllegalInstruction` on any other number. That
the recorded word is read at `pc` is the model's inference (log 10). -/
def Obligations.MoveToSpecialRegister : Prop :=
  ∀ (s : State) (n : SReg) (rs1 : GReg),
    (n = s.launch.sreg.iar → Completes (exec (.movi2s n rs1) s) fun t =>
      WritesIar s t (s.gpr rs1) ∧ t.pc = s.pc + 4#32) ∧
    (n ≠ s.launch.sreg.iar → n = s.launch.sreg.fpsr → Completes (exec (.movi2s n rs1) s) fun t =>
      WritesFpsr s t (BitVec.ofNat 1 ((s.gpr rs1).toNat % 2)) ∧ t.pc = s.pc + 4#32) ∧
    (n ≠ s.launch.sreg.iar → n ≠ s.launch.sreg.fpsr →
      exec (.movi2s n rs1) s = .fault (.illegalInstruction s.pc (s.wordAt s.pc)))

/-- MOVS2I reads IAR or FPSR widened with zeros, and raises `IllegalInstruction` on any other number. That
the recorded word is read at `pc` is the model's inference (log 10). -/
def Obligations.MoveFromSpecialRegister : Prop :=
  ∀ (s : State) (rd : GReg) (n : SReg),
    (n = s.launch.sreg.iar → Completes (exec (.movs2i rd n) s) fun t =>
      WritesGpr s t rd s.iar ∧ t.pc = s.pc + 4#32) ∧
    (n ≠ s.launch.sreg.iar → n = s.launch.sreg.fpsr → Completes (exec (.movs2i rd n) s) fun t =>
      WritesGpr s t rd (if s.fpsr = 1#1 then 1#32 else 0#32) ∧ t.pc = s.pc + 4#32) ∧
    (n ≠ s.launch.sreg.iar → n ≠ s.launch.sreg.fpsr →
      exec (.movs2i rd n) s = .fault (.illegalInstruction s.pc (s.wordAt s.pc)))

/-! Arithmetic and logic (`42_arith_logical.md`). -/

/-- R151: for ADD, ADDI, SUB, SUBI, MULT and DIV with the exact result `r`: a result that fits, or any
under `OVF_TRAPS = false`, is written modulo 2^32; another raises `IntegerOverflow`. -/
def Obligations.SignedResultsFitTrapOrWrap : Prop :=
  (∀ (s : State) (rd rs1 rs2 : GReg) (imm : Half),
    ∀ p ∈ [(Instr.add rd rs1 rs2, (s.gpr rs1).toInt + (s.gpr rs2).toInt),
        (.addi rd rs1 imm, (s.gpr rs1).toInt + imm.toInt),
        (.sub rd rs1 rs2, (s.gpr rs1).toInt - (s.gpr rs2).toInt),
        (.subi rd rs1 imm, (s.gpr rs1).toInt - imm.toInt)],
      (Fits p.2 → Completes (exec p.1 s) fun t =>
        WritesGpr s t rd (BitVec.ofInt 32 p.2) ∧ t.pc = s.pc + 4#32 ∧
          (rd ≠ 0#5 → (t.gpr rd).toInt = p.2)) ∧
      (¬ Fits p.2 → s.launch.ovfTraps = true → exec p.1 s = .fault (.integerOverflow s.pc)) ∧
      (¬ Fits p.2 → s.launch.ovfTraps = false → Completes (exec p.1 s) fun t =>
        WritesGpr s t rd (BitVec.ofInt 32 p.2) ∧ t.pc = s.pc + 4#32)) ∧
  (∀ (s : State) (rd rs1 rs2 : FReg),
    ∀ p ∈ [(Instr.mult rd rs1 rs2, (s.fpr rs1).toInt * (s.fpr rs2).toInt),
        (.div rd rs1 rs2, (s.fpr rs1).toInt.tdiv (s.fpr rs2).toInt)],
      (p.1 = .div rd rs1 rs2 → s.fpr rs2 ≠ 0#32) →
      (Fits p.2 → Completes (exec p.1 s) fun t =>
        WritesFpr s t rd (BitVec.ofInt 32 p.2) 0 ∧ t.pc = s.pc + 4#32 ∧ (t.fpr rd).toInt = p.2) ∧
      (¬ Fits p.2 → s.launch.ovfTraps = true → exec p.1 s = .fault (.integerOverflow s.pc)) ∧
      (¬ Fits p.2 → s.launch.ovfTraps = false → Completes (exec p.1 s) fun t =>
        WritesFpr s t rd (BitVec.ofInt 32 p.2) 0 ∧ t.pc = s.pc + 4#32)) ∧
  State.reset.launch.ovfTraps = true

/-- ADDU, ADDUI, SUBU and SUBUI complete with the exact result modulo 2^32; the immediate is zero
extended. -/
def Obligations.UnsignedAddSubtractWrap : Prop :=
  ∀ (s : State) (rd rs1 rs2 : GReg) (imm : Half),
    (Completes (exec (.addu rd rs1 rs2) s) fun t =>
      WritesGpr s t rd (BitVec.ofNat 32 ((s.gpr rs1).toNat + (s.gpr rs2).toNat)) ∧
        t.pc = s.pc + 4#32) ∧
    (Completes (exec (.addui rd rs1 imm) s) fun t =>
      WritesGpr s t rd (BitVec.ofNat 32 ((s.gpr rs1).toNat + imm.toNat)) ∧ t.pc = s.pc + 4#32) ∧
    (Completes (exec (.subu rd rs1 rs2) s) fun t =>
      WritesGpr s t rd (BitVec.ofInt 32 ((s.gpr rs1).toNat - (s.gpr rs2).toNat)) ∧
        t.pc = s.pc + 4#32) ∧
    (Completes (exec (.subui rd rs1 imm) s) fun t =>
      WritesGpr s t rd (BitVec.ofInt 32 ((s.gpr rs1).toNat - imm.toNat)) ∧ t.pc = s.pc + 4#32)

/-- MULTU and DIVU complete with the exact unsigned result modulo 2^32, unless the divisor is zero: then
DIVU and DIV raise `DivideByZero`. -/
def Obligations.UnsignedMultiplyDivide : Prop :=
  ∀ (s : State) (rd rs1 rs2 : FReg),
    (Completes (exec (.multu rd rs1 rs2) s) fun t => ∃ v : Word,
      v.toNat = (s.fpr rs1).toNat * (s.fpr rs2).toNat % 2 ^ 32 ∧ WritesFpr s t rd v 0 ∧
        t.pc = s.pc + 4#32) ∧
    (s.fpr rs2 ≠ 0#32 → Completes (exec (.divu rd rs1 rs2) s) fun t => ∃ v : Word,
      v.toNat = (s.fpr rs1).toNat / (s.fpr rs2).toNat ∧ WritesFpr s t rd v 0 ∧ t.pc = s.pc + 4#32) ∧
    (s.fpr rs2 = 0#32 → exec (.divu rd rs1 rs2) s = .fault (.divideByZero s.pc) ∧
      exec (.div rd rs1 rs2) s = .fault (.divideByZero s.pc))

/-- The quotient of DIV is rounded toward zero: what it leaves of the dividend is smaller than the
divisor and has the dividend's sign. The one overflow is the least integer divided by -1. -/
def Obligations.SignedDivisionTruncates : Prop :=
  ∀ (s : State) (rd rs1 rs2 : FReg), s.fpr rs2 ≠ 0#32 →
    ¬ (s.fpr rs1 = 0x80000000#32 ∧ s.fpr rs2 = 0xFFFFFFFF#32) →
    Completes (exec (.div rd rs1 rs2) s) fun t => ∃ m : Int,
      (s.fpr rs1).toInt = (t.fpr rd).toInt * (s.fpr rs2).toInt + m ∧
      m.natAbs < (s.fpr rs2).toInt.natAbs ∧
      (m ≠ 0 → (m < 0 ↔ (s.fpr rs1).toInt < 0)) ∧ t.pc = s.pc + 4#32

/-- The logical instructions and LHI complete: each bit of the result is the operation on the bits of
the operands, the immediate zero extended; LHI puts the immediate in the upper half. -/
def Obligations.LogicalInstructionsComplete : Prop :=
  ∀ (s : State) (rd rs1 rs2 : GReg) (imm : Half),
    (Completes (exec (.and rd rs1 rs2) s) fun t => ∃ v : Word, WritesGpr s t rd v ∧ t.pc = s.pc + 4#32 ∧
      ∀ k, v.getLsbD k = ((s.gpr rs1).getLsbD k && (s.gpr rs2).getLsbD k)) ∧
    (Completes (exec (.andi rd rs1 imm) s) fun t => ∃ v : Word, WritesGpr s t rd v ∧ t.pc = s.pc + 4#32 ∧
      ∀ k, v.getLsbD k = ((s.gpr rs1).getLsbD k && imm.getLsbD k)) ∧
    (Completes (exec (.or rd rs1 rs2) s) fun t => ∃ v : Word, WritesGpr s t rd v ∧ t.pc = s.pc + 4#32 ∧
      ∀ k, v.getLsbD k = ((s.gpr rs1).getLsbD k || (s.gpr rs2).getLsbD k)) ∧
    (Completes (exec (.ori rd rs1 imm) s) fun t => ∃ v : Word, WritesGpr s t rd v ∧ t.pc = s.pc + 4#32 ∧
      ∀ k, v.getLsbD k = ((s.gpr rs1).getLsbD k || imm.getLsbD k)) ∧
    (Completes (exec (.xor rd rs1 rs2) s) fun t => ∃ v : Word, WritesGpr s t rd v ∧ t.pc = s.pc + 4#32 ∧
      ∀ k, v.getLsbD k = ((s.gpr rs1).getLsbD k ^^ (s.gpr rs2).getLsbD k)) ∧
    (Completes (exec (.xori rd rs1 imm) s) fun t => ∃ v : Word, WritesGpr s t rd v ∧ t.pc = s.pc + 4#32 ∧
      ∀ k, v.getLsbD k = ((s.gpr rs1).getLsbD k ^^ imm.getLsbD k)) ∧
    (Completes (exec (.lhi rd imm) s) fun t => ∃ v : Word, WritesGpr s t rd v ∧ t.pc = s.pc + 4#32 ∧
      v.toNat = imm.toNat * 2 ^ 16)

/-- The shifts complete: by the low five bits of the amount, as multiplication or division by a power of
two, the arithmetic one of the signed value toward minus infinity. -/
def Obligations.ShiftsComplete : Prop :=
  ∀ (s : State) (rd rs1 rs2 : GReg) (imm : Half),
    ∀ p ∈ [(Instr.sll rd rs1 rs2, Instr.srl rd rs1 rs2, Instr.sra rd rs1 rs2, (s.gpr rs2).toNat % 32),
        (.slli rd rs1 imm, .srli rd rs1 imm, .srai rd rs1 imm, imm.toNat % 32)],
      (Completes (exec p.1 s) fun t => ∃ v : Word, WritesGpr s t rd v ∧ t.pc = s.pc + 4#32 ∧
        v.toNat = (s.gpr rs1).toNat * 2 ^ p.2.2.2 % 2 ^ 32) ∧
      (Completes (exec p.2.1 s) fun t => ∃ v : Word, WritesGpr s t rd v ∧ t.pc = s.pc + 4#32 ∧
        v.toNat = (s.gpr rs1).toNat / 2 ^ p.2.2.2) ∧
      (Completes (exec p.2.2.1 s) fun t => ∃ v : Word, WritesGpr s t rd v ∧ t.pc = s.pc + 4#32 ∧
        v.toInt = (s.gpr rs1).toInt / (2 : Int) ^ p.2.2.2)

/-- The twelve set instructions complete with 1 where the signed relation holds and 0 where it does
not; the immediate is sign extended. -/
def Obligations.SetInstructionsComplete : Prop :=
  ∀ (s : State) (rd rs1 rs2 : GReg) (imm : Half),
    (∀ p ∈ [(Instr.seq rd rs1 rs2, (s.gpr rs2).toInt), (.seqi rd rs1 imm, imm.toInt)],
      Completes (exec p.1 s) fun t => t.pc = s.pc + 4#32 ∧
        WritesGpr s t rd (if (s.gpr rs1).toInt = p.2 then 1#32 else 0#32)) ∧
    (∀ p ∈ [(Instr.sne rd rs1 rs2, (s.gpr rs2).toInt), (.snei rd rs1 imm, imm.toInt)],
      Completes (exec p.1 s) fun t => t.pc = s.pc + 4#32 ∧
        WritesGpr s t rd (if (s.gpr rs1).toInt ≠ p.2 then 1#32 else 0#32)) ∧
    (∀ p ∈ [(Instr.slt rd rs1 rs2, (s.gpr rs2).toInt), (.slti rd rs1 imm, imm.toInt)],
      Completes (exec p.1 s) fun t => t.pc = s.pc + 4#32 ∧
        WritesGpr s t rd (if (s.gpr rs1).toInt < p.2 then 1#32 else 0#32)) ∧
    (∀ p ∈ [(Instr.sgt rd rs1 rs2, (s.gpr rs2).toInt), (.sgti rd rs1 imm, imm.toInt)],
      Completes (exec p.1 s) fun t => t.pc = s.pc + 4#32 ∧
        WritesGpr s t rd (if (s.gpr rs1).toInt > p.2 then 1#32 else 0#32)) ∧
    (∀ p ∈ [(Instr.sle rd rs1 rs2, (s.gpr rs2).toInt), (.slei rd rs1 imm, imm.toInt)],
      Completes (exec p.1 s) fun t => t.pc = s.pc + 4#32 ∧
        WritesGpr s t rd (if (s.gpr rs1).toInt ≤ p.2 then 1#32 else 0#32)) ∧
    (∀ p ∈ [(Instr.sge rd rs1 rs2, (s.gpr rs2).toInt), (.sgei rd rs1 imm, imm.toInt)],
      Completes (exec p.1 s) fun t => t.pc = s.pc + 4#32 ∧
        WritesGpr s t rd (if (s.gpr rs1).toInt ≥ p.2 then 1#32 else 0#32))

/-! Floating point (`43_floating_point.md`). -/

/-- The instructions with a single-width result do with the answer of the run's record, whatever record
that is, what R200 and R201 say. An open value is drawn, and the count of draws is the model's own (log 6). -/
def Obligations.SingleResultsFollowTheRecord : Prop :=
  ∀ (s : State) (rd rs1 rs2 : FReg),
    AnswersFpr s (exec (.addf rd rs1 rs2) s) rd ((recordOf s.launch.fpOps).add32 (s.fpr rs1) (s.fpr rs2)) ∧
    AnswersFpr s (exec (.subf rd rs1 rs2) s) rd ((recordOf s.launch.fpOps).sub32 (s.fpr rs1) (s.fpr rs2)) ∧
    AnswersFpr s (exec (.multf rd rs1 rs2) s) rd ((recordOf s.launch.fpOps).mul32 (s.fpr rs1) (s.fpr rs2)) ∧
    AnswersFpr s (exec (.divf rd rs1 rs2) s) rd ((recordOf s.launch.fpOps).div32 (s.fpr rs1) (s.fpr rs2)) ∧
    AnswersFpr s (exec (.cvtf2i rd rs1) s) rd ((recordOf s.launch.fpOps).f2i (s.fpr rs1)) ∧
    AnswersFpr s (exec (.cvti2f rd rs1) s) rd ((recordOf s.launch.fpOps).i2f (s.fpr rs1)) ∧
    (EvenReg rs1 → AnswersFpr s (exec (.cvtd2f rd rs1) s) rd
      ((recordOf s.launch.fpOps).d2f (s.fpr rs1 ++ s.fpr (rs1 + 1#5)))) ∧
    (EvenReg rs1 → AnswersFpr s (exec (.cvtd2i rd rs1) s) rd
      ((recordOf s.launch.fpOps).d2i (s.fpr rs1 ++ s.fpr (rs1 + 1#5))))

/-- The same for the instructions with a double result, on even register numbers. -/
def Obligations.DoubleResultsFollowTheRecord : Prop :=
  ∀ (s : State) (rd rs1 rs2 : FReg), EvenReg rd →
    (EvenReg rs1 → EvenReg rs2 →
      AnswersDpr s (exec (.addd rd rs1 rs2) s) rd ((recordOf s.launch.fpOps).add64
        (s.fpr rs1 ++ s.fpr (rs1 + 1#5)) (s.fpr rs2 ++ s.fpr (rs2 + 1#5))) ∧
      AnswersDpr s (exec (.subd rd rs1 rs2) s) rd ((recordOf s.launch.fpOps).sub64
        (s.fpr rs1 ++ s.fpr (rs1 + 1#5)) (s.fpr rs2 ++ s.fpr (rs2 + 1#5))) ∧
      AnswersDpr s (exec (.multd rd rs1 rs2) s) rd ((recordOf s.launch.fpOps).mul64
        (s.fpr rs1 ++ s.fpr (rs1 + 1#5)) (s.fpr rs2 ++ s.fpr (rs2 + 1#5))) ∧
      AnswersDpr s (exec (.divd rd rs1 rs2) s) rd ((recordOf s.launch.fpOps).div64
        (s.fpr rs1 ++ s.fpr (rs1 + 1#5)) (s.fpr rs2 ++ s.fpr (rs2 + 1#5)))) ∧
    AnswersDpr s (exec (.cvtf2d rd rs1) s) rd ((recordOf s.launch.fpOps).f2d (s.fpr rs1)) ∧
    AnswersDpr s (exec (.cvti2d rd rs1) s) rd ((recordOf s.launch.fpOps).i2d (s.fpr rs1))

/-- The six single-precision comparisons set FPSR from the run's record; GT and GE swap the operands,
NE negates. -/
def Obligations.SingleComparisonsSetFpsr : Prop :=
  ∀ (s : State) (rs1 rs2 : FReg),
    AnswersFpsr s (exec (.eqf rs1 rs2) s) ((recordOf s.launch.fpOps).eq32 (s.fpr rs1) (s.fpr rs2)) ∧
    AnswersFpsr s (exec (.nef rs1 rs2) s)
      (((recordOf s.launch.fpOps).eq32 (s.fpr rs1) (s.fpr rs2)).map not) ∧
    AnswersFpsr s (exec (.ltf rs1 rs2) s) ((recordOf s.launch.fpOps).lt32 (s.fpr rs1) (s.fpr rs2)) ∧
    AnswersFpsr s (exec (.gtf rs1 rs2) s) ((recordOf s.launch.fpOps).lt32 (s.fpr rs2) (s.fpr rs1)) ∧
    AnswersFpsr s (exec (.lef rs1 rs2) s) ((recordOf s.launch.fpOps).le32 (s.fpr rs1) (s.fpr rs2)) ∧
    AnswersFpsr s (exec (.gef rs1 rs2) s) ((recordOf s.launch.fpOps).le32 (s.fpr rs2) (s.fpr rs1))

/-- The six double-precision comparisons set FPSR from the run's record, on even register numbers. -/
def Obligations.DoubleComparisonsSetFpsr : Prop :=
  ∀ (s : State) (rs1 rs2 : FReg) (a b : Dword), EvenReg rs1 → EvenReg rs2 →
    a = s.fpr rs1 ++ s.fpr (rs1 + 1#5) → b = s.fpr rs2 ++ s.fpr (rs2 + 1#5) →
    AnswersFpsr s (exec (.eqd rs1 rs2) s) ((recordOf s.launch.fpOps).eq64 a b) ∧
    AnswersFpsr s (exec (.ned rs1 rs2) s) (((recordOf s.launch.fpOps).eq64 a b).map not) ∧
    AnswersFpsr s (exec (.ltd rs1 rs2) s) ((recordOf s.launch.fpOps).lt64 a b) ∧
    AnswersFpsr s (exec (.gtd rs1 rs2) s) ((recordOf s.launch.fpOps).lt64 b a) ∧
    AnswersFpsr s (exec (.led rs1 rs2) s) ((recordOf s.launch.fpOps).le64 a b) ∧
    AnswersFpsr s (exec (.ged rs1 rs2) s) ((recordOf s.launch.fpOps).le64 b a)

/-- With the default record each of the 26 floating-point instructions completes on even
double-precision operands, the next instruction following. -/
def Obligations.DefaultRecordFloatingPointCompletes : Prop :=
  ∀ (s : State) (i : Instr), s.launch.fpOps = .ieee754 →
    oneOf (["ADDF", "SUBF", "MULTF", "DIVF", "ADDD", "SUBD", "MULTD", "DIVD", "CVTF2D", "CVTF2I", "CVTD2F",
      "CVTD2I", "CVTI2F", "CVTI2D"] ++ compareNames) i = true →
    (∀ r ∈ i.doubleOperands, EvenReg r) →
    Completes (exec i s) fun t => t.pc = s.pc + 4#32

/-- R201: in the default record every comparison with a NaN operand is false, in either position and
either precision. -/
def Obligations.DefaultComparisonsWithNaNAreFalse : Prop :=
  (∀ n a : Word, n.extractLsb' 23 8 = 0xFF#8 → n.extractLsb' 0 23 ≠ 0#23 →
    ∀ cmp ∈ [ieee754Ops.eq32, ieee754Ops.lt32, ieee754Ops.le32],
      cmp n a = some false ∧ cmp a n = some false) ∧
  (∀ n a : Dword, n.extractLsb' 52 11 = 0x7FF#11 → n.extractLsb' 0 52 ≠ 0#52 →
    ∀ cmp ∈ [ieee754Ops.eq64, ieee754Ops.lt64, ieee754Ops.le64],
      cmp n a = some false ∧ cmp a n = some false)

/-- R201: in the default record a non-zero finite single divided by zero is the infinity with the
exclusive or of the signs, and zero divided by zero is an open quiet NaN. -/
def Obligations.DefaultDivisionByZero : Prop :=
  ∀ a b : Word, b.extractLsb' 0 31 = 0#31 → a.extractLsb' 23 8 ≠ 0xFF#8 →
    (a.extractLsb' 0 31 ≠ 0#31 →
      ieee754Ops.div32 a b =
        .value ((a.extractLsb' 31 1 ^^^ b.extractLsb' 31 1) ++ 0xFF#8 ++ 0#23)) ∧
    (a.extractLsb' 0 31 = 0#31 → ieee754Ops.div32 a b = .quietNaN)

/-- In the default record addition, subtraction, multiplication and division are exact, in both
precisions, wherever a pattern holds the exact result; a zero result has the sign of IEEE 754 (R201). -/
def Obligations.DefaultArithmeticIsExactWhereItCanBe : Prop :=
  ExactArithmetic singleValue ieee754Ops.add32 ieee754Ops.sub32 ieee754Ops.mul32 ieee754Ops.div32 ∧
  ExactArithmetic doubleValue ieee754Ops.add64 ieee754Ops.sub64 ieee754Ops.mul64 ieee754Ops.div64

/-- In the default record an integer converted to double and back is the integer: CVTI2D is exact
(R217) and CVTD2I keeps every integer in range. -/
def Obligations.IntegerToDoubleAndBackIsExact : Prop :=
  ∀ v : Word, ∃ d : Dword, ieee754Ops.i2d v = .value d ∧ ieee754Ops.d2i d = .value v

/-- In the default record the comparisons of finite operands are those of their numbers, the conversions
to a wider format keep the number, those to an integer round toward zero or are open, and those to single
precision keep a number other than zero that a single holds (R201). -/
def Obligations.DefaultComparisonsAndConversionsFollowTheNumbers : Prop :=
  (∀ (a b : Word) (x y : ℚ), singleValue a = some x → singleValue b = some y →
    ieee754Ops.eq32 a b = some (decide (x = y)) ∧ ieee754Ops.lt32 a b = some (decide (x < y)) ∧
    ieee754Ops.le32 a b = some (decide (x ≤ y))) ∧
  (∀ (a b : Dword) (x y : ℚ), doubleValue a = some x → doubleValue b = some y →
    ieee754Ops.eq64 a b = some (decide (x = y)) ∧ ieee754Ops.lt64 a b = some (decide (x < y)) ∧
    ieee754Ops.le64 a b = some (decide (x ≤ y))) ∧
  (∀ (a : Word) (x : ℚ), singleValue a = some x →
    (∃ d, ieee754Ops.f2d a = .value d ∧ doubleValue d = some x) ∧ TruncatesTo x (ieee754Ops.f2i a)) ∧
  (∀ (a : Dword) (x : ℚ), doubleValue a = some x →
    (∀ c, singleValue c = some x → x ≠ 0 → ieee754Ops.d2f a = .value c) ∧
    TruncatesTo x (ieee754Ops.d2i a)) ∧
  (∀ v : Word,
    (∃ d, ieee754Ops.i2d v = .value d ∧ doubleValue d = some (v.toInt : ℚ)) ∧
    (∀ c, singleValue c = some (v.toInt : ℚ) → v ≠ 0#32 → ieee754Ops.i2f v = .value c))

/-! Jumps and branches (`44_jump_branch.md`). -/

/-- The conditional branches complete: `pc` becomes `A + 4 + sext(imm)` if the condition holds and
`A + 4` if not, nothing else changes. -/
def Obligations.BranchesComplete : Prop :=
  ∀ (s : State) (rs1 : GReg) (imm : Half),
    ∀ p ∈ [(Instr.beqz rs1 imm, decide (s.gpr rs1 = 0#32)), (.bnez rs1 imm, decide (s.gpr rs1 ≠ 0#32)),
        (.bfpt imm, decide (s.fpsr = 1#1)), (.bfpf imm, decide (s.fpsr = 0#1))],
      Completes (exec p.1 s) fun t => KeepsAll s t ∧
        t.pc = if p.2 then s.pc + 4#32 + BitVec.ofInt 32 imm.toInt else s.pc + 4#32

/-- The jumps complete; the target of JALR is read before R31 is written, so `jalr r31` goes to the old
R31. -/
def Obligations.JumpsComplete : Prop :=
  ∀ (s : State) (rs1 : GReg) (name : BitVec 26),
    (Completes (exec (.j name) s) fun t =>
      KeepsAll s t ∧ t.pc = s.pc + 4#32 + BitVec.ofInt 32 name.toInt) ∧
    (Completes (exec (.jal name) s) fun t =>
      WritesGpr s t 31#5 (s.pc + 4#32) ∧ t.pc = s.pc + 4#32 + BitVec.ofInt 32 name.toInt) ∧
    (Completes (exec (.jr rs1) s) fun t => KeepsAll s t ∧ t.pc = s.gpr rs1) ∧
    (Completes (exec (.jalr rs1) s) fun t =>
      WritesGpr s t 31#5 (s.pc + 4#32) ∧ t.pc = s.gpr rs1)

/-- R252: a transfer loads `pc` whatever the target's low bits are and never faults by itself; a
misaligned `pc` faults at the next fetch, the link register already written. -/
def Obligations.MisalignedTargetFaultsAtTheNextFetch : Prop :=
  ∀ (s : State) (rs1 : GReg) (imm : Half) (name : BitVec 26),
    ∀ i ∈ [Instr.beqz rs1 imm, .bnez rs1 imm, .bfpt imm, .bfpf imm, .j name, .jal name, .jr rs1,
        .jalr rs1],
      Completes (exec i s) fun t =>
        (oneOf ["J", "JAL"] i = true → t.pc = s.pc + 4#32 + BitVec.ofInt 32 name.toInt) ∧
        (oneOf ["JR", "JALR"] i = true → t.pc = s.gpr rs1) ∧
        (oneOf ["BEQZ", "BNEZ", "BFPT", "BFPF"] i = true →
          t.pc = s.pc + 4#32 + BitVec.ofInt 32 imm.toInt ∨ t.pc = s.pc + 4#32) ∧
        (oneOf ["JAL", "JALR"] i = true → t.gpr 31#5 = s.pc + 4#32) ∧
        (t.pc.toNat % 4 ≠ 0 → t.pc ≠ t.launch.endPc →
          step t = .fault (.fetchMisaligned t.pc t.pc))

/-- R105, R250: the displacement that the assembler writes for a label takes the branch or jump to the
label. That it is taken modulo 2^32 is the model's inference (log 15). -/
def Obligations.LabelDisplacementReachesTheLabel : Prop :=
  (∀ (s : State) (label : Word) (imm : Half), labelDisplacement 16 s.pc label = some imm →
    ∀ p ∈ [(Instr.beqz 0#5 imm, true), (.bfpt imm, decide (s.fpsr = 1#1)),
        (.bfpf imm, decide (s.fpsr = 0#1))],
      p.2 = true → Completes (exec p.1 s) fun t => t.pc = label) ∧
  (∀ (s : State) (label : Word) (name : BitVec 26), labelDisplacement 26 s.pc label = some name →
    (Completes (exec (.j name) s) fun t => t.pc = label) ∧
    (Completes (exec (.jal name) s) fun t => t.pc = label ∧ t.gpr 31#5 = s.pc + 4#32))

/-! Trap entry and return (`45_special.md`, `60_exceptions.md`). -/

/-- R286: TRAP saves `A + 4` in IAR and goes to the absolute address in the instruction, which is below
64 MiB; nothing else is saved or changed. -/
def Obligations.TrapEntry : Prop :=
  ∀ (s : State) (name : BitVec 26),
    Completes (exec (.trap name) s) fun t =>
      WritesIar s t (s.pc + 4#32) ∧ t.pc.toNat = name.toNat ∧ t.pc.toNat ≤ 0x03FFFFFF

/-- R288: RFE sets `pc` from IAR and restores nothing else; so it resumes after the TRAP if the handler
left IAR alone, and elsewhere if the handler wrote IAR with MOVI2S. -/
def Obligations.TrapReturn : Prop :=
  (∀ s : State, Completes (exec .rfe s) fun t => KeepsAll s t ∧ t.pc = s.iar) ∧
  (∀ (s t u : State) (name : BitVec 26), exec (.trap name) s = .next t → u.iar = t.iar →
    Completes (exec .rfe u) fun v => v.pc = s.pc + 4#32) ∧
  (∀ (s : State) (rs1 : GReg), Completes (exec (.movi2s s.launch.sreg.iar rs1) s) fun t =>
    Completes (exec .rfe t) fun u => u.pc = s.gpr rs1)

/-- R289: a nested TRAP overwrites IAR; a handler that saves IAR in a register, which the inner handler
keeps, and restores it before RFE returns to the outer trap's next instruction. -/
def Obligations.NestedTrapsNeedIarSaved : Prop :=
  ∀ (s : State) (r : GReg) (inner : BitVec 26), r ≠ 0#5 →
    Completes (exec (.movs2i r s.launch.sreg.iar) s) fun t =>
      Completes (exec (.trap inner) t) fun u =>
        u.iar = s.pc + 8#32 ∧
        ∀ v : State, v.gpr r = u.gpr r →
          Completes (exec (.movi2s v.launch.sreg.iar r) v) fun w =>
            Completes (exec .rfe w) fun z => z.pc = s.iar

/-- NOP completes and changes nothing but `pc`. -/
def Obligations.NopCompletes : Prop :=
  ∀ s : State, Completes (exec .nop s) fun t => KeepsAll s t ∧ t.pc = s.pc + 4#32

/-! The rules of the whole machine. -/

/-- R29: nothing but TRAP and MOVI2S writes IAR. -/
def Obligations.OnlyTrapAndMovi2sWriteIar : Prop :=
  ∀ (i : Instr) (s t : State), exec i s = .next t → t.iar ≠ s.iar → oneOf ["TRAP", "MOVI2S"] i = true

/-- R28: nothing but the twelve comparisons and MOVI2S writes FPSR. -/
def Obligations.OnlyComparisonsAndMovi2sWriteFpsr : Prop :=
  ∀ (i : Instr) (s t : State), exec i s = .next t → t.fpsr ≠ s.fpsr →
    oneOf ("MOVI2S" :: compareNames) i = true

/-- Nothing but the five stores changes a byte of memory. -/
def Obligations.OnlyStoresChangeMemory : Prop :=
  ∀ (i : Instr) (s t : State) (a : Word), exec i s = .next t → t.byteAt a ≠ s.byteAt a →
    oneOf storeNames i = true

/-- R32: an instruction that is no branch, jump, TRAP or RFE is followed by the next one in sequence. -/
def Obligations.OnlyTransfersLeaveTheSequence : Prop :=
  ∀ (i : Instr) (s t : State), exec i s = .next t → oneOf transferNames i = false →
    t.pc = s.pc + 4#32

/-- An executing instruction raises only faults whose row of R282 names it. -/
def Obligations.FaultsAreRaisedOnlyByTheirRow : Prop :=
  ∀ (i : Instr) (s : State) (r : Fault), exec i s = .fault r → oneOf (raisers r) i = true

/-- R281: a fault records the address of the instruction that raised it. -/
def Obligations.FaultsRecordTheInstructionAddress : Prop :=
  ∀ (s : State) (r : Fault), step s = .fault r → r.address = s.pc

/-- An instruction with an odd double-precision operand raises `OddFPRegister` for the first such
operand, before any check but those of decoding (R202, R285). -/
def Obligations.FirstOddDoubleOperandFaults : Prop :=
  ∀ (i : Instr) (s : State) (r : FReg),
    i.doubleOperands.find? (fun q => q.toNat % 2 == 1) = some r →
    exec i s = .fault (.oddFPRegister s.pc r)

/-- A well-formed instruction raises neither `OddFPRegister` nor `IllegalInstruction`. -/
def Obligations.WellFormedNeverOddOrIllegal : Prop :=
  ∀ (i : Instr) (s : State) (r : Fault), i.wellFormed s.launch.sreg = true → exec i s = .fault r →
    (∀ a q, r ≠ .oddFPRegister a q) ∧ ∀ a w, r ≠ .illegalInstruction a w

/-- No step changes a launch parameter (R6): the map, `TEXT`, `END_PC` and the rest are fixed for a
run of any length. -/
def Obligations.LaunchParametersAreFixed : Prop :=
  ∀ (k : Nat) (s t : State), ReachesIn k s t → t.launch = s.launch

/-- Every step keeps the memory in canonical form and slot 0 of the general registers zero. Both are
the model's choice of data (logs 11 and 12). -/
def Obligations.EveryStepKeepsTheInvariant : Prop :=
  ∀ s t : State, Inv s → step s = .next t → Inv t

/-- The invariant, which is about the model's choice of data (logs 11 and 12), holds at reset, and at
every launch with a memory in canonical form. -/
def Obligations.LaunchHasTheInvariant : Prop :=
  Inv State.reset ∧
    ∀ (l : Launch) (v : StartValues) (n : Nat), v.mem.wf = true → Inv (State.launched l v n)

/-- Under `SMC_POLICY = refuse` no run of any length, from any state with the invariant, changes a byte
of `TEXT`: a program never modifies itself (R68). -/
def Obligations.ProgramTextNeverChanges : Prop :=
  ∀ (k : Nat) (s t : State) (a : Word), Inv s → s.launch.smc = .refuse → InText s a →
    ReachesIn k s t → t.byteAt a = s.byteAt a

/-- No run of any length changes a byte outside `MEM_MAP` (R52). -/
def Obligations.UnmappedBytesNeverChange : Prop :=
  ∀ (k : Nat) (s t : State) (a : Word), Inv s → inRegions s.launch.memMap a = false →
    ReachesIn k s t → t.byteAt a = s.byteAt a
end

