-- ==== Sys2Proof/Laws/Decode.lean ====
section
/-! SUPPORT. What a numbering's rows do to a word, and what decoding under one answers (`00_scope.md` R6,
`30_encoding.md` R97). -/

namespace Sys2Proof

/-- A word with a function code put in has that function code. -/
theorem funcField_append (op : BitVec 6) (mid : BitVec 15) (func : BitVec 11) :
    funcField (op ++ mid ++ func) = func := by
  apply BitVec.eq_of_getLsbD_eq
  intro i hi
  simp only [funcField, BitVec.getLsbD_extractLsb', BitVec.getLsbD_append, Nat.zero_add]
  simp [hi]

/-- A word's opcode is its first six bits, whatever follows. -/
theorem opField_append_func (op : BitVec 6) (mid : BitVec 15) (func : BitVec 11) :
    opField (op ++ mid ++ func) = op := by
  apply BitVec.eq_of_getLsbD_eq
  intro i hi
  simp only [opField, BitVec.getLsbD_extractLsb', BitVec.getLsbD_append]
  have h1 : ¬ (26 + i < 11) := by omega
  have h2 : ¬ (26 + i - 11 < 15) := by omega
  have h3 : 26 + i - 11 - 15 = i := by omega
  simp [hi, h1, h2, h3]

/-- A word's opcode is its first six bits, whatever follows. -/
theorem opField_append (op : BitVec 6) (rest : BitVec 26) : opField (op ++ rest) = op := by
  apply BitVec.eq_of_getLsbD_eq
  intro i hi
  simp only [opField, BitVec.getLsbD_extractLsb', BitVec.getLsbD_append]
  simp [hi]

/-- A word is its opcode, the fields between and its function code. -/
theorem word_eq_func (w : Word) : opField w ++ w.extractLsb' 11 15 ++ funcField w = w := by
  apply BitVec.eq_of_getLsbD_eq
  intro i hi
  simp only [opField, funcField, BitVec.getLsbD_append, BitVec.getLsbD_extractLsb']
  by_cases h1 : i < 11
  · simp [h1]
  · by_cases h2 : i - 11 < 15
    · simp [h1, h2, show 11 + (i - 11) = i by omega]
    · simp [h1, h2, show i - 11 - 15 < 6 by omega, show 26 + (i - 11 - 15) = i by omega]

/-- A word is its opcode and the rest. -/
theorem word_eq (w : Word) : opField w ++ w.extractLsb' 0 26 = w := by
  apply BitVec.eq_of_getLsbD_eq
  intro i hi
  simp only [opField, BitVec.getLsbD_append, BitVec.getLsbD_extractLsb']
  by_cases h : i < 26
  · simp [h]
  · simp [h, show i - 26 < 6 by omega, show 26 + (i - 26) = i by omega]

/-- The fields between opcode and function code stay when the numbers are replaced. -/
theorem extractLsb'_append_func (op : BitVec 6) (mid : BitVec 15) (func : BitVec 11) :
    (op ++ mid ++ func).extractLsb' 11 15 = mid := by
  apply BitVec.eq_of_getLsbD_eq
  intro i hi
  simp only [BitVec.getLsbD_extractLsb', BitVec.getLsbD_append]
  simp [hi]

/-- The bits below the opcode stay when it is replaced. -/
theorem extractLsb'_append_op (op : BitVec 6) (rest : BitVec 26) :
    (op ++ rest).extractLsb' 0 26 = rest := by
  apply BitVec.eq_of_getLsbD_eq
  intro i hi
  simp only [BitVec.getLsbD_extractLsb', BitVec.getLsbD_append]
  simp [hi]

/-- A word with these numbers put in has them. -/
@[simp] theorem OpcodeNumbers.selects_put (n : OpcodeNumbers) (w : Word) : n.selects (n.put w) = true := by
  obtain ⟨op, func⟩ := n
  cases func with
  | none => simp [OpcodeNumbers.selects, OpcodeNumbers.put, opField_append]
  | some func => simp [OpcodeNumbers.selects, OpcodeNumbers.put, opField_append_func, funcField_append]

/-- Numbers of one format replaced and put back leave the word as it was. -/
theorem OpcodeNumbers.put_put {n m : OpcodeNumbers} {w : Word} (hf : n.func.isSome = m.func.isSome)
    (hm : m.selects w = true) : m.put (n.put w) = w := by
  obtain ⟨op, func⟩ := n
  obtain ⟨op', func'⟩ := m
  cases func <;> cases func' <;> simp_all only [Option.isSome_none, Option.isSome_some, reduceCtorEq]
  · simp only [OpcodeNumbers.selects, Bool.and_true, beq_iff_eq] at hm
    simp only [OpcodeNumbers.put, extractLsb'_append_op, hm, word_eq]
  · simp only [OpcodeNumbers.selects, Bool.and_eq_true, beq_iff_eq] at hm
    simp only [OpcodeNumbers.put, extractLsb'_append_func, hm.1, hm.2, word_eq_func]

/-- What decoding under a list of rows can answer: the word with the numbers of the first row it meets
replaced by the default ones, decoded, or nothing where it meets none. -/
theorem decodeUnder_renumbered_cases (rows : List (OpcodeNumbers × OpcodeNumbers)) (w : Word) :
    (∃ r ∈ rows, r.1.selects w = true ∧ decodeUnder (.renumbered rows) w = decode (r.2.put w)) ∨
    ((∀ r ∈ rows, r.1.selects w = false) ∧ decodeUnder (.renumbered rows) w = .error .unassigned) := by
  cases h : rows.find? fun row => row.1.selects w with
  | none =>
    refine .inr ⟨?_, by simp only [decodeUnder, h]⟩
    simpa only [List.find?_eq_none, Bool.not_eq_true] using h
  | some r =>
    have hs := List.find?_some (p := fun row : OpcodeNumbers × OpcodeNumbers => row.1.selects w) h
    exact .inl ⟨r, List.mem_of_find?_eq_some h, hs, by simp only [decodeUnder, h]⟩

end Sys2Proof
end

