-- ==== Sys2Proof/Laws/Float.lean ====
section
/-! SUPPORT. The default floating-point record in exact numbers (`43_floating_point.md` R201): what
unpacking a finite pattern answers, and that rounding is exact wherever a pattern holds the number. -/

namespace Sys2Proof.Machine

/-- A power of two with an integer exponent, by natural ones. -/
theorem two_zpow_eq (k : ℤ) : (2 : ℚ) ^ k = 2 ^ k.toNat / 2 ^ (-k).toNat := by
  rcases le_total 0 k with h | h
  · rw [Int.toNat_of_nonpos (show -k ≤ 0 by omega), pow_zero, div_one, ← zpow_natCast, Int.toNat_of_nonneg h]
  · rw [Int.toNat_of_nonpos h, pow_zero, ← zpow_natCast, Int.toNat_of_nonneg (by omega), one_div,
      ← zpow_neg, neg_neg]

/-- The base-two logarithm of a natural number bounds it. -/
theorem log2_bounds {n : ℕ} (hn : 0 < n) :
    (2 : ℚ) ^ (n.log2 : ℤ) ≤ n ∧ (n : ℚ) < 2 ^ ((n.log2 : ℤ) + 1) := by
  have h1 : 2 ^ n.log2 ≤ n := Nat.log2_self_le (by omega)
  have h2 : n < 2 ^ (n.log2 + 1) := Nat.lt_log2_self
  constructor
  · rw [zpow_natCast]; exact_mod_cast h1
  · rw [← Nat.cast_one, ← Nat.cast_add, zpow_natCast]; exact_mod_cast h2

/-- `floorLog2` is the integer part of the binary logarithm. -/
theorem floorLog2_bounds {n d : ℕ} (hn : 0 < n) (hd : 0 < d) :
    (2 : ℚ) ^ floorLog2 n d ≤ n / d ∧ (n : ℚ) / d < 2 ^ (floorLog2 n d + 1) := by
  obtain ⟨n1, n2⟩ := log2_bounds hn
  obtain ⟨d1, d2⟩ := log2_bounds hd
  have hd' : (0 : ℚ) < d := by exact_mod_cast hd
  have two : (2 : ℚ) ≠ 0 := by norm_num
  have key : d * 2 ^ ((n.log2 : ℤ) - d.log2).toNat ≤ n * 2 ^ (-((n.log2 : ℤ) - d.log2)).toNat ↔
      (2 : ℚ) ^ ((n.log2 : ℤ) - d.log2) ≤ n / d := by
    rw [two_zpow_eq, div_le_div_iff₀ (by positivity) hd', mul_comm ((2 : ℚ) ^ _) (d : ℚ)]
    exact_mod_cast Iff.rfl
  unfold floorLog2
  simp only
  split_ifs with h
  · refine ⟨key.1 h, ?_⟩
    rw [div_lt_iff₀ hd']
    refine lt_of_lt_of_le n2 ?_
    calc (2 : ℚ) ^ ((n.log2 : ℤ) + 1) = 2 ^ ((n.log2 : ℤ) - d.log2 + 1) * 2 ^ (d.log2 : ℤ) := by
          rw [← zpow_add₀ two]; congr 1; ring
      _ ≤ _ := by gcongr
  · rw [key, not_le] at h
    refine ⟨?_, by simpa using h⟩
    rw [le_div_iff₀ hd']
    refine le_trans ?_ n1
    calc (2 : ℚ) ^ ((n.log2 : ℤ) - d.log2 - 1) * d
        ≤ 2 ^ ((n.log2 : ℤ) - d.log2 - 1) * 2 ^ ((d.log2 : ℤ) + 1) := by gcongr
      _ = 2 ^ (n.log2 : ℤ) := by rw [← zpow_add₀ two]; congr 1; ring

/-- An integer quotient needs no rounding. -/
theorem nearestEven_mul {m d : ℕ} (hd : 0 < d) : nearestEven (m * d) d = m := by
  unfold nearestEven
  simp only [Nat.mul_div_cancel m hd, Nat.mul_mod_left, Nat.mul_zero]
  split_ifs with h <;> omega

/-- The mantissa and exponent that a format has for a number. -/
structure CanonicalPair (fmt : FPFormat) (m : ℕ) (k : ℤ) : Prop where
  pos : 0 < m
  lt : m < 2 ^ (fmt.fracBits + 1)
  min : minExp fmt ≤ k
  normal : 2 ^ fmt.fracBits ≤ m ∨ k = minExp fmt
  bound : (k - minExp fmt).toNat * 2 ^ fmt.fracBits + m ≤ infinityBits fmt

/-- Rounding is exact on a number that the format holds (R201). -/
theorem roundRatio_exact {fmt : FPFormat} {neg : Bool} {n d m : ℕ} {e k : ℤ} (hd : 0 < d)
    (hc : CanonicalPair fmt m k) (h : (n : ℚ) / d * 2 ^ e = m * 2 ^ k) :
    roundRatio fmt neg n d e = signBits fmt neg + ((k - minExp fmt).toNat * 2 ^ fmt.fracBits + m) := by
  have two : (2 : ℚ) ≠ 0 := by norm_num
  have hd' : (0 : ℚ) < d := by exact_mod_cast hd
  have hm' : (0 : ℚ) < m := by exact_mod_cast hc.pos
  have hn : 0 < n := by
    rcases Nat.eq_zero_or_pos n with rfl | hn
    · simp only [Nat.cast_zero, zero_div, zero_mul] at h
      exact absurd h.symm (by positivity)
    · exact hn
  obtain ⟨l1, l2⟩ := floorLog2_bounds hn hd
  have lo : (2 : ℚ) ^ (floorLog2 n d + e) ≤ m * 2 ^ k := by
    rw [← h, zpow_add₀ two]; gcongr
  have hi : (m : ℚ) * 2 ^ k < 2 ^ (floorLog2 n d + e + 1) := by
    rw [← h, show floorLog2 n d + e + 1 = floorLog2 n d + 1 + e by ring, zpow_add₀ two (floorLog2 n d + 1)]
    gcongr
  have top : (m : ℚ) * 2 ^ k < 2 ^ ((fmt.fracBits : ℤ) + 1 + k) := by
    rw [zpow_add₀ two _ k]
    have : (m : ℚ) < 2 ^ ((fmt.fracBits : ℤ) + 1) := by
      rw [← Nat.cast_one, ← Nat.cast_add, zpow_natCast]; exact_mod_cast hc.lt
    gcongr
  have up : floorLog2 n d + e ≤ fmt.fracBits + k := by
    have := (zpow_lt_zpow_iff_right₀ (by norm_num : (1 : ℚ) < 2)).1 (lt_of_le_of_lt lo top)
    omega
  have q : max (floorLog2 n d + e - fmt.fracBits) (minExp fmt) = k := by
    have := hc.min
    rcases hc.normal with hM | hM
    · have bot : (2 : ℚ) ^ ((fmt.fracBits : ℤ) + k) ≤ m * 2 ^ k := by
        rw [zpow_add₀ two _ k]
        have : (2 : ℚ) ^ (fmt.fracBits : ℤ) ≤ m := by rw [zpow_natCast]; exact_mod_cast hM
        gcongr
      have := (zpow_lt_zpow_iff_right₀ (by norm_num : (1 : ℚ) < 2)).1 (lt_of_le_of_lt bot hi)
      omega
    · omega
  have quot : n * 2 ^ (e - k).toNat = m * (d * 2 ^ (k - e).toNat) := by
    have e1 : (n : ℚ) * 2 ^ (e - k) = m * d := by
      rw [zpow_sub₀ two]
      field_simp
      field_simp at h
      linarith
    rw [two_zpow_eq, show -(e - k) = k - e by ring] at e1
    have e2 : (n : ℚ) * 2 ^ (e - k).toNat = m * (d * 2 ^ (k - e).toNat) := by
      field_simp at e1
      linarith
    exact_mod_cast e2
  unfold roundRatio
  simp only [Nat.pos_iff_ne_zero.1 hn, if_false]
  rw [q, quot, nearestEven_mul (by positivity), min_eq_left hc.bound]

/-- The sign of a number as a factor. -/
def signFactor (neg : Bool) : ℚ := if neg then -1 else 1

/-- The number of a single, from its fields (R201). -/
theorem singleValue_of {a : Word} {neg : Bool} {e frac : ℕ} (hs : a.getLsbD 31 = neg)
    (he : (a.extractLsb' 23 8).toNat = e) (hf : (a.extractLsb' 0 23).toNat = frac) (h : e ≠ 255) :
    singleValue a = some (if e = 0 then signFactor neg * frac * 2 ^ (-149 : ℤ)
      else signFactor neg * (2 ^ 23 + frac) * 2 ^ ((e : ℤ) - 150)) := by
  unfold singleValue
  rw [hs, he, hf, if_neg h]
  by_cases h0 : e = 0
  · rw [if_pos h0, if_pos h0]; rfl
  · rw [if_neg h0, if_neg h0]; rfl

/-- The number of a double, from its fields (R201). -/
theorem doubleValue_of {a : Dword} {neg : Bool} {e frac : ℕ} (hs : a.getLsbD 63 = neg)
    (he : (a.extractLsb' 52 11).toNat = e) (hf : (a.extractLsb' 0 52).toNat = frac) (h : e ≠ 2047) :
    doubleValue a = some (if e = 0 then signFactor neg * frac * 2 ^ (-1074 : ℤ)
      else signFactor neg * (2 ^ 52 + frac) * 2 ^ ((e : ℤ) - 1075)) := by
  unfold doubleValue
  rw [hs, he, hf, if_neg h]
  by_cases h0 : e = 0
  · rw [if_pos h0, if_pos h0]; rfl
  · rw [if_neg h0, if_neg h0]; rfl

/-- Unpacking a finite pattern answers its sign and a mantissa and exponent of the number that `value`
gives it, from which the pattern is put together again. -/
def Unpacks (fmt : FPFormat) {w : ℕ} (value : BitVec w → Option ℚ) : Prop :=
  ∀ (a : BitVec w) (x : ℚ), value a = some x → ∃ (m : ℕ) (e : ℤ),
    unpack fmt a.toNat = .finite a.msb m e ∧ x = signFactor a.msb * (m * 2 ^ e) ∧
    (0 < m → CanonicalPair fmt m e) ∧
    a.toNat = signBits fmt a.msb + ((e - minExp fmt).toNat * 2 ^ fmt.fracBits + m)

/-- Single precision unpacks (R201). -/
theorem unpacks_single : Unpacks single singleValue := by
  intro a x h
  have hlt := a.isLt
  have hq : a.toNat / 2 ^ 31 = if 2 ^ 31 ≤ a.toNat then 1 else 0 := by split_ifs <;> omega
  have hmsb : a.msb = (a.toNat / 2 ^ 31 % 2 == 1) := by
    rw [BitVec.msb_eq_decide, hq]
    by_cases hs : 2 ^ (32 - 1) ≤ a.toNat
    · rw [decide_eq_true hs, if_pos hs]; rfl
    · rw [decide_eq_false hs, if_neg hs]; rfl
  have hsign : signBits single a.msb = a.toNat / 2 ^ 31 * 2 ^ 31 := by
    rw [hmsb, hq]
    split_ifs <;> rfl
  have hval : singleValue a = if a.toNat / 2 ^ 23 % 2 ^ 8 = 255 then none
      else if a.toNat / 2 ^ 23 % 2 ^ 8 = 0 then
        some (signFactor a.msb * (a.toNat % 2 ^ 23 : ℕ) * 2 ^ (-149 : ℤ))
      else some (signFactor a.msb * (2 ^ 23 + (a.toNat % 2 ^ 23 : ℕ)) *
        2 ^ (((a.toNat / 2 ^ 23 % 2 ^ 8 : ℕ) : ℤ) - 150)) := by
    have hf : (a.extractLsb' 0 23).toNat = a.toNat % 2 ^ 23 := by
      rw [BitVec.extractLsb'_toNat, Nat.shiftRight_zero]
    have he : (a.extractLsb' 23 8).toNat = a.toNat / 2 ^ 23 % 2 ^ 8 := by
      rw [BitVec.extractLsb'_toNat, Nat.shiftRight_eq_div_pow]
    unfold singleValue
    rw [hf, he]
    rfl
  have hun : unpack single a.toNat = if a.toNat / 2 ^ 23 % 2 ^ 8 = 255 then
      (if a.toNat % 2 ^ 23 = 0 then .inf a.msb else .nan)
    else if a.toNat / 2 ^ 23 % 2 ^ 8 = 0 then .finite a.msb (a.toNat % 2 ^ 23) (-149)
    else .finite a.msb (2 ^ 23 + a.toNat % 2 ^ 23) (-149 + (a.toNat / 2 ^ 23 % 2 ^ 8 - 1 : ℕ)) := by
    rw [hmsb]; rfl
  have hmin : minExp single = -149 := rfl
  rw [hval] at h
  rw [hun, hmin]
  by_cases h1 : a.toNat / 2 ^ 23 % 2 ^ 8 = 255
  · rw [if_pos h1] at h; cases h
  rw [if_neg h1] at h ⊢
  by_cases h2 : a.toNat / 2 ^ 23 % 2 ^ 8 = 0
  · rw [if_pos h2] at h ⊢
    refine ⟨_, _, rfl, ?_, fun hm => ⟨hm, ?_, le_rfl, .inr rfl, ?_⟩, ?_⟩
    · rw [← Option.some.inj h, mul_assoc]
    · show _ < 2 ^ 24; omega
    · rw [hmin, sub_self, Int.toNat_zero, Nat.zero_mul, Nat.zero_add]; show _ ≤ 255 * 2 ^ 23; omega
    · rw [hsign, sub_self, Int.toNat_zero, Nat.zero_mul, Nat.zero_add]; show _ = _ + _ % 2 ^ 23; omega
  · rw [if_neg h2] at h ⊢
    generalize he : a.toNat / 2 ^ 23 % 2 ^ 8 = e at *
    have hz : (-149 + (e - 1 : ℕ) - -149 : ℤ).toNat = e - 1 := by omega
    refine ⟨_, _, rfl, ?_, fun hm => ⟨hm, ?_, ?_, .inl (Nat.le_add_right _ _), ?_⟩, ?_⟩
    · rw [← Option.some.inj h, mul_assoc, show (-149 : ℤ) + (e - 1 : ℕ) = e - 150 by omega]
      push_cast; rfl
    · show _ < 2 ^ 24; omega
    · rw [hmin]; omega
    · rw [hmin, hz]; show _ * 2 ^ 23 + _ ≤ 255 * 2 ^ 23; omega
    · rw [hsign, hz]; show _ = _ + (_ * 2 ^ 23 + _); omega

/-- Double precision unpacks (R201). -/
theorem unpacks_double : Unpacks double doubleValue := by
  intro a x h
  have hlt := a.isLt
  have hq : a.toNat / 2 ^ 63 = if 2 ^ 63 ≤ a.toNat then 1 else 0 := by split_ifs <;> omega
  have hmsb : a.msb = (a.toNat / 2 ^ 63 % 2 == 1) := by
    rw [BitVec.msb_eq_decide, hq]
    by_cases hs : 2 ^ (64 - 1) ≤ a.toNat
    · rw [decide_eq_true hs, if_pos hs]; rfl
    · rw [decide_eq_false hs, if_neg hs]; rfl
  have hsign : signBits double a.msb = a.toNat / 2 ^ 63 * 2 ^ 63 := by
    rw [hmsb, hq]
    split_ifs <;> rfl
  have hval : doubleValue a = if a.toNat / 2 ^ 52 % 2 ^ 11 = 2047 then none
      else if a.toNat / 2 ^ 52 % 2 ^ 11 = 0 then
        some (signFactor a.msb * (a.toNat % 2 ^ 52 : ℕ) * 2 ^ (-1074 : ℤ))
      else some (signFactor a.msb * (2 ^ 52 + (a.toNat % 2 ^ 52 : ℕ)) *
        2 ^ (((a.toNat / 2 ^ 52 % 2 ^ 11 : ℕ) : ℤ) - 1075)) := by
    have hf : (a.extractLsb' 0 52).toNat = a.toNat % 2 ^ 52 := by
      rw [BitVec.extractLsb'_toNat, Nat.shiftRight_zero]
    have he : (a.extractLsb' 52 11).toNat = a.toNat / 2 ^ 52 % 2 ^ 11 := by
      rw [BitVec.extractLsb'_toNat, Nat.shiftRight_eq_div_pow]
    unfold doubleValue
    rw [hf, he]
    rfl
  have hun : unpack double a.toNat = if a.toNat / 2 ^ 52 % 2 ^ 11 = 2047 then
      (if a.toNat % 2 ^ 52 = 0 then .inf a.msb else .nan)
    else if a.toNat / 2 ^ 52 % 2 ^ 11 = 0 then .finite a.msb (a.toNat % 2 ^ 52) (-1074)
    else .finite a.msb (2 ^ 52 + a.toNat % 2 ^ 52) (-1074 + (a.toNat / 2 ^ 52 % 2 ^ 11 - 1 : ℕ)) := by
    rw [hmsb]; rfl
  have hmin : minExp double = -1074 := rfl
  rw [hval] at h
  rw [hun, hmin]
  by_cases h1 : a.toNat / 2 ^ 52 % 2 ^ 11 = 2047
  · rw [if_pos h1] at h; cases h
  rw [if_neg h1] at h ⊢
  by_cases h2 : a.toNat / 2 ^ 52 % 2 ^ 11 = 0
  · rw [if_pos h2] at h ⊢
    refine ⟨_, _, rfl, ?_, fun hm => ⟨hm, ?_, le_rfl, .inr rfl, ?_⟩, ?_⟩
    · rw [← Option.some.inj h, mul_assoc]
    · show _ < 2 ^ 53; omega
    · rw [hmin, sub_self, Int.toNat_zero, Nat.zero_mul, Nat.zero_add]; show _ ≤ 2047 * 2 ^ 52; omega
    · rw [hsign, sub_self, Int.toNat_zero, Nat.zero_mul, Nat.zero_add]; show _ = _ + _ % 2 ^ 52; omega
  · rw [if_neg h2] at h ⊢
    generalize he : a.toNat / 2 ^ 52 % 2 ^ 11 = e at *
    have hz : (-1074 + (e - 1 : ℕ) - -1074 : ℤ).toNat = e - 1 := by omega
    refine ⟨_, _, rfl, ?_, fun hm => ⟨hm, ?_, ?_, .inl (Nat.le_add_right _ _), ?_⟩, ?_⟩
    · rw [← Option.some.inj h, mul_assoc, show (-1074 : ℤ) + (e - 1 : ℕ) = e - 1075 by omega]
      push_cast; rfl
    · show _ < 2 ^ 53; omega
    · rw [hmin]; omega
    · rw [hmin, hz]; show _ * 2 ^ 52 + _ ≤ 2047 * 2 ^ 52; omega
    · rw [hsign, hz]; show _ = _ + (_ * 2 ^ 52 + _); omega

/-- A rounded number other than zero that some pattern holds is that pattern (R201). -/
theorem rounded_exact {fmt : FPFormat} {w : ℕ} {value : BitVec w → Option ℚ} (hv : Unpacks fmt value)
    {c : BitVec w} {z : ℚ} (hc : value c = some z) (hz : z ≠ 0) {neg : Bool} {n d : ℕ} {e : ℤ} (hd : 0 < d)
    (h : signFactor neg * ((n : ℚ) / d * 2 ^ e) = z) : rounded fmt w neg n d e = .value c := by
  obtain ⟨m, k, -, hx, hm, hb⟩ := hv c z hc
  have hm0 : 0 < m := by
    rcases Nat.eq_zero_or_pos m with rfl | h0
    · simp only [Nat.cast_zero, zero_mul, mul_zero] at hx; exact absurd hx hz
    · exact h0
  have p1 : (0 : ℚ) ≤ (n : ℚ) / d * 2 ^ e := by positivity
  have p2 : (0 : ℚ) < (m : ℚ) * 2 ^ k := by
    have : (0 : ℚ) < m := by exact_mod_cast hm0
    positivity
  have hn : neg = c.msb ∧ (n : ℚ) / d * 2 ^ e = m * 2 ^ k := by
    rw [hx] at h
    unfold signFactor at h
    generalize c.msb = s at h ⊢
    cases neg <;> cases s <;> simp only [if_true, if_false, Bool.false_eq_true] at h <;>
      first | exact ⟨rfl, by linarith⟩ | (exfalso; linarith)
  unfold rounded
  rw [roundRatio_exact hd (hm hm0) hn.2, hn.1, ← hb, BitVec.ofNat_toNat, BitVec.setWidth_eq]

end Sys2Proof.Machine
end

