-- ==== Sys2Proof/Laws/State.lean ====
section
/-! SUPPORT. One lemma per field per update of the state, each true by `rfl`, so that no proof unfolds
a record update; then what the accessors read after an update of something else. -/

namespace Sys2Proof.Machine

variable (s : State)

@[simp] theorem State.setGpr_f (i : GReg) (v : Word) : (s.setGpr i v).f = s.f := rfl
@[simp] theorem State.setGpr_pc (i : GReg) (v : Word) : (s.setGpr i v).pc = s.pc := rfl
@[simp] theorem State.setGpr_iar (i : GReg) (v : Word) : (s.setGpr i v).iar = s.iar := rfl
@[simp] theorem State.setGpr_fpsr (i : GReg) (v : Word) : (s.setGpr i v).fpsr = s.fpsr := rfl
@[simp] theorem State.setGpr_mem (i : GReg) (v : Word) : (s.setGpr i v).mem = s.mem := rfl
@[simp] theorem State.setGpr_launch (i : GReg) (v : Word) : (s.setGpr i v).launch = s.launch := rfl
@[simp] theorem State.setGpr_draws (i : GReg) (v : Word) : (s.setGpr i v).draws = s.draws := rfl

@[simp] theorem State.setFpr_x (i : FReg) (v : Word) : (s.setFpr i v).x = s.x := rfl
@[simp] theorem State.setFpr_pc (i : FReg) (v : Word) : (s.setFpr i v).pc = s.pc := rfl
@[simp] theorem State.setFpr_iar (i : FReg) (v : Word) : (s.setFpr i v).iar = s.iar := rfl
@[simp] theorem State.setFpr_fpsr (i : FReg) (v : Word) : (s.setFpr i v).fpsr = s.fpsr := rfl
@[simp] theorem State.setFpr_mem (i : FReg) (v : Word) : (s.setFpr i v).mem = s.mem := rfl
@[simp] theorem State.setFpr_launch (i : FReg) (v : Word) : (s.setFpr i v).launch = s.launch := rfl
@[simp] theorem State.setFpr_draws (i : FReg) (v : Word) : (s.setFpr i v).draws = s.draws := rfl

@[simp] theorem State.setDpr_x (i : FReg) (v : Dword) : (s.setDpr i v).x = s.x := rfl
@[simp] theorem State.setDpr_pc (i : FReg) (v : Dword) : (s.setDpr i v).pc = s.pc := rfl
@[simp] theorem State.setDpr_iar (i : FReg) (v : Dword) : (s.setDpr i v).iar = s.iar := rfl
@[simp] theorem State.setDpr_fpsr (i : FReg) (v : Dword) : (s.setDpr i v).fpsr = s.fpsr := rfl
@[simp] theorem State.setDpr_mem (i : FReg) (v : Dword) : (s.setDpr i v).mem = s.mem := rfl
@[simp] theorem State.setDpr_launch (i : FReg) (v : Dword) : (s.setDpr i v).launch = s.launch := rfl
@[simp] theorem State.setDpr_draws (i : FReg) (v : Dword) : (s.setDpr i v).draws = s.draws := rfl

@[simp] theorem State.setIar_x (v : Word) : (s.setIar v).x = s.x := rfl
@[simp] theorem State.setIar_f (v : Word) : (s.setIar v).f = s.f := rfl
@[simp] theorem State.setIar_pc (v : Word) : (s.setIar v).pc = s.pc := rfl
@[simp] theorem State.setIar_iar (v : Word) : (s.setIar v).iar = v := rfl
@[simp] theorem State.setIar_fpsr (v : Word) : (s.setIar v).fpsr = s.fpsr := rfl
@[simp] theorem State.setIar_mem (v : Word) : (s.setIar v).mem = s.mem := rfl
@[simp] theorem State.setIar_launch (v : Word) : (s.setIar v).launch = s.launch := rfl
@[simp] theorem State.setIar_draws (v : Word) : (s.setIar v).draws = s.draws := rfl

@[simp] theorem State.setFpsr_x (v : BitVec 1) : (s.setFpsr v).x = s.x := rfl
@[simp] theorem State.setFpsr_f (v : BitVec 1) : (s.setFpsr v).f = s.f := rfl
@[simp] theorem State.setFpsr_pc (v : BitVec 1) : (s.setFpsr v).pc = s.pc := rfl
@[simp] theorem State.setFpsr_iar (v : BitVec 1) : (s.setFpsr v).iar = s.iar := rfl
@[simp] theorem State.setFpsr_fpsr (v : BitVec 1) : (s.setFpsr v).fpsr = v := rfl
@[simp] theorem State.setFpsr_mem (v : BitVec 1) : (s.setFpsr v).mem = s.mem := rfl
@[simp] theorem State.setFpsr_launch (v : BitVec 1) : (s.setFpsr v).launch = s.launch := rfl
@[simp] theorem State.setFpsr_draws (v : BitVec 1) : (s.setFpsr v).draws = s.draws := rfl

@[simp] theorem State.setPc_x (v : Word) : (s.setPc v).x = s.x := rfl
@[simp] theorem State.setPc_f (v : Word) : (s.setPc v).f = s.f := rfl
@[simp] theorem State.setPc_pc (v : Word) : (s.setPc v).pc = v := rfl
@[simp] theorem State.setPc_iar (v : Word) : (s.setPc v).iar = s.iar := rfl
@[simp] theorem State.setPc_fpsr (v : Word) : (s.setPc v).fpsr = s.fpsr := rfl
@[simp] theorem State.setPc_mem (v : Word) : (s.setPc v).mem = s.mem := rfl
@[simp] theorem State.setPc_launch (v : Word) : (s.setPc v).launch = s.launch := rfl
@[simp] theorem State.setPc_draws (v : Word) : (s.setPc v).draws = s.draws := rfl

@[simp] theorem State.advance_x : s.advance.x = s.x := rfl
@[simp] theorem State.advance_f : s.advance.f = s.f := rfl
@[simp] theorem State.advance_pc : s.advance.pc = s.pc + 4#32 := rfl
@[simp] theorem State.advance_iar : s.advance.iar = s.iar := rfl
@[simp] theorem State.advance_fpsr : s.advance.fpsr = s.fpsr := rfl
@[simp] theorem State.advance_mem : s.advance.mem = s.mem := rfl
@[simp] theorem State.advance_launch : s.advance.launch = s.launch := rfl
@[simp] theorem State.advance_draws : s.advance.draws = s.draws := rfl

@[simp] theorem State.countDraw_x : s.countDraw.x = s.x := rfl
@[simp] theorem State.countDraw_f : s.countDraw.f = s.f := rfl
@[simp] theorem State.countDraw_pc : s.countDraw.pc = s.pc := rfl
@[simp] theorem State.countDraw_iar : s.countDraw.iar = s.iar := rfl
@[simp] theorem State.countDraw_fpsr : s.countDraw.fpsr = s.fpsr := rfl
@[simp] theorem State.countDraw_mem : s.countDraw.mem = s.mem := rfl
@[simp] theorem State.countDraw_launch : s.countDraw.launch = s.launch := rfl
@[simp] theorem State.countDraw_draws : s.countDraw.draws = s.draws + 1 := rfl

@[simp] theorem State.setByte_x (a : Word) (v : Byte) : (s.setByte a v).x = s.x := rfl
@[simp] theorem State.setByte_f (a : Word) (v : Byte) : (s.setByte a v).f = s.f := rfl
@[simp] theorem State.setByte_pc (a : Word) (v : Byte) : (s.setByte a v).pc = s.pc := rfl
@[simp] theorem State.setByte_iar (a : Word) (v : Byte) : (s.setByte a v).iar = s.iar := rfl
@[simp] theorem State.setByte_fpsr (a : Word) (v : Byte) : (s.setByte a v).fpsr = s.fpsr := rfl
@[simp] theorem State.setByte_mem (a : Word) (v : Byte) : (s.setByte a v).mem = s.mem.write8 a v := rfl
@[simp] theorem State.setByte_launch (a : Word) (v : Byte) : (s.setByte a v).launch = s.launch := rfl
@[simp] theorem State.setByte_draws (a : Word) (v : Byte) : (s.setByte a v).draws = s.draws := rfl

@[simp] theorem State.setHalf_x (a : Word) (v : Half) : (s.setHalf a v).x = s.x := rfl
@[simp] theorem State.setHalf_f (a : Word) (v : Half) : (s.setHalf a v).f = s.f := rfl
@[simp] theorem State.setHalf_pc (a : Word) (v : Half) : (s.setHalf a v).pc = s.pc := rfl
@[simp] theorem State.setHalf_iar (a : Word) (v : Half) : (s.setHalf a v).iar = s.iar := rfl
@[simp] theorem State.setHalf_fpsr (a : Word) (v : Half) : (s.setHalf a v).fpsr = s.fpsr := rfl
@[simp] theorem State.setHalf_mem (a : Word) (v : Half) : (s.setHalf a v).mem = s.mem.write16 a v := rfl
@[simp] theorem State.setHalf_launch (a : Word) (v : Half) : (s.setHalf a v).launch = s.launch := rfl
@[simp] theorem State.setHalf_draws (a : Word) (v : Half) : (s.setHalf a v).draws = s.draws := rfl

@[simp] theorem State.setWord_x (a : Word) (v : Word) : (s.setWord a v).x = s.x := rfl
@[simp] theorem State.setWord_f (a : Word) (v : Word) : (s.setWord a v).f = s.f := rfl
@[simp] theorem State.setWord_pc (a : Word) (v : Word) : (s.setWord a v).pc = s.pc := rfl
@[simp] theorem State.setWord_iar (a : Word) (v : Word) : (s.setWord a v).iar = s.iar := rfl
@[simp] theorem State.setWord_fpsr (a : Word) (v : Word) : (s.setWord a v).fpsr = s.fpsr := rfl
@[simp] theorem State.setWord_mem (a : Word) (v : Word) : (s.setWord a v).mem = s.mem.write32 a v := rfl
@[simp] theorem State.setWord_launch (a : Word) (v : Word) : (s.setWord a v).launch = s.launch := rfl
@[simp] theorem State.setWord_draws (a : Word) (v : Word) : (s.setWord a v).draws = s.draws := rfl

@[simp] theorem State.setDword_x (a : Word) (v : Dword) : (s.setDword a v).x = s.x := rfl
@[simp] theorem State.setDword_f (a : Word) (v : Dword) : (s.setDword a v).f = s.f := rfl
@[simp] theorem State.setDword_pc (a : Word) (v : Dword) : (s.setDword a v).pc = s.pc := rfl
@[simp] theorem State.setDword_iar (a : Word) (v : Dword) : (s.setDword a v).iar = s.iar := rfl
@[simp] theorem State.setDword_fpsr (a : Word) (v : Dword) : (s.setDword a v).fpsr = s.fpsr := rfl
@[simp] theorem State.setDword_mem (a : Word) (v : Dword) : (s.setDword a v).mem = s.mem.write64 a v := rfl
@[simp] theorem State.setDword_launch (a : Word) (v : Dword) : (s.setDword a v).launch = s.launch := rfl
@[simp] theorem State.setDword_draws (a : Word) (v : Dword) : (s.setDword a v).draws = s.draws := rfl

@[simp] theorem State.nextPc_eq : s.nextPc = s.pc + 4#32 := rfl

@[simp] theorem State.setGpr_fpr (i : GReg) (v : Word) (r : FReg) : (s.setGpr i v).fpr r = s.fpr r := rfl
@[simp] theorem State.setGpr_dpr (i : GReg) (v : Word) (r : FReg) : (s.setGpr i v).dpr r = s.dpr r := rfl
@[simp] theorem State.setGpr_byteAt (i : GReg) (v : Word) (b : Word) : (s.setGpr i v).byteAt b = s.byteAt b := rfl
@[simp] theorem State.setGpr_halfAt (i : GReg) (v : Word) (b : Word) : (s.setGpr i v).halfAt b = s.halfAt b := rfl
@[simp] theorem State.setGpr_wordAt (i : GReg) (v : Word) (b : Word) : (s.setGpr i v).wordAt b = s.wordAt b := rfl
@[simp] theorem State.setGpr_dwordAt (i : GReg) (v : Word) (b : Word) : (s.setGpr i v).dwordAt b = s.dwordAt b := rfl

@[simp] theorem State.setFpr_gpr (i : FReg) (v : Word) (r : GReg) : (s.setFpr i v).gpr r = s.gpr r := rfl
@[simp] theorem State.setFpr_byteAt (i : FReg) (v : Word) (b : Word) : (s.setFpr i v).byteAt b = s.byteAt b := rfl
@[simp] theorem State.setFpr_halfAt (i : FReg) (v : Word) (b : Word) : (s.setFpr i v).halfAt b = s.halfAt b := rfl
@[simp] theorem State.setFpr_wordAt (i : FReg) (v : Word) (b : Word) : (s.setFpr i v).wordAt b = s.wordAt b := rfl
@[simp] theorem State.setFpr_dwordAt (i : FReg) (v : Word) (b : Word) : (s.setFpr i v).dwordAt b = s.dwordAt b := rfl

@[simp] theorem State.setDpr_gpr (i : FReg) (v : Dword) (r : GReg) : (s.setDpr i v).gpr r = s.gpr r := rfl
@[simp] theorem State.setDpr_byteAt (i : FReg) (v : Dword) (b : Word) : (s.setDpr i v).byteAt b = s.byteAt b := rfl
@[simp] theorem State.setDpr_halfAt (i : FReg) (v : Dword) (b : Word) : (s.setDpr i v).halfAt b = s.halfAt b := rfl
@[simp] theorem State.setDpr_wordAt (i : FReg) (v : Dword) (b : Word) : (s.setDpr i v).wordAt b = s.wordAt b := rfl
@[simp] theorem State.setDpr_dwordAt (i : FReg) (v : Dword) (b : Word) : (s.setDpr i v).dwordAt b = s.dwordAt b := rfl

@[simp] theorem State.setIar_gpr (v : Word) (r : GReg) : (s.setIar v).gpr r = s.gpr r := rfl
@[simp] theorem State.setIar_fpr (v : Word) (r : FReg) : (s.setIar v).fpr r = s.fpr r := rfl
@[simp] theorem State.setIar_dpr (v : Word) (r : FReg) : (s.setIar v).dpr r = s.dpr r := rfl
@[simp] theorem State.setIar_byteAt (v : Word) (b : Word) : (s.setIar v).byteAt b = s.byteAt b := rfl
@[simp] theorem State.setIar_halfAt (v : Word) (b : Word) : (s.setIar v).halfAt b = s.halfAt b := rfl
@[simp] theorem State.setIar_wordAt (v : Word) (b : Word) : (s.setIar v).wordAt b = s.wordAt b := rfl
@[simp] theorem State.setIar_dwordAt (v : Word) (b : Word) : (s.setIar v).dwordAt b = s.dwordAt b := rfl

@[simp] theorem State.setFpsr_gpr (v : BitVec 1) (r : GReg) : (s.setFpsr v).gpr r = s.gpr r := rfl
@[simp] theorem State.setFpsr_fpr (v : BitVec 1) (r : FReg) : (s.setFpsr v).fpr r = s.fpr r := rfl
@[simp] theorem State.setFpsr_dpr (v : BitVec 1) (r : FReg) : (s.setFpsr v).dpr r = s.dpr r := rfl
@[simp] theorem State.setFpsr_byteAt (v : BitVec 1) (b : Word) : (s.setFpsr v).byteAt b = s.byteAt b := rfl
@[simp] theorem State.setFpsr_halfAt (v : BitVec 1) (b : Word) : (s.setFpsr v).halfAt b = s.halfAt b := rfl
@[simp] theorem State.setFpsr_wordAt (v : BitVec 1) (b : Word) : (s.setFpsr v).wordAt b = s.wordAt b := rfl
@[simp] theorem State.setFpsr_dwordAt (v : BitVec 1) (b : Word) : (s.setFpsr v).dwordAt b = s.dwordAt b := rfl

@[simp] theorem State.setPc_gpr (v : Word) (r : GReg) : (s.setPc v).gpr r = s.gpr r := rfl
@[simp] theorem State.setPc_fpr (v : Word) (r : FReg) : (s.setPc v).fpr r = s.fpr r := rfl
@[simp] theorem State.setPc_dpr (v : Word) (r : FReg) : (s.setPc v).dpr r = s.dpr r := rfl
@[simp] theorem State.setPc_byteAt (v : Word) (b : Word) : (s.setPc v).byteAt b = s.byteAt b := rfl
@[simp] theorem State.setPc_halfAt (v : Word) (b : Word) : (s.setPc v).halfAt b = s.halfAt b := rfl
@[simp] theorem State.setPc_wordAt (v : Word) (b : Word) : (s.setPc v).wordAt b = s.wordAt b := rfl
@[simp] theorem State.setPc_dwordAt (v : Word) (b : Word) : (s.setPc v).dwordAt b = s.dwordAt b := rfl

@[simp] theorem State.advance_gpr (r : GReg) : s.advance.gpr r = s.gpr r := rfl
@[simp] theorem State.advance_fpr (r : FReg) : s.advance.fpr r = s.fpr r := rfl
@[simp] theorem State.advance_dpr (r : FReg) : s.advance.dpr r = s.dpr r := rfl
@[simp] theorem State.advance_byteAt (b : Word) : s.advance.byteAt b = s.byteAt b := rfl
@[simp] theorem State.advance_halfAt (b : Word) : s.advance.halfAt b = s.halfAt b := rfl
@[simp] theorem State.advance_wordAt (b : Word) : s.advance.wordAt b = s.wordAt b := rfl
@[simp] theorem State.advance_dwordAt (b : Word) : s.advance.dwordAt b = s.dwordAt b := rfl

@[simp] theorem State.countDraw_gpr (r : GReg) : s.countDraw.gpr r = s.gpr r := rfl
@[simp] theorem State.countDraw_fpr (r : FReg) : s.countDraw.fpr r = s.fpr r := rfl
@[simp] theorem State.countDraw_dpr (r : FReg) : s.countDraw.dpr r = s.dpr r := rfl
@[simp] theorem State.countDraw_byteAt (b : Word) : s.countDraw.byteAt b = s.byteAt b := rfl
@[simp] theorem State.countDraw_halfAt (b : Word) : s.countDraw.halfAt b = s.halfAt b := rfl
@[simp] theorem State.countDraw_wordAt (b : Word) : s.countDraw.wordAt b = s.wordAt b := rfl
@[simp] theorem State.countDraw_dwordAt (b : Word) : s.countDraw.dwordAt b = s.dwordAt b := rfl

@[simp] theorem State.setByte_gpr (a : Word) (v : Byte) (r : GReg) : (s.setByte a v).gpr r = s.gpr r := rfl
@[simp] theorem State.setByte_fpr (a : Word) (v : Byte) (r : FReg) : (s.setByte a v).fpr r = s.fpr r := rfl
@[simp] theorem State.setByte_dpr (a : Word) (v : Byte) (r : FReg) : (s.setByte a v).dpr r = s.dpr r := rfl

@[simp] theorem State.setHalf_gpr (a : Word) (v : Half) (r : GReg) : (s.setHalf a v).gpr r = s.gpr r := rfl
@[simp] theorem State.setHalf_fpr (a : Word) (v : Half) (r : FReg) : (s.setHalf a v).fpr r = s.fpr r := rfl
@[simp] theorem State.setHalf_dpr (a : Word) (v : Half) (r : FReg) : (s.setHalf a v).dpr r = s.dpr r := rfl

@[simp] theorem State.setWord_gpr (a : Word) (v : Word) (r : GReg) : (s.setWord a v).gpr r = s.gpr r := rfl
@[simp] theorem State.setWord_fpr (a : Word) (v : Word) (r : FReg) : (s.setWord a v).fpr r = s.fpr r := rfl
@[simp] theorem State.setWord_dpr (a : Word) (v : Word) (r : FReg) : (s.setWord a v).dpr r = s.dpr r := rfl

@[simp] theorem State.setDword_gpr (a : Word) (v : Dword) (r : GReg) : (s.setDword a v).gpr r = s.gpr r := rfl
@[simp] theorem State.setDword_fpr (a : Word) (v : Dword) (r : FReg) : (s.setDword a v).fpr r = s.fpr r := rfl
@[simp] theorem State.setDword_dpr (a : Word) (v : Dword) (r : FReg) : (s.setDword a v).dpr r = s.dpr r := rfl

end Sys2Proof.Machine
end

