-- ==== Sys2Proof/Laws/Memory.lean ====
section
/-! SUPPORT. Memory: read after write, frames, and the canonical form kept by every operation. -/

namespace Sys2Proof.Machine

/-! The list. -/

/-- A memory whose addresses start above `a` has no entry for `a`. -/
theorem Memory.read_of_wfFrom {m : Memory} {lo a : Nat} (h : Memory.wfFrom lo m = true) (ha : a < lo) :
    Memory.read m a = Config.unnamedByte := by
  cases m with
  | nil => rfl
  | cons p m =>
    obtain ⟨k, v⟩ := p
    simp only [Memory.wfFrom, Bool.and_eq_true, decide_eq_true_eq] at h
    have hk : a < k := by omega
    simp [Memory.read, hk, Nat.ne_of_lt hk]

/-- The canonical form from `lo` on is one from any smaller address on. -/
theorem Memory.wfFrom_mono {m : Memory} {lo lo' : Nat} (h : Memory.wfFrom lo m = true) (hl : lo' ≤ lo) :
    Memory.wfFrom lo' m = true := by
  cases m with
  | nil => rfl
  | cons p m =>
    obtain ⟨k, v⟩ := p
    simp only [Memory.wfFrom, Bool.and_eq_true, decide_eq_true_eq] at h ⊢
    exact ⟨⟨⟨by omega, h.1.1.2⟩, h.1.2⟩, h.2⟩

/-- An entry put in front of a memory in canonical form. -/
theorem Memory.wfFrom_entry {m : Memory} {lo a : Nat} {v : Byte} (hlo : lo ≤ a) (ha : a < 2 ^ 32)
    (h : Memory.wfFrom (a + 1) m = true) : Memory.wfFrom lo (memoryEntry a v ++ m) = true := by
  unfold memoryEntry
  by_cases hv : v = Config.unnamedByte
  · simpa [hv] using Memory.wfFrom_mono h (by omega)
  · simp only [hv, if_false, List.cons_append, List.nil_append, Memory.wfFrom, Bool.and_eq_true,
      decide_eq_true_eq]
    exact ⟨⟨⟨hlo, ha⟩, hv⟩, h⟩

/-- A write keeps the canonical form from `lo` on. -/
theorem Memory.write_wfFrom {m : Memory} {lo a : Nat} (v : Byte) (hlo : lo ≤ a) (ha : a < 2 ^ 32)
    (h : Memory.wfFrom lo m = true) : Memory.wfFrom lo (Memory.write m a v) = true := by
  induction m generalizing lo with
  | nil => simpa [Memory.write] using Memory.wfFrom_entry (m := []) (v := v) hlo ha rfl
  | cons p m ih =>
    obtain ⟨k, w⟩ := p
    have hc := h
    simp only [Memory.wfFrom, Bool.and_eq_true, decide_eq_true_eq] at hc
    unfold Memory.write
    split_ifs with h1 h2
    · subst h1; exact Memory.wfFrom_entry hlo ha hc.2
    · refine Memory.wfFrom_entry hlo ha ?_
      simp only [Memory.wfFrom, Bool.and_eq_true, decide_eq_true_eq]
      exact ⟨⟨⟨by omega, hc.1.1.2⟩, hc.1.2⟩, hc.2⟩
    · simp only [Memory.wfFrom, Bool.and_eq_true, decide_eq_true_eq]
      exact ⟨hc.1, ih (by omega) hc.2⟩

/-- What is read in front of a memory that has no entry at or below `a`. -/
theorem Memory.read_entry {m : Memory} {a : Nat} (v : Byte) (b : Nat)
    (h : ∀ c, c ≤ a → Memory.read m c = Config.unnamedByte) :
    Memory.read (memoryEntry a v ++ m) b = if b = a then v else Memory.read m b := by
  unfold memoryEntry
  by_cases hv : v = Config.unnamedByte
  · by_cases hb : b = a
    · subst hb; simp [hv, h b le_rfl]
    · simp [hv, hb]
  · by_cases hb : b = a
    · simp [hv, hb, Memory.read]
    · by_cases hlt : b < a
      · simp [hv, hb, hlt, Memory.read, h b (by omega)]
      · simp [hv, hb, hlt, Memory.read]

/-- Read after write, in a memory in canonical form. -/
theorem Memory.read_write {m : Memory} {lo : Nat} (h : Memory.wfFrom lo m = true) (a b : Nat) (v : Byte) :
    Memory.read (Memory.write m a v) b = if b = a then v else Memory.read m b := by
  induction m generalizing lo with
  | nil =>
    simpa [Memory.write] using Memory.read_entry (m := []) (a := a) v b (fun _ _ => rfl)
  | cons p m ih =>
    obtain ⟨k, w⟩ := p
    have hc := h
    simp only [Memory.wfFrom, Bool.and_eq_true, decide_eq_true_eq] at hc
    have hk : Memory.wfFrom k ((k, w) :: m) = true := by
      simp only [Memory.wfFrom, Bool.and_eq_true, decide_eq_true_eq]
      exact ⟨⟨⟨le_rfl, hc.1.1.2⟩, hc.1.2⟩, hc.2⟩
    unfold Memory.write
    by_cases h1 : a = k
    · subst h1
      rw [if_pos rfl, Memory.read_entry v b fun c hcle => Memory.read_of_wfFrom hc.2 (by omega)]
      by_cases hb : b = a
      · simp [hb]
      · by_cases hlt : b < a
        · simp [hb, hlt, Memory.read, Memory.read_of_wfFrom hc.2 (show b < a + 1 by omega)]
        · simp [hb, hlt, Memory.read]
    · rw [if_neg h1]
      by_cases h2 : a < k
      · rw [if_pos h2, Memory.read_entry v b fun c hcle => Memory.read_of_wfFrom hk (by omega)]
      · rw [if_neg h2]
        simp only [Memory.read, ih hc.2]
        by_cases hb : b = a
        · subst hb; simp [h1, h2]
        · simp [hb]

/-! The accesses of a word address. -/

theorem Memory.write8_wf {m : Memory} (a : Word) (v : Byte) (h : m.wf = true) : (m.write8 a v).wf = true :=
  Memory.write_wfFrom v (Nat.zero_le _) a.isLt h

theorem Memory.write16_wf {m : Memory} (a : Word) (v : Half) (h : m.wf = true) : (m.write16 a v).wf = true :=
  Memory.write8_wf _ _ (Memory.write8_wf _ _ h)

theorem Memory.write32_wf {m : Memory} (a : Word) (v : Word) (h : m.wf = true) : (m.write32 a v).wf = true :=
  Memory.write16_wf _ _ (Memory.write16_wf _ _ h)

theorem Memory.write64_wf {m : Memory} (a : Word) (v : Dword) (h : m.wf = true) : (m.write64 a v).wf = true :=
  Memory.write32_wf _ _ (Memory.write32_wf _ _ h)

/-- Read after a write of one byte (R65). -/
theorem Memory.read_write8 {m : Memory} (h : m.wf = true) (a b : Word) (v : Byte) :
    Memory.read (m.write8 a v) b.toNat = if b = a then v else Memory.read m b.toNat := by
  unfold Memory.write8
  rw [Memory.read_write h]
  by_cases hb : b = a
  · simp [hb]
  · have : b.toNat ≠ a.toNat := fun hn => hb (BitVec.eq_of_toNat_eq hn)
    simp [hb, this]

end Sys2Proof.Machine
end

