-- ==== Sys2Proof/Laws/Registers.lean ====
section
/-! SUPPORT. What the register accessors read after a register write (R10, R22, R26). -/

namespace Sys2Proof.Machine

variable (s : State)

/-- R0 reads zero (R22). -/
@[simp] theorem State.gpr_zero : s.gpr 0#5 = 0#32 := rfl

theorem State.gpr_setGpr (i r : GReg) (v : Word) :
    (s.setGpr i v).gpr r = if r = i ∧ i ≠ 0#5 then v else s.gpr r := by
  unfold State.gpr State.setGpr
  by_cases hi : i = 0#5
  · simp [hi]
  · by_cases hr : r = i
    · subst hr; simp [hi]
    · have hne : i.toNat ≠ r.toNat := fun h => hr (BitVec.eq_of_toNat_eq h.symm)
      simp [hi, hr, Vector.getElem_set_ne _ _ hne]

@[simp] theorem State.gpr_setGpr_self (i : GReg) (v : Word) :
    (s.setGpr i v).gpr i = if i = 0#5 then 0#32 else v := by
  rw [State.gpr_setGpr]
  by_cases hi : i = 0#5 <;> simp [hi]

theorem State.gpr_setGpr_of_ne {i r : GReg} (h : r ≠ i) (v : Word) :
    (s.setGpr i v).gpr r = s.gpr r := by
  rw [State.gpr_setGpr]; simp [h]

theorem State.fpr_setFpr (i r : FReg) (v : Word) :
    (s.setFpr i v).fpr r = if r = i then v else s.fpr r := by
  unfold State.fpr State.setFpr
  by_cases hr : r = i
  · subst hr; simp
  · have hne : i.toNat ≠ r.toNat := fun h => hr (BitVec.eq_of_toNat_eq h.symm)
    simp [hr, Vector.getElem_set_ne _ _ hne]

@[simp] theorem State.fpr_setFpr_self (i : FReg) (v : Word) : (s.setFpr i v).fpr i = v := by
  rw [State.fpr_setFpr]; simp

theorem State.fpr_setFpr_of_ne {i r : FReg} (h : r ≠ i) (v : Word) :
    (s.setFpr i v).fpr r = s.fpr r := by
  rw [State.fpr_setFpr]; simp [h]

/-- A register and its successor are two. -/
theorem reg_ne_succ (i : FReg) : i ≠ i + 1#5 := by
  revert i; decide

/-- What an FPR reads after a pair is written (R26). -/
theorem State.fpr_setDpr (i r : FReg) (v : Dword) :
    (s.setDpr i v).fpr r =
      if r = i + 1#5 then v.extractLsb' 0 32 else if r = i then v.extractLsb' 32 32 else s.fpr r := by
  unfold State.setDpr
  rw [State.fpr_setFpr, State.fpr_setFpr]

/-- Writing a register keeps slot 0. -/
theorem State.setGpr_slot_zero (i : GReg) (v : Word) : (s.setGpr i v).x[0] = s.x[0] := by
  unfold State.setGpr
  by_cases hi : i = 0#5
  · simp [hi]
  · have hne : i.toNat ≠ 0 := fun h => hi (BitVec.eq_of_toNat_eq h)
    simp [hi, Vector.getElem_set_ne _ _ hne]

end Sys2Proof.Machine
end

