-- ==== Sys2Proof/Laws/Ops.lean ====
section
/-! SUPPORT. For each shared operation, once, everything it can answer; and the checks of an access in
the terms of `Safety.lean`. -/

namespace Sys2Proof.Machine

variable {s t : State}

/-! `raiseOr`. -/

@[simp] theorem raiseOr_none : raiseOr none t = .next t := rfl

@[simp] theorem raiseOr_some (r : Fault) : raiseOr (some r) t = .fault r := rfl

/-- A next state of `raiseOr` is the given one, and there was no fault. -/
theorem raiseOr_eq_next {f : Option Fault} {u : State} (h : raiseOr f t = .next u) : f = none ∧ u = t := by
  cases f with
  | none => exact ⟨rfl, by cases h; rfl⟩
  | some r => cases h

/-- A fault of `raiseOr` is the given one. -/
theorem raiseOr_eq_fault {f : Option Fault} {r : Fault} (h : raiseOr f t = .fault r) : f = some r := by
  cases f with
  | none => cases h
  | some r' => cases h; rfl

theorem raiseOr_ne_refused {f : Option Fault} {q : Refusal} : raiseOr f t ≠ .refused q := by
  cases f <;> exact nofun

/-! The checks of an access. -/

/-- The access check by bytes (R52). -/
theorem mapped_eq_true_iff (l : Launch) (a : Word) (n : Nat) :
    mapped l a n = true ↔ ∀ k, k < n → inRegions l.memMap (a + BitVec.ofNat 32 k) = true := by
  simp [mapped, bytesFrom]

/-- The check against `TEXT` by bytes (R68). -/
theorem meetsText_eq_false_iff (l : Launch) (a : Word) (n : Nat) :
    meetsText l a n = false ↔ ∀ k, k < n → ¬ inRegions l.text (a + BitVec.ofNat 32 k) = true := by
  simp [meetsText, bytesFrom]

theorem aligned_eq_true_iff (a : Word) (n : Nat) : aligned a n = true ↔ a.toNat % n = 0 := by
  simp [aligned]

theorem accessible_iff (a : Word) (n : Nat) :
    Accessible s a n ↔ aligned a n = true ∧ mapped s.launch a n = true := by
  rw [aligned_eq_true_iff, mapped_eq_true_iff]

theorem dataFault_eq_none_iff (a : Word) (n : Nat) (k : AccessKind) :
    dataFault s a n k = none ↔ Accessible s a n := by
  rw [accessible_iff]
  unfold dataFault
  cases aligned a n <;> cases mapped s.launch a n <;> simp

/-- What a data access check answers (R121). -/
theorem dataFault_cases (s : State) (a : Word) (n : Nat) (k : AccessKind) :
    (¬ a.toNat % n = 0 ∧ dataFault s a n k = some (.dataMisaligned s.pc a n)) ∨
    (a.toNat % n = 0 ∧ mapped s.launch a n = false ∧
      dataFault s a n k = some (.accessFault s.pc a n k)) ∨
    (Accessible s a n ∧ dataFault s a n k = none) := by
  rw [accessible_iff, ← aligned_eq_true_iff]
  unfold dataFault
  cases aligned a n <;> cases mapped s.launch a n <;> simp

theorem loadFault_eq_none (a : Word) (n : Nat) (h : Accessible s a n) : loadFault s a n = none :=
  (dataFault_eq_none_iff a n .load).2 h

theorem textFault_eq_none_iff (a : Word) (n : Nat) :
    textFault s a n = none ↔
      (s.launch.smc = .coherent ∨ ∀ k : Nat, k < n → ¬ InText s (a + BitVec.ofNat 32 k)) := by
  unfold textFault InText
  rw [← meetsText_eq_false_iff]
  cases s.launch.smc <;> cases meetsText s.launch a n <;> simp

theorem storeFault_eq_none_iff (a : Word) (n : Nat) : storeFault s a n = none ↔ Storable s a n := by
  unfold storeFault Storable
  rw [← dataFault_eq_none_iff a n .store, ← textFault_eq_none_iff]
  cases dataFault s a n .store <;> simp

/-- A store that its check admits under `refuse` misses `TEXT` (R68). -/
theorem not_inText_of_storeFault_eq_none {a : Word} {n : Nat} (h : storeFault s a n = none)
    (hs : s.launch.smc = .refuse) : ∀ k : Nat, k < n → ¬ InText s (a + BitVec.ofNat 32 k) := by
  have h' := ((storeFault_eq_none_iff a n).1 h).2
  simpa [hs] using h'

/-! Double-precision operands (R26, R202). -/

theorem even_iff (r : FReg) : EvenReg r ↔ r.getLsbD 0 = false := by
  revert r; decide

@[simp] theorem oddFault_of_even {r : FReg} (h : EvenReg r) : oddFault s r = none := by
  unfold oddFault
  rw [(even_iff r).1 h]
  rfl

theorem oddFault_of_odd {r : FReg} (h : ¬ EvenReg r) : oddFault s r = some (.oddFPRegister s.pc r) := by
  have : r.getLsbD 0 = true := by
    rw [even_iff] at h
    exact Bool.eq_true_of_not_eq_false h
  unfold oddFault
  rw [this]
  rfl

/-- With every operand even, the instruction goes on. -/
theorem withEven_of_even {regs : List FReg} {go : Host.Outcome State Fault Refusal}
    (h : ∀ r ∈ regs, EvenReg r) : withEven s regs go = go := by
  have : regs.findSome? (oddFault s) = none := by
    rw [List.findSome?_eq_none_iff]
    exact fun r hr => oddFault_of_even (h r hr)
  simp [withEven, this]

/-- The first odd operand is the one reported. -/
theorem withEven_cases (s : State) (regs : List FReg) (go : Host.Outcome State Fault Refusal) :
    (∃ r ∈ regs, ¬ EvenReg r ∧ withEven s regs go = .fault (.oddFPRegister s.pc r)) ∨
    ((∀ r ∈ regs, EvenReg r) ∧ withEven s regs go = go) := by
  by_cases h : ∀ r ∈ regs, EvenReg r
  · exact .inr ⟨h, withEven_of_even h⟩
  · left
    cases hf : regs.findSome? (oddFault s) with
    | none =>
      rw [List.findSome?_eq_none_iff] at hf
      refine absurd (fun r hr => ?_) h
      by_contra ho
      have := hf r hr
      rw [oddFault_of_odd ho] at this
      cases this
    | some f =>
      obtain ⟨r, hr, hrf⟩ := List.exists_of_findSome?_eq_some hf
      have ho : ¬ EvenReg r := fun he => by rw [oddFault_of_even he] at hrf; cases hrf
      rw [oddFault_of_odd ho] at hrf
      exact ⟨r, hr, ho, by simp only [withEven, hf]; cases hrf; rfl⟩

/-! Signed overflow (R151). -/

theorem signedResult_of_fits {b : Bool} {r : Int} (h : Fits r) :
    signedResult b r = some (BitVec.ofInt 32 r) := by
  unfold signedResult
  rw [if_pos h]

theorem signedResult_of_not_fits {b : Bool} {r : Int} (h : ¬ Fits r) :
    signedResult b r = if b then none else some (BitVec.ofInt 32 r) := by
  unfold signedResult
  rw [if_neg h]

/-- What a signed result does to a general register. -/
theorem signedToGpr_cases (s : State) (rd : GReg) (r : Int) :
    (¬ Fits r ∧ s.launch.ovfTraps = true ∧ signedToGpr s rd r = .fault (.integerOverflow s.pc)) ∨
    ((Fits r ∨ s.launch.ovfTraps = false) ∧
      signedToGpr s rd r = .next (s.setGpr rd (BitVec.ofInt 32 r)).advance) := by
  unfold signedToGpr
  by_cases h : Fits r
  · exact .inr ⟨.inl h, by rw [signedResult_of_fits h]⟩
  · rw [signedResult_of_not_fits h]
    cases hb : s.launch.ovfTraps
    · exact .inr ⟨.inr rfl, by simp⟩
    · exact .inl ⟨h, rfl, by simp⟩

/-- What a signed result does to a floating-point register. -/
theorem signedToFpr_cases (s : State) (rd : FReg) (r : Int) :
    (¬ Fits r ∧ s.launch.ovfTraps = true ∧ signedToFpr s rd r = .fault (.integerOverflow s.pc)) ∨
    ((Fits r ∨ s.launch.ovfTraps = false) ∧
      signedToFpr s rd r = .next (s.setFpr rd (BitVec.ofInt 32 r)).advance) := by
  unfold signedToFpr
  by_cases h : Fits r
  · exact .inr ⟨.inl h, by rw [signedResult_of_fits h]⟩
  · rw [signedResult_of_not_fits h]
    cases hb : s.launch.ovfTraps
    · exact .inr ⟨.inr rfl, by simp⟩
    · exact .inl ⟨h, rfl, by simp⟩

/-! Answers of the floating-point record (R200). -/

/-- What a comparison does. -/
theorem compareTo_cases (s : State) (o : Option Bool) :
    (o = none ∧ compareTo s o = .fault (.fpFault s.pc)) ∨
    (∃ b, o = some b ∧ compareTo s o = .next (s.setFpsr (flagBit b)).advance) := by
  cases o with
  | none => exact .inl ⟨rfl, rfl⟩
  | some b => exact .inr ⟨b, rfl, rfl⟩

/-- What an answer does to a floating-point register: a fault, or a value with or without a draw. -/
theorem answerToFpr_cases (s : State) (rd : FReg) (o : FPResult 32) :
    (o = .fault ∧ answerToFpr s rd o = .fault (.fpFault s.pc)) ∨
    (∃ v, o = .value v ∧ answerToFpr s rd o = .next (s.setFpr rd v).advance) ∨
    (∃ v, answerToFpr s rd o = .next (s.setFpr rd v).countDraw.advance) := by
  cases o with
  | value v => exact .inr (.inl ⟨v, rfl, rfl⟩)
  | quietNaN => exact .inr (.inr ⟨_, rfl⟩)
  | anyBits => exact .inr (.inr ⟨_, rfl⟩)
  | fault => exact .inl ⟨rfl, rfl⟩

/-- What an answer does to an even/odd pair. -/
theorem answerToDpr_cases (s : State) (rd : FReg) (o : FPResult 64) :
    (o = .fault ∧ answerToDpr s rd o = .fault (.fpFault s.pc)) ∨
    (∃ v, o = .value v ∧ answerToDpr s rd o = .next (s.setDpr rd v).advance) ∨
    (∃ v, answerToDpr s rd o = .next (s.setDpr rd v).countDraw.advance) := by
  cases o with
  | value v => exact .inr (.inl ⟨v, rfl, rfl⟩)
  | quietNaN => exact .inr (.inr ⟨_, rfl⟩)
  | anyBits => exact .inr (.inr ⟨_, rfl⟩)
  | fault => exact .inl ⟨rfl, rfl⟩

/-- The drawn single-precision NaN is a quiet one (R201). -/
theorem quietNaN32_isQuiet (b : BitVec 64) : QuietNaN32 (quietNaN32 b) := by
  unfold QuietNaN32 quietNaN32
  ext i hi
  simp only [BitVec.getElem_extractLsb', BitVec.getLsbD_append]
  have : ¬ (22 + i < 22) := by omega
  simp [this, hi]

/-- The drawn double-precision NaN is a quiet one (R201). -/
theorem quietNaN64_isQuiet (b : BitVec 64) : QuietNaN64 (quietNaN64 b) := by
  unfold QuietNaN64 quietNaN64
  ext i hi
  simp only [BitVec.getElem_extractLsb', BitVec.getLsbD_append]
  have : ¬ (51 + i < 51) := by omega
  simp [this, hi]

/-! Fetch (R58). -/

/-- What a fetch answers. -/
theorem fetch_cases (s : State) :
    (¬ s.pc.toNat % 4 = 0 ∧ fetch s = .error (.fetchMisaligned s.pc s.pc)) ∨
    (s.pc.toNat % 4 = 0 ∧ mapped s.launch s.pc 4 = false ∧
      fetch s = .error (.accessFault s.pc s.pc 4 .fetch)) ∨
    (Accessible s s.pc 4 ∧ fetch s = .ok (s.wordAt s.pc)) := by
  rw [accessible_iff, ← aligned_eq_true_iff]
  unfold fetch
  cases aligned s.pc 4 <;> cases mapped s.launch s.pc 4 <;> simp

end Sys2Proof.Machine
end

