-- ==== Sys2Proof/Laws/Frames.lean ====
section
/-! SUPPORT. The writes of the machine in the terms of `Safety.lean`: each says at once what the write
changes and what it keeps. -/

namespace Sys2Proof.Machine

variable (s : State)

theorem keepsAll_setPc (v : Word) : KeepsAll s (s.setPc v) :=
  ⟨fun _ => rfl, fun _ => rfl, ⟨rfl, rfl⟩, fun _ => rfl, rfl, rfl⟩

theorem writesGpr_setGpr (rd : GReg) (v w : Word) : WritesGpr s ((s.setGpr rd v).setPc w) rd v :=
  ⟨by simp, fun r hr => by simp [State.gpr_setGpr_of_ne _ hr], fun _ => rfl, ⟨rfl, rfl⟩, fun _ => rfl,
    rfl, rfl⟩

theorem writesFpr_setFpr (rd : FReg) (v w : Word) : WritesFpr s ((s.setFpr rd v).setPc w) rd v 0 :=
  ⟨by simp, fun r hr => by simp [State.fpr_setFpr_of_ne _ hr], fun _ => rfl, ⟨rfl, rfl⟩, fun _ => rfl,
    rfl, rfl⟩

theorem writesFpr_drawn (rd : FReg) (v w : Word) :
    WritesFpr s ((s.setFpr rd v).countDraw.setPc w) rd v 1 :=
  ⟨by simp, fun r hr => by simp [State.fpr_setFpr_of_ne _ hr], fun _ => rfl, ⟨rfl, rfl⟩, fun _ => rfl,
    rfl, rfl⟩

theorem writesDpr_setDpr (rd : FReg) (v : Dword) (w : Word) :
    WritesDpr s ((s.setDpr rd v).setPc w) rd v 0 :=
  ⟨by simp [State.fpr_setDpr], by simp [State.fpr_setDpr],
    fun r hr hr' => by simp [State.fpr_setDpr, hr, hr'], fun _ => rfl, ⟨rfl, rfl⟩, fun _ => rfl, rfl, rfl⟩

theorem writesDpr_drawn (rd : FReg) (v : Dword) (w : Word) :
    WritesDpr s ((s.setDpr rd v).countDraw.setPc w) rd v 1 :=
  ⟨by simp [State.fpr_setDpr], by simp [State.fpr_setDpr],
    fun r hr hr' => by simp [State.fpr_setDpr, hr, hr'], fun _ => rfl, ⟨rfl, rfl⟩, fun _ => rfl, rfl, rfl⟩

theorem writesFpsr_setFpsr (b : BitVec 1) (w : Word) : WritesFpsr s ((s.setFpsr b).setPc w) b :=
  ⟨rfl, rfl, fun _ => rfl, fun _ => rfl, fun _ => rfl, rfl, rfl⟩

theorem writesIar_setIar (v w : Word) : WritesIar s ((s.setIar v).setPc w) v :=
  ⟨rfl, rfl, fun _ => rfl, fun _ => rfl, fun _ => rfl, rfl, rfl⟩

/-! Stores. -/

variable {s}

theorem byteAt_setByte (h : s.mem.wf = true) (a b : Word) (v : Byte) :
    (s.setByte a v).byteAt b = if b = a then v else s.byteAt b :=
  Memory.read_write8 h a b v

theorem byteAt_setHalf (h : s.mem.wf = true) (a b : Word) (v : Half) :
    (s.setHalf a v).byteAt b =
      if b = a + 1#32 then v.extractLsb' 0 8 else if b = a then v.extractLsb' 8 8 else s.byteAt b := by
  unfold State.byteAt State.setHalf Memory.write16
  rw [Memory.read_write8 (Memory.write8_wf _ _ h), Memory.read_write8 h]

theorem byteAt_setWord (h : s.mem.wf = true) (a b : Word) (v : Word) :
    (s.setWord a v).byteAt b =
      if b = a + 3#32 then v.extractLsb' 0 8 else if b = a + 2#32 then v.extractLsb' 8 8
      else if b = a + 1#32 then v.extractLsb' 16 8 else if b = a then v.extractLsb' 24 8
      else s.byteAt b := by
  have h1 := byteAt_setHalf (s := s.setHalf a (v.extractLsb' 16 16)) (Memory.write16_wf _ _ h)
    (a + 2#32) b (v.extractLsb' 0 16)
  have h2 := byteAt_setHalf h a b (v.extractLsb' 16 16)
  have e1 : (v.extractLsb' 0 16).extractLsb' 0 8 = v.extractLsb' 0 8 := by ext i hi; simp
  have e2 : (v.extractLsb' 0 16).extractLsb' 8 8 = v.extractLsb' 8 8 := by ext i hi; simp
  have e3 : (v.extractLsb' 16 16).extractLsb' 0 8 = v.extractLsb' 16 8 := by ext i hi; simp; omega
  have e4 : (v.extractLsb' 16 16).extractLsb' 8 8 = v.extractLsb' 24 8 := by
    ext i hi; simp [show 16 + (8 + i) = 24 + i by omega]; omega
  have e5 : a + 2#32 + 1#32 = a + 3#32 := by rw [BitVec.add_assoc]; rfl
  rw [e1, e2, e5] at h1
  rw [e3, e4] at h2
  rw [h2] at h1
  exact h1

theorem byteAt_setDword (h : s.mem.wf = true) (a b : Word) (v : Dword) :
    (s.setDword a v).byteAt b =
      if b = a + 7#32 then v.extractLsb' 0 8 else if b = a + 6#32 then v.extractLsb' 8 8
      else if b = a + 5#32 then v.extractLsb' 16 8 else if b = a + 4#32 then v.extractLsb' 24 8
      else if b = a + 3#32 then v.extractLsb' 32 8 else if b = a + 2#32 then v.extractLsb' 40 8
      else if b = a + 1#32 then v.extractLsb' 48 8 else if b = a then v.extractLsb' 56 8
      else s.byteAt b := by
  have h1 := byteAt_setWord (s := s.setWord a (v.extractLsb' 32 32)) (Memory.write32_wf _ _ h)
    (a + 4#32) b (v.extractLsb' 0 32)
  have h2 := byteAt_setWord h a b (v.extractLsb' 32 32)
  have lo : ∀ j, j ≤ 24 → (v.extractLsb' 0 32).extractLsb' j 8 = v.extractLsb' j 8 := by
    intro j hj; ext i hi; simp; omega
  have hi : ∀ j, j ≤ 24 → (v.extractLsb' 32 32).extractLsb' j 8 = v.extractLsb' (32 + j) 8 := by
    intro j hj; ext i hi; simp [Nat.add_assoc]; omega
  have e : ∀ k : Nat, a + 4#32 + BitVec.ofNat 32 k = a + BitVec.ofNat 32 (4 + k) := by
    intro k; rw [BitVec.add_assoc, BitVec.ofNat_add]
  have e3 : a + 4#32 + 3#32 = a + 7#32 := e 3
  have e2 : a + 4#32 + 2#32 = a + 6#32 := e 2
  have e1 : a + 4#32 + 1#32 = a + 5#32 := e 1
  rw [lo 0 (by omega), lo 8 (by omega), lo 16 (by omega), lo 24 (by omega), e1, e2, e3] at h1
  rw [hi 0 (by omega), hi 8 (by omega), hi 16 (by omega), hi 24 (by omega)] at h2
  rw [h2] at h1
  exact h1

theorem writesBytes_setByte (h : s.mem.wf = true) (a w : Word) (v : Byte) :
    WritesBytes s ((s.setByte a v).setPc w) a
      [v] := by
  refine ⟨fun k hk => ?_, fun b hb => ?_, fun _ => rfl, fun _ => rfl, ⟨rfl, rfl⟩, rfl, rfl⟩
  · simp only [List.length_cons, List.length_nil] at hk
    rw [State.setPc_byteAt, byteAt_setByte h]
    interval_cases k; simp
  · rw [State.setPc_byteAt, byteAt_setByte h]
    simp only [List.length_cons, List.length_nil] at hb
    simp [show b ≠ a from fun e => hb 0 (by omega) (by simp [e])]

theorem writesBytes_setHalf (h : s.mem.wf = true) (a w : Word) (v : Half) :
    WritesBytes s ((s.setHalf a v).setPc w) a
      [v.extractLsb' 8 8, v.extractLsb' 0 8] := by
  refine ⟨fun k hk => ?_, fun b hb => ?_, fun _ => rfl, fun _ => rfl, ⟨rfl, rfl⟩, rfl, rfl⟩
  · simp only [List.length_cons, List.length_nil] at hk
    rw [State.setPc_byteAt, byteAt_setHalf h]
    interval_cases k <;> simp
  · rw [State.setPc_byteAt, byteAt_setHalf h]
    simp only [List.length_cons, List.length_nil] at hb
    simp [show b ≠ a from fun e => hb 0 (by omega) (by simp [e]), show b ≠ a + 1#32 from hb 1 (by omega)]

theorem writesBytes_setWord (h : s.mem.wf = true) (a w : Word) (v : Word) :
    WritesBytes s ((s.setWord a v).setPc w) a
      [v.extractLsb' 24 8, v.extractLsb' 16 8, v.extractLsb' 8 8, v.extractLsb' 0 8] := by
  refine ⟨fun k hk => ?_, fun b hb => ?_, fun _ => rfl, fun _ => rfl, ⟨rfl, rfl⟩, rfl, rfl⟩
  · simp only [List.length_cons, List.length_nil] at hk
    rw [State.setPc_byteAt, byteAt_setWord h]
    interval_cases k <;> simp
  · rw [State.setPc_byteAt, byteAt_setWord h]
    simp only [List.length_cons, List.length_nil] at hb
    simp [show b ≠ a from fun e => hb 0 (by omega) (by simp [e]), show b ≠ a + 1#32 from hb 1 (by omega), show b ≠ a + 2#32 from hb 2 (by omega), show b ≠ a + 3#32 from hb 3 (by omega)]

theorem writesBytes_setDword (h : s.mem.wf = true) (a w : Word) (v : Dword) :
    WritesBytes s ((s.setDword a v).setPc w) a
      [v.extractLsb' 56 8, v.extractLsb' 48 8, v.extractLsb' 40 8, v.extractLsb' 32 8, v.extractLsb' 24 8, v.extractLsb' 16 8, v.extractLsb' 8 8, v.extractLsb' 0 8] := by
  refine ⟨fun k hk => ?_, fun b hb => ?_, fun _ => rfl, fun _ => rfl, ⟨rfl, rfl⟩, rfl, rfl⟩
  · simp only [List.length_cons, List.length_nil] at hk
    rw [State.setPc_byteAt, byteAt_setDword h]
    interval_cases k <;> simp
  · rw [State.setPc_byteAt, byteAt_setDword h]
    simp only [List.length_cons, List.length_nil] at hb
    simp [show b ≠ a from fun e => hb 0 (by omega) (by simp [e]), show b ≠ a + 1#32 from hb 1 (by omega), show b ≠ a + 2#32 from hb 2 (by omega), show b ≠ a + 3#32 from hb 3 (by omega), show b ≠ a + 4#32 from hb 4 (by omega), show b ≠ a + 5#32 from hb 5 (by omega), show b ≠ a + 6#32 from hb 6 (by omega), show b ≠ a + 7#32 from hb 7 (by omega)]

end Sys2Proof.Machine
end

