-- ==== Sys2Proof/Laws/PerInstr.lean ====
section
/-! SUPPORT. A statement for every instruction as syntax, one lemma a constructor: the encoded word meets
the row of the opcode table with the instruction's mnemonic (`30_encoding.md` R97). -/

namespace Sys2Proof.Laws

/-- The word of `i` meets the match and mask pair of its row. -/
def TableWord.Statement (i : Instr) : Prop :=
  ∃ r ∈ opcodeRows, r.mnemonic = i.mnemonic ∧ encode i &&& r.mask = r.pattern

/-- The opcode of an I-type word (R82). -/
theorem iWord_opcode (op : BitVec 6) (rs1 rd : BitVec 5) (imm : Half) :
    iWord op rs1 rd imm &&& 0xFC000000#32 = op ++ 0#26 := by
  apply BitVec.eq_of_getLsbD_eq
  intro i hi
  simp only [iWord, BitVec.getLsbD_and, BitVec.getLsbD_append]
  interval_cases i <;> simp

/-- The opcode of a J-type word (R84). -/
theorem jWord_opcode (op : BitVec 6) (name : BitVec 26) :
    jWord op name &&& 0xFC000000#32 = op ++ 0#26 := by
  apply BitVec.eq_of_getLsbD_eq
  intro i hi
  simp only [jWord, BitVec.getLsbD_and, BitVec.getLsbD_append]
  interval_cases i <;> simp

/-- The opcode and the function code of an R-type word (R83). -/
theorem rWord_codes (op : BitVec 6) (rs1 rs2 rd : BitVec 5) (func : BitVec 11) :
    rWord op rs1 rs2 rd func &&& 0xFC0007FF#32 = op ++ 0#15 ++ func := by
  apply BitVec.eq_of_getLsbD_eq
  intro i hi
  simp only [rWord, BitVec.getLsbD_and, BitVec.getLsbD_append]
  interval_cases i <;> simp

theorem TableWord.lb : ∀ rd rs1 imm, TableWord.Statement (.lb rd rs1 imm) :=
  fun _ _ _ => ⟨⟨"LB", 0x80000000#32, 0xFC000000#32⟩, by decide, rfl, iWord_opcode _ _ _ _⟩

theorem TableWord.lbu : ∀ rd rs1 imm, TableWord.Statement (.lbu rd rs1 imm) :=
  fun _ _ _ => ⟨⟨"LBU", 0x90000000#32, 0xFC000000#32⟩, by decide, rfl, iWord_opcode _ _ _ _⟩

theorem TableWord.lh : ∀ rd rs1 imm, TableWord.Statement (.lh rd rs1 imm) :=
  fun _ _ _ => ⟨⟨"LH", 0x84000000#32, 0xFC000000#32⟩, by decide, rfl, iWord_opcode _ _ _ _⟩

theorem TableWord.lhu : ∀ rd rs1 imm, TableWord.Statement (.lhu rd rs1 imm) :=
  fun _ _ _ => ⟨⟨"LHU", 0x94000000#32, 0xFC000000#32⟩, by decide, rfl, iWord_opcode _ _ _ _⟩

theorem TableWord.lw : ∀ rd rs1 imm, TableWord.Statement (.lw rd rs1 imm) :=
  fun _ _ _ => ⟨⟨"LW", 0x8C000000#32, 0xFC000000#32⟩, by decide, rfl, iWord_opcode _ _ _ _⟩

theorem TableWord.lf : ∀ rd rs1 imm, TableWord.Statement (.lf rd rs1 imm) :=
  fun _ _ _ => ⟨⟨"LF", 0x98000000#32, 0xFC000000#32⟩, by decide, rfl, iWord_opcode _ _ _ _⟩

theorem TableWord.ld : ∀ rd rs1 imm, TableWord.Statement (.ld rd rs1 imm) :=
  fun _ _ _ => ⟨⟨"LD", 0x9C000000#32, 0xFC000000#32⟩, by decide, rfl, iWord_opcode _ _ _ _⟩

theorem TableWord.sb : ∀ rd rs1 imm, TableWord.Statement (.sb rd rs1 imm) :=
  fun _ _ _ => ⟨⟨"SB", 0xA0000000#32, 0xFC000000#32⟩, by decide, rfl, iWord_opcode _ _ _ _⟩

theorem TableWord.sh : ∀ rd rs1 imm, TableWord.Statement (.sh rd rs1 imm) :=
  fun _ _ _ => ⟨⟨"SH", 0xA4000000#32, 0xFC000000#32⟩, by decide, rfl, iWord_opcode _ _ _ _⟩

theorem TableWord.sw : ∀ rd rs1 imm, TableWord.Statement (.sw rd rs1 imm) :=
  fun _ _ _ => ⟨⟨"SW", 0xAC000000#32, 0xFC000000#32⟩, by decide, rfl, iWord_opcode _ _ _ _⟩

theorem TableWord.sf : ∀ rd rs1 imm, TableWord.Statement (.sf rd rs1 imm) :=
  fun _ _ _ => ⟨⟨"SF", 0xB8000000#32, 0xFC000000#32⟩, by decide, rfl, iWord_opcode _ _ _ _⟩

theorem TableWord.sd : ∀ rd rs1 imm, TableWord.Statement (.sd rd rs1 imm) :=
  fun _ _ _ => ⟨⟨"SD", 0xBC000000#32, 0xFC000000#32⟩, by decide, rfl, iWord_opcode _ _ _ _⟩

theorem TableWord.movi2s : ∀ rd rs1, TableWord.Statement (.movi2s rd rs1) :=
  fun _ _ => ⟨⟨"MOVI2S", 0x00000030#32, 0xFC0007FF#32⟩, by decide, rfl, rWord_codes _ _ _ _ _⟩

theorem TableWord.movs2i : ∀ rd rs1, TableWord.Statement (.movs2i rd rs1) :=
  fun _ _ => ⟨⟨"MOVS2I", 0x00000031#32, 0xFC0007FF#32⟩, by decide, rfl, rWord_codes _ _ _ _ _⟩

theorem TableWord.movf : ∀ rd rs1, TableWord.Statement (.movf rd rs1) :=
  fun _ _ => ⟨⟨"MOVF", 0x00000032#32, 0xFC0007FF#32⟩, by decide, rfl, rWord_codes _ _ _ _ _⟩

theorem TableWord.movd : ∀ rd rs1, TableWord.Statement (.movd rd rs1) :=
  fun _ _ => ⟨⟨"MOVD", 0x00000033#32, 0xFC0007FF#32⟩, by decide, rfl, rWord_codes _ _ _ _ _⟩

theorem TableWord.movfp2i : ∀ rd rs1, TableWord.Statement (.movfp2i rd rs1) :=
  fun _ _ => ⟨⟨"MOVFP2I", 0x00000034#32, 0xFC0007FF#32⟩, by decide, rfl, rWord_codes _ _ _ _ _⟩

theorem TableWord.movi2fp : ∀ rd rs1, TableWord.Statement (.movi2fp rd rs1) :=
  fun _ _ => ⟨⟨"MOVI2FP", 0x00000035#32, 0xFC0007FF#32⟩, by decide, rfl, rWord_codes _ _ _ _ _⟩

theorem TableWord.add : ∀ rd rs1 rs2, TableWord.Statement (.add rd rs1 rs2) :=
  fun _ _ _ => ⟨⟨"ADD", 0x00000020#32, 0xFC0007FF#32⟩, by decide, rfl, rWord_codes _ _ _ _ _⟩

theorem TableWord.addi : ∀ rd rs1 imm, TableWord.Statement (.addi rd rs1 imm) :=
  fun _ _ _ => ⟨⟨"ADDI", 0x20000000#32, 0xFC000000#32⟩, by decide, rfl, iWord_opcode _ _ _ _⟩

theorem TableWord.addu : ∀ rd rs1 rs2, TableWord.Statement (.addu rd rs1 rs2) :=
  fun _ _ _ => ⟨⟨"ADDU", 0x00000021#32, 0xFC0007FF#32⟩, by decide, rfl, rWord_codes _ _ _ _ _⟩

theorem TableWord.addui : ∀ rd rs1 imm, TableWord.Statement (.addui rd rs1 imm) :=
  fun _ _ _ => ⟨⟨"ADDUI", 0x24000000#32, 0xFC000000#32⟩, by decide, rfl, iWord_opcode _ _ _ _⟩

theorem TableWord.sub : ∀ rd rs1 rs2, TableWord.Statement (.sub rd rs1 rs2) :=
  fun _ _ _ => ⟨⟨"SUB", 0x00000022#32, 0xFC0007FF#32⟩, by decide, rfl, rWord_codes _ _ _ _ _⟩

theorem TableWord.subi : ∀ rd rs1 imm, TableWord.Statement (.subi rd rs1 imm) :=
  fun _ _ _ => ⟨⟨"SUBI", 0x28000000#32, 0xFC000000#32⟩, by decide, rfl, iWord_opcode _ _ _ _⟩

theorem TableWord.subu : ∀ rd rs1 rs2, TableWord.Statement (.subu rd rs1 rs2) :=
  fun _ _ _ => ⟨⟨"SUBU", 0x00000023#32, 0xFC0007FF#32⟩, by decide, rfl, rWord_codes _ _ _ _ _⟩

theorem TableWord.subui : ∀ rd rs1 imm, TableWord.Statement (.subui rd rs1 imm) :=
  fun _ _ _ => ⟨⟨"SUBUI", 0x2C000000#32, 0xFC000000#32⟩, by decide, rfl, iWord_opcode _ _ _ _⟩

theorem TableWord.mult : ∀ rd rs1 rs2, TableWord.Statement (.mult rd rs1 rs2) :=
  fun _ _ _ => ⟨⟨"MULT", 0x0400000E#32, 0xFC0007FF#32⟩, by decide, rfl, rWord_codes _ _ _ _ _⟩

theorem TableWord.multu : ∀ rd rs1 rs2, TableWord.Statement (.multu rd rs1 rs2) :=
  fun _ _ _ => ⟨⟨"MULTU", 0x04000016#32, 0xFC0007FF#32⟩, by decide, rfl, rWord_codes _ _ _ _ _⟩

theorem TableWord.div : ∀ rd rs1 rs2, TableWord.Statement (.div rd rs1 rs2) :=
  fun _ _ _ => ⟨⟨"DIV", 0x0400000F#32, 0xFC0007FF#32⟩, by decide, rfl, rWord_codes _ _ _ _ _⟩

theorem TableWord.divu : ∀ rd rs1 rs2, TableWord.Statement (.divu rd rs1 rs2) :=
  fun _ _ _ => ⟨⟨"DIVU", 0x04000017#32, 0xFC0007FF#32⟩, by decide, rfl, rWord_codes _ _ _ _ _⟩

theorem TableWord.and : ∀ rd rs1 rs2, TableWord.Statement (.and rd rs1 rs2) :=
  fun _ _ _ => ⟨⟨"AND", 0x00000024#32, 0xFC0007FF#32⟩, by decide, rfl, rWord_codes _ _ _ _ _⟩

theorem TableWord.andi : ∀ rd rs1 imm, TableWord.Statement (.andi rd rs1 imm) :=
  fun _ _ _ => ⟨⟨"ANDI", 0x30000000#32, 0xFC000000#32⟩, by decide, rfl, iWord_opcode _ _ _ _⟩

theorem TableWord.or : ∀ rd rs1 rs2, TableWord.Statement (.or rd rs1 rs2) :=
  fun _ _ _ => ⟨⟨"OR", 0x00000025#32, 0xFC0007FF#32⟩, by decide, rfl, rWord_codes _ _ _ _ _⟩

theorem TableWord.ori : ∀ rd rs1 imm, TableWord.Statement (.ori rd rs1 imm) :=
  fun _ _ _ => ⟨⟨"ORI", 0x34000000#32, 0xFC000000#32⟩, by decide, rfl, iWord_opcode _ _ _ _⟩

theorem TableWord.xor : ∀ rd rs1 rs2, TableWord.Statement (.xor rd rs1 rs2) :=
  fun _ _ _ => ⟨⟨"XOR", 0x00000026#32, 0xFC0007FF#32⟩, by decide, rfl, rWord_codes _ _ _ _ _⟩

theorem TableWord.xori : ∀ rd rs1 imm, TableWord.Statement (.xori rd rs1 imm) :=
  fun _ _ _ => ⟨⟨"XORI", 0x38000000#32, 0xFC000000#32⟩, by decide, rfl, iWord_opcode _ _ _ _⟩

theorem TableWord.lhi : ∀ rd imm, TableWord.Statement (.lhi rd imm) :=
  fun _ _ => ⟨⟨"LHI", 0x3C000000#32, 0xFC000000#32⟩, by decide, rfl, iWord_opcode _ _ _ _⟩

theorem TableWord.sll : ∀ rd rs1 rs2, TableWord.Statement (.sll rd rs1 rs2) :=
  fun _ _ _ => ⟨⟨"SLL", 0x00000004#32, 0xFC0007FF#32⟩, by decide, rfl, rWord_codes _ _ _ _ _⟩

theorem TableWord.srl : ∀ rd rs1 rs2, TableWord.Statement (.srl rd rs1 rs2) :=
  fun _ _ _ => ⟨⟨"SRL", 0x00000006#32, 0xFC0007FF#32⟩, by decide, rfl, rWord_codes _ _ _ _ _⟩

theorem TableWord.sra : ∀ rd rs1 rs2, TableWord.Statement (.sra rd rs1 rs2) :=
  fun _ _ _ => ⟨⟨"SRA", 0x00000007#32, 0xFC0007FF#32⟩, by decide, rfl, rWord_codes _ _ _ _ _⟩

theorem TableWord.slli : ∀ rd rs1 imm, TableWord.Statement (.slli rd rs1 imm) :=
  fun _ _ _ => ⟨⟨"SLLI", 0x50000000#32, 0xFC000000#32⟩, by decide, rfl, iWord_opcode _ _ _ _⟩

theorem TableWord.srli : ∀ rd rs1 imm, TableWord.Statement (.srli rd rs1 imm) :=
  fun _ _ _ => ⟨⟨"SRLI", 0x58000000#32, 0xFC000000#32⟩, by decide, rfl, iWord_opcode _ _ _ _⟩

theorem TableWord.srai : ∀ rd rs1 imm, TableWord.Statement (.srai rd rs1 imm) :=
  fun _ _ _ => ⟨⟨"SRAI", 0x5C000000#32, 0xFC000000#32⟩, by decide, rfl, iWord_opcode _ _ _ _⟩

theorem TableWord.seq : ∀ rd rs1 rs2, TableWord.Statement (.seq rd rs1 rs2) :=
  fun _ _ _ => ⟨⟨"SEQ", 0x00000028#32, 0xFC0007FF#32⟩, by decide, rfl, rWord_codes _ _ _ _ _⟩

theorem TableWord.sne : ∀ rd rs1 rs2, TableWord.Statement (.sne rd rs1 rs2) :=
  fun _ _ _ => ⟨⟨"SNE", 0x00000029#32, 0xFC0007FF#32⟩, by decide, rfl, rWord_codes _ _ _ _ _⟩

theorem TableWord.slt : ∀ rd rs1 rs2, TableWord.Statement (.slt rd rs1 rs2) :=
  fun _ _ _ => ⟨⟨"SLT", 0x0000002A#32, 0xFC0007FF#32⟩, by decide, rfl, rWord_codes _ _ _ _ _⟩

theorem TableWord.sgt : ∀ rd rs1 rs2, TableWord.Statement (.sgt rd rs1 rs2) :=
  fun _ _ _ => ⟨⟨"SGT", 0x0000002B#32, 0xFC0007FF#32⟩, by decide, rfl, rWord_codes _ _ _ _ _⟩

theorem TableWord.sle : ∀ rd rs1 rs2, TableWord.Statement (.sle rd rs1 rs2) :=
  fun _ _ _ => ⟨⟨"SLE", 0x0000002C#32, 0xFC0007FF#32⟩, by decide, rfl, rWord_codes _ _ _ _ _⟩

theorem TableWord.sge : ∀ rd rs1 rs2, TableWord.Statement (.sge rd rs1 rs2) :=
  fun _ _ _ => ⟨⟨"SGE", 0x0000002D#32, 0xFC0007FF#32⟩, by decide, rfl, rWord_codes _ _ _ _ _⟩

theorem TableWord.seqi : ∀ rd rs1 imm, TableWord.Statement (.seqi rd rs1 imm) :=
  fun _ _ _ => ⟨⟨"SEQI", 0x60000000#32, 0xFC000000#32⟩, by decide, rfl, iWord_opcode _ _ _ _⟩

theorem TableWord.snei : ∀ rd rs1 imm, TableWord.Statement (.snei rd rs1 imm) :=
  fun _ _ _ => ⟨⟨"SNEI", 0x64000000#32, 0xFC000000#32⟩, by decide, rfl, iWord_opcode _ _ _ _⟩

theorem TableWord.slti : ∀ rd rs1 imm, TableWord.Statement (.slti rd rs1 imm) :=
  fun _ _ _ => ⟨⟨"SLTI", 0x68000000#32, 0xFC000000#32⟩, by decide, rfl, iWord_opcode _ _ _ _⟩

theorem TableWord.sgti : ∀ rd rs1 imm, TableWord.Statement (.sgti rd rs1 imm) :=
  fun _ _ _ => ⟨⟨"SGTI", 0x6C000000#32, 0xFC000000#32⟩, by decide, rfl, iWord_opcode _ _ _ _⟩

theorem TableWord.slei : ∀ rd rs1 imm, TableWord.Statement (.slei rd rs1 imm) :=
  fun _ _ _ => ⟨⟨"SLEI", 0x70000000#32, 0xFC000000#32⟩, by decide, rfl, iWord_opcode _ _ _ _⟩

theorem TableWord.sgei : ∀ rd rs1 imm, TableWord.Statement (.sgei rd rs1 imm) :=
  fun _ _ _ => ⟨⟨"SGEI", 0x74000000#32, 0xFC000000#32⟩, by decide, rfl, iWord_opcode _ _ _ _⟩

theorem TableWord.addf : ∀ rd rs1 rs2, TableWord.Statement (.addf rd rs1 rs2) :=
  fun _ _ _ => ⟨⟨"ADDF", 0x04000000#32, 0xFC0007FF#32⟩, by decide, rfl, rWord_codes _ _ _ _ _⟩

theorem TableWord.subf : ∀ rd rs1 rs2, TableWord.Statement (.subf rd rs1 rs2) :=
  fun _ _ _ => ⟨⟨"SUBF", 0x04000001#32, 0xFC0007FF#32⟩, by decide, rfl, rWord_codes _ _ _ _ _⟩

theorem TableWord.multf : ∀ rd rs1 rs2, TableWord.Statement (.multf rd rs1 rs2) :=
  fun _ _ _ => ⟨⟨"MULTF", 0x04000002#32, 0xFC0007FF#32⟩, by decide, rfl, rWord_codes _ _ _ _ _⟩

theorem TableWord.divf : ∀ rd rs1 rs2, TableWord.Statement (.divf rd rs1 rs2) :=
  fun _ _ _ => ⟨⟨"DIVF", 0x04000003#32, 0xFC0007FF#32⟩, by decide, rfl, rWord_codes _ _ _ _ _⟩

theorem TableWord.addd : ∀ rd rs1 rs2, TableWord.Statement (.addd rd rs1 rs2) :=
  fun _ _ _ => ⟨⟨"ADDD", 0x04000004#32, 0xFC0007FF#32⟩, by decide, rfl, rWord_codes _ _ _ _ _⟩

theorem TableWord.subd : ∀ rd rs1 rs2, TableWord.Statement (.subd rd rs1 rs2) :=
  fun _ _ _ => ⟨⟨"SUBD", 0x04000005#32, 0xFC0007FF#32⟩, by decide, rfl, rWord_codes _ _ _ _ _⟩

theorem TableWord.multd : ∀ rd rs1 rs2, TableWord.Statement (.multd rd rs1 rs2) :=
  fun _ _ _ => ⟨⟨"MULTD", 0x04000006#32, 0xFC0007FF#32⟩, by decide, rfl, rWord_codes _ _ _ _ _⟩

theorem TableWord.divd : ∀ rd rs1 rs2, TableWord.Statement (.divd rd rs1 rs2) :=
  fun _ _ _ => ⟨⟨"DIVD", 0x04000007#32, 0xFC0007FF#32⟩, by decide, rfl, rWord_codes _ _ _ _ _⟩

theorem TableWord.cvtf2d : ∀ rd rs1, TableWord.Statement (.cvtf2d rd rs1) :=
  fun _ _ => ⟨⟨"CVTF2D", 0x04000008#32, 0xFC0007FF#32⟩, by decide, rfl, rWord_codes _ _ _ _ _⟩

theorem TableWord.cvtf2i : ∀ rd rs1, TableWord.Statement (.cvtf2i rd rs1) :=
  fun _ _ => ⟨⟨"CVTF2I", 0x04000009#32, 0xFC0007FF#32⟩, by decide, rfl, rWord_codes _ _ _ _ _⟩

theorem TableWord.cvtd2f : ∀ rd rs1, TableWord.Statement (.cvtd2f rd rs1) :=
  fun _ _ => ⟨⟨"CVTD2F", 0x0400000A#32, 0xFC0007FF#32⟩, by decide, rfl, rWord_codes _ _ _ _ _⟩

theorem TableWord.cvtd2i : ∀ rd rs1, TableWord.Statement (.cvtd2i rd rs1) :=
  fun _ _ => ⟨⟨"CVTD2I", 0x0400000B#32, 0xFC0007FF#32⟩, by decide, rfl, rWord_codes _ _ _ _ _⟩

theorem TableWord.cvti2f : ∀ rd rs1, TableWord.Statement (.cvti2f rd rs1) :=
  fun _ _ => ⟨⟨"CVTI2F", 0x0400000C#32, 0xFC0007FF#32⟩, by decide, rfl, rWord_codes _ _ _ _ _⟩

theorem TableWord.cvti2d : ∀ rd rs1, TableWord.Statement (.cvti2d rd rs1) :=
  fun _ _ => ⟨⟨"CVTI2D", 0x0400000D#32, 0xFC0007FF#32⟩, by decide, rfl, rWord_codes _ _ _ _ _⟩

theorem TableWord.eqf : ∀ rs1 rs2, TableWord.Statement (.eqf rs1 rs2) :=
  fun _ _ => ⟨⟨"EQF", 0x04000010#32, 0xFC0007FF#32⟩, by decide, rfl, rWord_codes _ _ _ _ _⟩

theorem TableWord.nef : ∀ rs1 rs2, TableWord.Statement (.nef rs1 rs2) :=
  fun _ _ => ⟨⟨"NEF", 0x04000011#32, 0xFC0007FF#32⟩, by decide, rfl, rWord_codes _ _ _ _ _⟩

theorem TableWord.ltf : ∀ rs1 rs2, TableWord.Statement (.ltf rs1 rs2) :=
  fun _ _ => ⟨⟨"LTF", 0x04000012#32, 0xFC0007FF#32⟩, by decide, rfl, rWord_codes _ _ _ _ _⟩

theorem TableWord.gtf : ∀ rs1 rs2, TableWord.Statement (.gtf rs1 rs2) :=
  fun _ _ => ⟨⟨"GTF", 0x04000013#32, 0xFC0007FF#32⟩, by decide, rfl, rWord_codes _ _ _ _ _⟩

theorem TableWord.lef : ∀ rs1 rs2, TableWord.Statement (.lef rs1 rs2) :=
  fun _ _ => ⟨⟨"LEF", 0x04000014#32, 0xFC0007FF#32⟩, by decide, rfl, rWord_codes _ _ _ _ _⟩

theorem TableWord.gef : ∀ rs1 rs2, TableWord.Statement (.gef rs1 rs2) :=
  fun _ _ => ⟨⟨"GEF", 0x04000015#32, 0xFC0007FF#32⟩, by decide, rfl, rWord_codes _ _ _ _ _⟩

theorem TableWord.eqd : ∀ rs1 rs2, TableWord.Statement (.eqd rs1 rs2) :=
  fun _ _ => ⟨⟨"EQD", 0x04000018#32, 0xFC0007FF#32⟩, by decide, rfl, rWord_codes _ _ _ _ _⟩

theorem TableWord.ned : ∀ rs1 rs2, TableWord.Statement (.ned rs1 rs2) :=
  fun _ _ => ⟨⟨"NED", 0x04000019#32, 0xFC0007FF#32⟩, by decide, rfl, rWord_codes _ _ _ _ _⟩

theorem TableWord.ltd : ∀ rs1 rs2, TableWord.Statement (.ltd rs1 rs2) :=
  fun _ _ => ⟨⟨"LTD", 0x0400001A#32, 0xFC0007FF#32⟩, by decide, rfl, rWord_codes _ _ _ _ _⟩

theorem TableWord.gtd : ∀ rs1 rs2, TableWord.Statement (.gtd rs1 rs2) :=
  fun _ _ => ⟨⟨"GTD", 0x0400001B#32, 0xFC0007FF#32⟩, by decide, rfl, rWord_codes _ _ _ _ _⟩

theorem TableWord.led : ∀ rs1 rs2, TableWord.Statement (.led rs1 rs2) :=
  fun _ _ => ⟨⟨"LED", 0x0400001C#32, 0xFC0007FF#32⟩, by decide, rfl, rWord_codes _ _ _ _ _⟩

theorem TableWord.ged : ∀ rs1 rs2, TableWord.Statement (.ged rs1 rs2) :=
  fun _ _ => ⟨⟨"GED", 0x0400001D#32, 0xFC0007FF#32⟩, by decide, rfl, rWord_codes _ _ _ _ _⟩

theorem TableWord.beqz : ∀ rs1 imm, TableWord.Statement (.beqz rs1 imm) :=
  fun _ _ => ⟨⟨"BEQZ", 0x10000000#32, 0xFC000000#32⟩, by decide, rfl, iWord_opcode _ _ _ _⟩

theorem TableWord.bnez : ∀ rs1 imm, TableWord.Statement (.bnez rs1 imm) :=
  fun _ _ => ⟨⟨"BNEZ", 0x14000000#32, 0xFC000000#32⟩, by decide, rfl, iWord_opcode _ _ _ _⟩

theorem TableWord.bfpt : ∀ imm, TableWord.Statement (.bfpt imm) :=
  fun _ => ⟨⟨"BFPT", 0x18000000#32, 0xFC000000#32⟩, by decide, rfl, iWord_opcode _ _ _ _⟩

theorem TableWord.bfpf : ∀ imm, TableWord.Statement (.bfpf imm) :=
  fun _ => ⟨⟨"BFPF", 0x1C000000#32, 0xFC000000#32⟩, by decide, rfl, iWord_opcode _ _ _ _⟩

theorem TableWord.j : ∀ name, TableWord.Statement (.j name) :=
  fun _ => ⟨⟨"J", 0x08000000#32, 0xFC000000#32⟩, by decide, rfl, jWord_opcode _ _⟩

theorem TableWord.jal : ∀ name, TableWord.Statement (.jal name) :=
  fun _ => ⟨⟨"JAL", 0x0C000000#32, 0xFC000000#32⟩, by decide, rfl, jWord_opcode _ _⟩

theorem TableWord.jr : ∀ rs1, TableWord.Statement (.jr rs1) :=
  fun _ => ⟨⟨"JR", 0x48000000#32, 0xFC000000#32⟩, by decide, rfl, iWord_opcode _ _ _ _⟩

theorem TableWord.jalr : ∀ rs1, TableWord.Statement (.jalr rs1) :=
  fun _ => ⟨⟨"JALR", 0x4C000000#32, 0xFC000000#32⟩, by decide, rfl, iWord_opcode _ _ _ _⟩

theorem TableWord.trap : ∀ name, TableWord.Statement (.trap name) :=
  fun _ => ⟨⟨"TRAP", 0x44000000#32, 0xFC000000#32⟩, by decide, rfl, jWord_opcode _ _⟩

theorem TableWord.rfe : TableWord.Statement (.rfe) :=
  ⟨⟨"RFE", 0x40000000#32, 0xFC000000#32⟩, by decide, rfl, jWord_opcode _ _⟩

theorem TableWord.nop : TableWord.Statement (.nop) :=
  ⟨⟨"NOP", 0x00000000#32, 0xFC0007FF#32⟩, by decide, rfl, rWord_codes _ _ _ _ _⟩

end Sys2Proof.Laws
end

