-- ==== Sys2Proof/Tests/Slice0.lean ====
section
/-! SUPPORT. The model's own tests: well-formedness, decoding, one step for every instruction, and for
each statement with hypotheses a witness that meets them. Every expected value is the spec's. -/

namespace Sys2Proof.Tests

open Sys2Proof.Machine

/-- What a test starts from, beside the conventions of `95_test_vectors.md`: `MEM_MAP` is
0x0000..0xFFFF and `TEXT` is the four bytes of the instruction. -/
structure Setup where
  word : Option Word := none
  pc : Word := 0x100#32
  x : List (GReg × Word) := []
  f : List (FReg × Word) := []
  bytes : List (Word × Byte) := []
  iar : Word := 0x77777770#32
  fpsr : BitVec 1 := 1#1
  ovf : Bool := true
  smc : SmcPolicy := .refuse

/-- The launch of a test. -/
def Setup.launch (c : Setup) : Launch :=
  { Config.defaultLaunch with
    memMap := [⟨0, 0x10000⟩], text := [⟨c.pc.toNat, 4⟩], smc := c.smc, resetPc := c.pc, ovfTraps := c.ovf }

/-- The state a test starts from. -/
def start (c : Setup) : State :=
  let s := State.launched c.launch { startValues with iar := c.iar, fpsr := c.fpsr } 0
  let s := c.x.foldl (fun s p => s.setGpr p.1 p.2) s
  let s := c.f.foldl (fun s p => s.setFpr p.1 p.2) s
  let s := c.bytes.foldl (fun s p => s.setByte p.1 p.2) s
  match c.word with
  | some w => s.setWord c.pc w
  | none => s

/-- The eight data bytes of the spec's load vectors. -/
def dataBytes : List (Word × Byte) :=
  [(0x1000#32, 0x88#8), (0x1001#32, 0x99#8), (0x1002#32, 0xAA#8), (0x1003#32, 0xBB#8),
    (0x1004#32, 0x7F#8), (0x1005#32, 0x01#8), (0x1006#32, 0x80#8), (0x1007#32, 0xFF#8)]

/-- The outcome is a next state of which `p` holds. -/
def nextIs (o : Host.Outcome State Fault Refusal) (p : State → Bool) : Bool :=
  match o with
  | .next t => p t
  | .fault _ => false
  | .refused _ => false

/-- The fault of an outcome. -/
def faultOf (o : Host.Outcome State Fault Refusal) : Option Fault :=
  match o with
  | .next _ => none
  | .fault r => some r
  | .refused _ => none

/-- `n` bytes of memory from `a` on. -/
def bytesOf (s : State) (a : Word) (n : Nat) : List Byte :=
  (List.range n).map fun k => s.byteAt (a + BitVec.ofNat 32 k)

/-! Well-formedness: each check refuses an ill-formed term and passes a well-formed one. -/

theorem test_wf_odd_destination : (Instr.addd 1#5 2#5 4#5).wellFormed Config.defaultSReg = false := by decide

theorem test_wf_odd_first_source : (Instr.addd 0#5 3#5 4#5).wellFormed Config.defaultSReg = false := by decide

theorem test_wf_odd_second_source : (Instr.eqd 2#5 5#5).wellFormed Config.defaultSReg = false := by decide

theorem test_wf_odd_pair_of_ld : (Instr.ld 31#5 1#5 0#16).wellFormed Config.defaultSReg = false := by decide

theorem test_wf_other_special_written :
    (Instr.movi2s 2#5 1#5).wellFormed Config.defaultSReg = false := by decide

theorem test_wf_other_special_read :
    (Instr.movs2i 1#5 31#5).wellFormed Config.defaultSReg = false := by decide

theorem test_wf_well_formed :
    (Instr.addd 0#5 2#5 4#5).wellFormed Config.defaultSReg = true ∧
    (Instr.cvtf2d 2#5 1#5).wellFormed Config.defaultSReg = true ∧
    (Instr.movi2s 1#5 5#5).wellFormed Config.defaultSReg = true := by decide

theorem test_decode_too_short : decodeBytes [0x8C#8, 0x43#8, 0x00#8] = .error .truncated := by rfl

theorem test_decode_keeps_the_rest :
    decodeBytes [0x8C#8, 0x43#8, 0x00#8, 0x06#8, 0xAA#8] = .ok (.lw 3#5 2#5 6#16, [0xAA#8]) := by rfl

/-! Reset. -/

theorem test_reset_invariant : Inv State.reset := by decide

theorem test_reset_r0_and_pc : State.reset.gpr 0#5 = 0#32 ∧ State.reset.pc = State.reset.launch.resetPc := by
  decide

/-! Decoding: the words of the spec's own vectors and the operands of their assembler text, every
constructor once (`95_test_vectors.md`). -/

theorem test_decode_load_and_store :
    ∀ p ∈ ([(0x80410000, .lb 1#5 2#5 0x0#16),
        (0x90410000, .lbu 1#5 2#5 0x0#16),
        (0x84410002, .lh 1#5 2#5 0x2#16),
        (0x94410002, .lhu 1#5 2#5 0x2#16),
        (0x8C430006, .lw 3#5 2#5 0x6#16),
        (0x98410000, .lf 1#5 2#5 0x0#16),
        (0x9C420000, .ld 2#5 2#5 0x0#16),
        (0xA0410001, .sb 1#5 2#5 0x1#16),
        (0xA4410002, .sh 1#5 2#5 0x2#16),
        (0xAC83FFF9, .sw 3#5 4#5 0xFFF9#16),
        (0xB8410004, .sf 1#5 2#5 0x4#16),
        (0xBC420000, .sd 2#5 2#5 0x0#16)] : List (Nat × Instr)),
      decodeTableWord 32 p.1 = some p.2 := by decide

theorem test_decode_move :
    ∀ p ∈ ([(0x00A00030, .movi2s 0#5 5#5),
        (0x00002831, .movs2i 5#5 0#5),
        (0x00400832, .movf 1#5 2#5),
        (0x00400033, .movd 0#5 2#5),
        (0x00400834, .movfp2i 1#5 2#5),
        (0x00400835, .movi2fp 1#5 2#5)] : List (Nat × Instr)),
      decodeTableWord 32 p.1 = some p.2 := by decide

theorem test_decode_integer_arithmetic :
    ∀ p ∈ ([(0x00430820, .add 1#5 2#5 3#5),
        (0x20410005, .addi 1#5 2#5 0x5#16),
        (0x00430821, .addu 1#5 2#5 3#5),
        (0x2441FFFF, .addui 1#5 2#5 0xFFFF#16),
        (0x00430822, .sub 1#5 2#5 3#5),
        (0x2841FFFF, .subi 1#5 2#5 0xFFFF#16),
        (0x00430823, .subu 1#5 2#5 3#5),
        (0x2C41FFFF, .subui 1#5 2#5 0xFFFF#16),
        (0x0443080E, .mult 1#5 2#5 3#5),
        (0x04430816, .multu 1#5 2#5 3#5),
        (0x0443080F, .div 1#5 2#5 3#5),
        (0x04430817, .divu 1#5 2#5 3#5)] : List (Nat × Instr)),
      decodeTableWord 32 p.1 = some p.2 := by decide

theorem test_decode_logic_and_shift :
    ∀ p ∈ ([(0x00430824, .and 1#5 2#5 3#5),
        (0x3041FF00, .andi 1#5 2#5 0xFF00#16),
        (0x00430825, .or 1#5 2#5 3#5),
        (0x34418000, .ori 1#5 2#5 0x8000#16),
        (0x00430826, .xor 1#5 2#5 3#5),
        (0x3841FFFF, .xori 1#5 2#5 0xFFFF#16),
        (0x3C018899, .lhi 1#5 0x8899#16),
        (0x00430804, .sll 1#5 2#5 3#5),
        (0x00430806, .srl 1#5 2#5 3#5),
        (0x00430807, .sra 1#5 2#5 3#5),
        (0x50410004, .slli 1#5 2#5 0x4#16),
        (0x58410004, .srli 1#5 2#5 0x4#16),
        (0x5C410004, .srai 1#5 2#5 0x4#16)] : List (Nat × Instr)),
      decodeTableWord 32 p.1 = some p.2 := by decide

theorem test_decode_set :
    ∀ p ∈ ([(0x00430828, .seq 1#5 2#5 3#5),
        (0x00430829, .sne 1#5 2#5 3#5),
        (0x0043082A, .slt 1#5 2#5 3#5),
        (0x0043082B, .sgt 1#5 2#5 3#5),
        (0x0043082C, .sle 1#5 2#5 3#5),
        (0x0043082D, .sge 1#5 2#5 3#5),
        (0x6041FFFF, .seqi 1#5 2#5 0xFFFF#16),
        (0x6441FFFF, .snei 1#5 2#5 0xFFFF#16),
        (0x6841FFFF, .slti 1#5 2#5 0xFFFF#16),
        (0x6C417FFF, .sgti 1#5 2#5 0x7FFF#16),
        (0x70410000, .slei 1#5 2#5 0x0#16),
        (0x74410000, .sgei 1#5 2#5 0x0#16)] : List (Nat × Instr)),
      decodeTableWord 32 p.1 = some p.2 := by decide

theorem test_decode_floating_point_arithmetic :
    ∀ p ∈ ([(0x04430800, .addf 1#5 2#5 3#5),
        (0x04430801, .subf 1#5 2#5 3#5),
        (0x04430802, .multf 1#5 2#5 3#5),
        (0x04430803, .divf 1#5 2#5 3#5),
        (0x04440004, .addd 0#5 2#5 4#5),
        (0x04440005, .subd 0#5 2#5 4#5),
        (0x04440006, .multd 0#5 2#5 4#5),
        (0x04440007, .divd 0#5 2#5 4#5),
        (0x04201008, .cvtf2d 2#5 1#5),
        (0x04201009, .cvtf2i 2#5 1#5),
        (0x0440080A, .cvtd2f 1#5 2#5),
        (0x0440080B, .cvtd2i 1#5 2#5),
        (0x0420100C, .cvti2f 2#5 1#5),
        (0x0420100D, .cvti2d 2#5 1#5)] : List (Nat × Instr)),
      decodeTableWord 32 p.1 = some p.2 := by decide

theorem test_decode_floating_point_comparison :
    ∀ p ∈ ([(0x04220010, .eqf 1#5 2#5),
        (0x04210011, .nef 1#5 1#5),
        (0x04220012, .ltf 1#5 2#5),
        (0x04220013, .gtf 1#5 2#5),
        (0x04220014, .lef 1#5 2#5),
        (0x04220015, .gef 1#5 2#5),
        (0x04440018, .eqd 2#5 4#5),
        (0x04440019, .ned 2#5 4#5),
        (0x0444001A, .ltd 2#5 4#5),
        (0x0444001B, .gtd 2#5 4#5),
        (0x0444001C, .led 2#5 4#5),
        (0x0444001D, .ged 2#5 4#5)] : List (Nat × Instr)),
      decodeTableWord 32 p.1 = some p.2 := by decide

theorem test_decode_jump_and_branch :
    ∀ p ∈ ([(0x10200008, .beqz 1#5 0x8#16),
        (0x1420FFF4, .bnez 1#5 0xFFF4#16),
        (0x18000004, .bfpt 0x4#16),
        (0x1C000008, .bfpf 0x8#16),
        (0x08000010, .j 0x10#26),
        (0x0C000008, .jal 0x8#26),
        (0x48200000, .jr 1#5),
        (0x4CA00000, .jalr 5#5)] : List (Nat × Instr)),
      decodeTableWord 32 p.1 = some p.2 := by decide

theorem test_decode_special :
    ∀ p ∈ ([(0x44000040, .trap 0x40#26),
        (0x40000000, .rfe),
        (0x00000000, .nop)] : List (Nat × Instr)),
      decodeTableWord 32 p.1 = some p.2 := by decide

/-! One step: the vectors of `95_test_vectors.md`. -/

/-- Vector L1 (R122). -/
theorem test_lb_sign_extends :
    nextIs (step (start { word := some 0x80410000#32, x := [(2#5, 0x00001000#32)], bytes := dataBytes }))
      (fun t => t.gpr 1#5 == 0xFFFFFF88#32 && t.pc == 0x00000104#32) = true := by decide

/-- Vector L3 (R123). -/
theorem test_lbu_zero_extends :
    nextIs (step (start { word := some 0x90410000#32, x := [(2#5, 0x00001000#32)], bytes := dataBytes }))
      (fun t => t.gpr 1#5 == 0x00000088#32 && t.pc == 0x00000104#32) = true := by decide

/-- Vector L4 (R124). -/
theorem test_lh_sign_extends_big_endian :
    nextIs (step (start { word := some 0x84410002#32, x := [(2#5, 0x00001000#32)], bytes := dataBytes }))
      (fun t => t.gpr 1#5 == 0xFFFFAABB#32 && t.pc == 0x00000104#32) = true := by decide

/-- Vector L6 (R125). -/
theorem test_lhu_zero_extends :
    nextIs (step (start { word := some 0x94410002#32, x := [(2#5, 0x00001000#32)], bytes := dataBytes }))
      (fun t => t.gpr 1#5 == 0x0000AABB#32 && t.pc == 0x00000104#32) = true := by decide

/-- Vector X1a (R126). -/
theorem test_lw_displacement :
    nextIs (step (start { word := some 0x8C430006#32, x := [(2#5, 0x00000FFE#32)], bytes := dataBytes }))
      (fun t => t.gpr 3#5 == 0x7F0180FF#32 && t.pc == 0x00000104#32) = true := by decide

/-- Vector L13 (R126, R22). -/
theorem test_lw_to_r0_is_discarded :
    nextIs (step (start { word := some 0x8C400000#32, x := [(2#5, 0x00001000#32)], bytes := dataBytes }))
      (fun t => t.gpr 0#5 == 0#32 && t.pc == 0x00000104#32) = true := by decide

/-- Vector L16 (R127). -/
theorem test_lf_copies_the_pattern :
    nextIs (step (start { word := some 0x98410000#32, x := [(2#5, 0x00001000#32)], bytes := dataBytes }))
      (fun t => t.fpr 1#5 == 0x8899AABB#32 && t.pc == 0x00000104#32) = true := by decide

/-- Vector L17 (R128). -/
theorem test_ld_fills_the_pair :
    nextIs (step (start { word := some 0x9C420000#32, x := [(2#5, 0x00001000#32)], bytes := dataBytes }))
      (fun t => t.fpr 2#5 == 0x8899AABB#32 &&
        t.fpr 3#5 == 0x7F0180FF#32 &&
        t.pc == 0x00000104#32) = true := by decide

/-- Vector L20 (R128, R121). -/
theorem test_ld_odd_before_misaligned :
    faultOf (step (start { word := some 0x9C430004#32, x := [(2#5, 0x00001000#32)], bytes := dataBytes }))
      = some (.oddFPRegister 0x100#32 3#5) := by decide

/-- Vector S1 (R129). -/
theorem test_sb_stores_the_low_byte :
    nextIs (step (start { word := some 0xA0410001#32, x := [(1#5, 0x12345678#32), (2#5, 0x00001000#32)] }))
      (fun t => bytesOf t 0x1001#32 1 == [0x78#8] && t.pc == 0x00000104#32) = true := by decide

/-- Vector S2 (R130). -/
theorem test_sh_stores_the_low_half :
    nextIs (step (start { word := some 0xA4410002#32, x := [(1#5, 0x12345678#32), (2#5, 0x00001000#32)] }))
      (fun t => bytesOf t 0x1002#32 2 == [0x56#8, 0x78#8] && t.pc == 0x00000104#32) = true := by decide

/-- Vector X2a (R131). -/
theorem test_sw_negative_displacement :
    nextIs (step (start { word := some 0xAC83FFF9#32, x := [(3#5, 0x8899AABB#32), (4#5, 0x00001007#32)] }))
      (fun t => bytesOf t 0x1000#32 4 == [0x88#8, 0x99#8, 0xAA#8, 0xBB#8] &&
        t.pc == 0x00000104#32) = true := by decide

/-- Vector S12 (R131, R121). -/
theorem test_sw_alignment_before_map :
    faultOf (step (start { word := some 0xAC410000#32, x := [(1#5, 0x00000000#32), (2#5, 0x0000FFFE#32)] }))
      = some (.dataMisaligned 0x100#32 0x0000FFFE#32 4) := by decide

/-- Vector S6 (R132). -/
theorem test_sf_stores_the_pattern :
    nextIs (step (start
      { word := some 0xB8410004#32, x := [(2#5, 0x00001000#32)], f := [(1#5, 0x40400000#32)] }))
      (fun t => bytesOf t 0x1004#32 4 == [0x40#8, 0x40#8, 0x00#8, 0x00#8] &&
        t.pc == 0x00000104#32) = true := by decide

/-- Vector S7 (R133). -/
theorem test_sd_even_register_first :
    nextIs (step (start
      { word := some 0xBC420000#32, x := [(2#5, 0x00001000#32)],
        f := [(2#5, 0x40080000#32), (3#5, 0x00000001#32)] }))
      (fun t => bytesOf t 0x1000#32 8 == [0x40#8, 0x08#8, 0x00#8, 0x00#8, 0x00#8, 0x00#8, 0x00#8, 0x01#8] &&
        t.pc == 0x00000104#32) = true := by decide

/-- Vector M3 (R141). -/
theorem test_movi2s_keeps_bit_zero :
    nextIs (step (start { word := some 0x00A00830#32, x := [(5#5, 0xFFFFFFFE#32)], fpsr := 1#1 }))
      (fun t => t.fpsr == 0#1 && t.pc == 0x00000104#32) = true := by decide

/-- Vector M4 (R141). -/
theorem test_movi2s_other_number :
    faultOf (step (start { word := some 0x00A01030#32, x := [(5#5, 0x00000001#32)] }))
      = some (.illegalInstruction 0x100#32 0x00A01030#32) := by decide

/-- Vector M5 (R142). -/
theorem test_movs2i_reads_iar :
    nextIs (step (start { word := some 0x00002831#32, iar := 0x00000104#32 }))
      (fun t => t.gpr 5#5 == 0x00000104#32 && t.pc == 0x00000104#32) = true := by decide

/-- Vector M6 (R142). -/
theorem test_movs2i_widens_fpsr :
    nextIs (step (start { word := some 0x00202831#32, x := [(5#5, 0xFFFFFFFF#32)], fpsr := 1#1 }))
      (fun t => t.gpr 5#5 == 0x00000001#32 && t.pc == 0x00000104#32) = true := by decide

/-- Vector M8 (R143). -/
theorem test_movf_copies_a_nan :
    nextIs (step (start { word := some 0x00400832#32, f := [(2#5, 0x7FC00001#32)] }))
      (fun t => t.fpr 1#5 == 0x7FC00001#32 && t.pc == 0x00000104#32) = true := by decide

/-- Vector M9 (R144). -/
theorem test_movd_copies_the_pair :
    nextIs (step (start
      { word := some 0x00400033#32,
        f := [(0#5, 0x00000001#32), (1#5, 0x00000001#32), (2#5, 0x40080000#32), (3#5, 0x00000000#32)] }))
      (fun t => t.fpr 0#5 == 0x40080000#32 && t.fpr 1#5 == 0x00000000#32 &&
        t.pc == 0x00000104#32) = true := by decide

/-- Vector M11 (R144). -/
theorem test_movd_odd_source :
    faultOf (step (start { word := some 0x00600033#32, f := [(3#5, 0x00000001#32), (4#5, 0x00000002#32)] }))
      = some (.oddFPRegister 0x100#32 3#5) := by decide

/-- Vector M12 (R145). -/
theorem test_movfp2i_does_not_convert :
    nextIs (step (start { word := some 0x00400834#32, f := [(2#5, 0x40400000#32)] }))
      (fun t => t.gpr 1#5 == 0x40400000#32 && t.pc == 0x00000104#32) = true := by decide

/-- Vector M14 (R146). -/
theorem test_movi2fp_does_not_convert :
    nextIs (step (start { word := some 0x00400835#32, x := [(2#5, 0x00000003#32)] }))
      (fun t => t.fpr 1#5 == 0x00000003#32 && t.pc == 0x00000104#32) = true := by decide

/-- Vector X6a (R152). -/
theorem test_add_of_signed_values :
    nextIs (step (start { word := some 0x00430820#32, x := [(2#5, 0x00000007#32), (3#5, 0xFFFFFFFE#32)] }))
      (fun t => t.gpr 1#5 == 0x00000005#32 && t.pc == 0x00000104#32) = true := by decide

/-- Vector A5 (R152, R22). -/
theorem test_add_to_r0_still_overflows :
    faultOf (step (start { word := some 0x00430020#32, x := [(2#5, 0x7FFFFFFF#32), (3#5, 0x00000001#32)] }))
      = some (.integerOverflow 0x100#32) := by decide

/-- Vector A6 (R153). -/
theorem test_addi_sign_extends :
    nextIs (step (start { word := some 0x2041FFFF#32, x := [(2#5, 0x00000000#32)] }))
      (fun t => t.gpr 1#5 == 0xFFFFFFFF#32 && t.pc == 0x00000104#32) = true := by decide

/-- Vector A7 (R153). -/
theorem test_addi_overflows :
    faultOf (step (start { word := some 0x20410001#32, x := [(2#5, 0x7FFFFFFF#32)] }))
      = some (.integerOverflow 0x100#32) := by decide

/-- Vector A9 (R154). -/
theorem test_addu_wraps :
    nextIs (step (start
      { word := some 0x00430821#32, x := [(1#5, 0x00000009#32), (2#5, 0xFFFFFFFF#32), (3#5, 0x00000001#32)] }))
      (fun t => t.gpr 1#5 == 0x00000000#32 && t.pc == 0x00000104#32) = true := by decide

/-- Vector A10 (R155). -/
theorem test_addui_zero_extends :
    nextIs (step (start { word := some 0x2441FFFF#32, x := [(2#5, 0x00000001#32)] }))
      (fun t => t.gpr 1#5 == 0x00010000#32 && t.pc == 0x00000104#32) = true := by decide

/-- Vector A11 (R156). -/
theorem test_sub_negative_result :
    nextIs (step (start { word := some 0x00430822#32, x := [(2#5, 0x00000005#32), (3#5, 0x00000007#32)] }))
      (fun t => t.gpr 1#5 == 0xFFFFFFFE#32 && t.pc == 0x00000104#32) = true := by decide

/-- Vector A13 (R156). -/
theorem test_sub_overflows :
    faultOf (step (start { word := some 0x00030822#32, x := [(3#5, 0x80000000#32)] }))
      = some (.integerOverflow 0x100#32) := by decide

/-- Vector A15 (R157). -/
theorem test_subi_to_zero :
    nextIs (step (start { word := some 0x28410001#32, x := [(1#5, 0x00000009#32), (2#5, 0x00000001#32)] }))
      (fun t => t.gpr 1#5 == 0x00000000#32 && t.pc == 0x00000104#32) = true := by decide

/-- Vector A14 (R157). -/
theorem test_subi_overflows :
    faultOf (step (start { word := some 0x2841FFFF#32, x := [(2#5, 0x7FFFFFFF#32)] }))
      = some (.integerOverflow 0x100#32) := by decide

/-- Vector A16 (R158). -/
theorem test_subu_wraps :
    nextIs (step (start { word := some 0x00430823#32, x := [(2#5, 0x00000000#32), (3#5, 0x00000001#32)] }))
      (fun t => t.gpr 1#5 == 0xFFFFFFFF#32 && t.pc == 0x00000104#32) = true := by decide

/-- Vector A17 (R159). -/
theorem test_subui_zero_extends :
    nextIs (step (start { word := some 0x2C41FFFF#32, x := [(2#5, 0x00010000#32)] }))
      (fun t => t.gpr 1#5 == 0x00000001#32 && t.pc == 0x00000104#32) = true := by decide

/-- Vector A18 (R164). -/
theorem test_and_of_patterns :
    nextIs (step (start { word := some 0x00430824#32, x := [(2#5, 0xFF00FF00#32), (3#5, 0x0FF00FF0#32)] }))
      (fun t => t.gpr 1#5 == 0x0F000F00#32 && t.pc == 0x00000104#32) = true := by decide

/-- Vector A19 (R165). -/
theorem test_andi_zero_extends :
    nextIs (step (start { word := some 0x3041FF00#32, x := [(2#5, 0xFFFFFFFF#32)] }))
      (fun t => t.gpr 1#5 == 0x0000FF00#32 && t.pc == 0x00000104#32) = true := by decide

/-- Vector A20 (R166). -/
theorem test_or_of_patterns :
    nextIs (step (start { word := some 0x00430825#32, x := [(2#5, 0xFF00FF00#32), (3#5, 0x0FF00FF0#32)] }))
      (fun t => t.gpr 1#5 == 0xFFF0FFF0#32 && t.pc == 0x00000104#32) = true := by decide

/-- Vector A21 (R167). -/
theorem test_ori_zero_extends :
    nextIs (step (start { word := some 0x34418000#32, x := [(2#5, 0x00010000#32)] }))
      (fun t => t.gpr 1#5 == 0x00018000#32 && t.pc == 0x00000104#32) = true := by decide

/-- Vector A22 (R168). -/
theorem test_xor_of_patterns :
    nextIs (step (start { word := some 0x00430826#32, x := [(2#5, 0xFF00FF00#32), (3#5, 0x0FF00FF0#32)] }))
      (fun t => t.gpr 1#5 == 0xF0F0F0F0#32 && t.pc == 0x00000104#32) = true := by decide

/-- Vector A23 (R169). -/
theorem test_xori_zero_extends :
    nextIs (step (start { word := some 0x3841FFFF#32, x := [(2#5, 0xFFFFFFFF#32)] }))
      (fun t => t.gpr 1#5 == 0xFFFF0000#32 && t.pc == 0x00000104#32) = true := by decide

/-- Vector A24 (R170). -/
theorem test_lhi_fills_the_upper_half :
    nextIs (step (start { word := some 0x3C018899#32, x := [(1#5, 0xFFFFFFFF#32)] }))
      (fun t => t.gpr 1#5 == 0x88990000#32 && t.pc == 0x00000104#32) = true := by decide

/-- Vector A27 (R171). -/
theorem test_sll_amount_modulo_32 :
    nextIs (step (start { word := some 0x00430804#32, x := [(2#5, 0x00000001#32), (3#5, 0x00000021#32)] }))
      (fun t => t.gpr 1#5 == 0x00000002#32 && t.pc == 0x00000104#32) = true := by decide

/-- Vector A28 (R172). -/
theorem test_srl_fills_with_zeros :
    nextIs (step (start { word := some 0x00430806#32, x := [(2#5, 0x80000000#32), (3#5, 0x0000001F#32)] }))
      (fun t => t.gpr 1#5 == 0x00000001#32 && t.pc == 0x00000104#32) = true := by decide

/-- Vector A29 (R173). -/
theorem test_sra_fills_with_the_sign :
    nextIs (step (start { word := some 0x00430807#32, x := [(2#5, 0x80000000#32), (3#5, 0x0000001F#32)] }))
      (fun t => t.gpr 1#5 == 0xFFFFFFFF#32 && t.pc == 0x00000104#32) = true := by decide

/-- Vector A32 (R174, R89). -/
theorem test_slli_amount_low_five_bits :
    nextIs (step (start { word := some 0x50410024#32, x := [(2#5, 0x12345678#32)] }))
      (fun t => t.gpr 1#5 == 0x23456780#32 && t.pc == 0x00000104#32) = true := by decide

/-- Vector A33 (R175). -/
theorem test_srli_fills_with_zeros :
    nextIs (step (start { word := some 0x58410004#32, x := [(2#5, 0x87654321#32)] }))
      (fun t => t.gpr 1#5 == 0x08765432#32 && t.pc == 0x00000104#32) = true := by decide

/-- Vector A34 (R176). -/
theorem test_srai_fills_with_the_sign :
    nextIs (step (start { word := some 0x5C410004#32, x := [(2#5, 0x87654321#32)] }))
      (fun t => t.gpr 1#5 == 0xF8765432#32 && t.pc == 0x00000104#32) = true := by decide

/-- Vector A36 (R177). -/
theorem test_seq_equal :
    nextIs (step (start
      { word := some 0x00430828#32, x := [(1#5, 0xFFFFFFFF#32), (2#5, 0x00000005#32), (3#5, 0x00000005#32)] }))
      (fun t => t.gpr 1#5 == 0x00000001#32 && t.pc == 0x00000104#32) = true := by decide

/-- Vector A37 (R178). -/
theorem test_sne_equal :
    nextIs (step (start
      { word := some 0x00430829#32, x := [(1#5, 0xFFFFFFFF#32), (2#5, 0x00000005#32), (3#5, 0x00000005#32)] }))
      (fun t => t.gpr 1#5 == 0x00000000#32 && t.pc == 0x00000104#32) = true := by decide

/-- Vector A39 (R179). -/
theorem test_slt_extremes :
    nextIs (step (start { word := some 0x0043082A#32, x := [(2#5, 0x80000000#32), (3#5, 0x7FFFFFFF#32)] }))
      (fun t => t.gpr 1#5 == 0x00000001#32 && t.pc == 0x00000104#32) = true := by decide

/-- Vector A40 (R180). -/
theorem test_sgt_is_signed :
    nextIs (step (start
      { word := some 0x0043082B#32, x := [(1#5, 0x00000009#32), (2#5, 0xFFFFFFFF#32), (3#5, 0x00000001#32)] }))
      (fun t => t.gpr 1#5 == 0x00000000#32 && t.pc == 0x00000104#32) = true := by decide

/-- Vector A41 (R181). -/
theorem test_sle_equal :
    nextIs (step (start { word := some 0x0043082C#32, x := [(2#5, 0x00000005#32), (3#5, 0x00000005#32)] }))
      (fun t => t.gpr 1#5 == 0x00000001#32 && t.pc == 0x00000104#32) = true := by decide

/-- Vector A42 (R182). -/
theorem test_sge_is_signed :
    nextIs (step (start
      { word := some 0x0043082D#32, x := [(1#5, 0x00000009#32), (2#5, 0x80000000#32), (3#5, 0x00000000#32)] }))
      (fun t => t.gpr 1#5 == 0x00000000#32 && t.pc == 0x00000104#32) = true := by decide

/-- Vector A43 (R183). -/
theorem test_seqi_sign_extends :
    nextIs (step (start { word := some 0x6041FFFF#32, x := [(2#5, 0xFFFFFFFF#32)] }))
      (fun t => t.gpr 1#5 == 0x00000001#32 && t.pc == 0x00000104#32) = true := by decide

/-- Vector A44 (R184). -/
theorem test_snei_sign_extends :
    nextIs (step (start { word := some 0x6441FFFF#32, x := [(2#5, 0x0000FFFF#32)] }))
      (fun t => t.gpr 1#5 == 0x00000001#32 && t.pc == 0x00000104#32) = true := by decide

/-- Vector A45 (R185). -/
theorem test_slti_sign_extends :
    nextIs (step (start { word := some 0x6841FFFF#32, x := [(2#5, 0xFFFFFFFE#32)] }))
      (fun t => t.gpr 1#5 == 0x00000001#32 && t.pc == 0x00000104#32) = true := by decide

/-- Vector A46 (R186). -/
theorem test_sgti_largest_immediate :
    nextIs (step (start { word := some 0x6C417FFF#32, x := [(2#5, 0x00008000#32)] }))
      (fun t => t.gpr 1#5 == 0x00000001#32 && t.pc == 0x00000104#32) = true := by decide

/-- Vector A47 (R187). -/
theorem test_slei_most_negative :
    nextIs (step (start { word := some 0x70410000#32, x := [(2#5, 0x80000000#32)] }))
      (fun t => t.gpr 1#5 == 0x00000001#32 && t.pc == 0x00000104#32) = true := by decide

/-- Vector A48 (R188). -/
theorem test_sgei_most_negative :
    nextIs (step (start { word := some 0x74410000#32, x := [(1#5, 0x00000009#32), (2#5, 0x80000000#32)] }))
      (fun t => t.gpr 1#5 == 0x00000000#32 && t.pc == 0x00000104#32) = true := by decide

/-- Vector D5 (R160). -/
theorem test_mult_least_integer_fits :
    nextIs (step (start { word := some 0x0443080E#32, f := [(2#5, 0xFFFF8000#32), (3#5, 0x00010000#32)] }))
      (fun t => t.fpr 1#5 == 0x80000000#32 && t.pc == 0x00000104#32) = true := by decide

/-- Vector D4 (R160). -/
theorem test_mult_overflows :
    faultOf (step (start { word := some 0x0443080E#32, f := [(2#5, 0x80000000#32), (3#5, 0xFFFFFFFF#32)] }))
      = some (.integerOverflow 0x100#32) := by decide

/-- Vector D6 (R161). -/
theorem test_multu_low_word :
    nextIs (step (start { word := some 0x04430816#32, f := [(2#5, 0xFFFFFFFF#32), (3#5, 0xFFFFFFFF#32)] }))
      (fun t => t.fpr 1#5 == 0x00000001#32 && t.pc == 0x00000104#32) = true := by decide

/-- Vector D8 (R162). -/
theorem test_div_toward_zero :
    nextIs (step (start { word := some 0x0443080F#32, f := [(2#5, 0xFFFFFFF9#32), (3#5, 0x00000002#32)] }))
      (fun t => t.fpr 1#5 == 0xFFFFFFFD#32 && t.pc == 0x00000104#32) = true := by decide

/-- Vector D14 (R162). -/
theorem test_div_zero_by_zero :
    faultOf (step (start { word := some 0x0443080F#32, f := [(2#5, 0x00000000#32), (3#5, 0x00000000#32)] }))
      = some (.divideByZero 0x100#32) := by decide

/-- Vector D15 (R163). -/
theorem test_divu_is_unsigned :
    nextIs (step (start { word := some 0x04430817#32, f := [(2#5, 0xFFFFFFF9#32), (3#5, 0x00000002#32)] }))
      (fun t => t.fpr 1#5 == 0x7FFFFFFC#32 && t.pc == 0x00000104#32) = true := by decide

/-- Vector D17 (R163). -/
theorem test_divu_by_zero :
    faultOf (step (start { word := some 0x04430817#32, f := [(2#5, 0x00000001#32), (3#5, 0x00000000#32)] }))
      = some (.divideByZero 0x100#32) := by decide

/-- Vector F9 (R204). -/
theorem test_addf_ties_to_even :
    nextIs (step (start { word := some 0x04430800#32, f := [(2#5, 0x4B800000#32), (3#5, 0x3F800000#32)] }))
      (fun t => t.fpr 1#5 == 0x4B800000#32 && t.pc == 0x00000104#32) = true := by decide

/-- Vector F7 (R204). -/
theorem test_addf_overflows_to_infinity :
    nextIs (step (start { word := some 0x04430800#32, f := [(2#5, 0x7F7FFFFF#32), (3#5, 0x7F7FFFFF#32)] }))
      (fun t => t.fpr 1#5 == 0x7F800000#32 && t.pc == 0x00000104#32) = true := by decide

/-- Vector F1 (R205). -/
theorem test_subf_order_of_operands :
    nextIs (step (start { word := some 0x04430801#32, f := [(2#5, 0x3F800000#32), (3#5, 0x40000000#32)] }))
      (fun t => t.fpr 1#5 == 0xBF800000#32 && t.pc == 0x00000104#32) = true := by decide

/-- Vector F2 (R206). -/
theorem test_multf_of_values :
    nextIs (step (start { word := some 0x04430802#32, f := [(2#5, 0x40400000#32), (3#5, 0x40800000#32)] }))
      (fun t => t.fpr 1#5 == 0x41400000#32 && t.pc == 0x00000104#32) = true := by decide

/-- Vector F3 (R207). -/
theorem test_divf_rounds_to_nearest :
    nextIs (step (start { word := some 0x04430803#32, f := [(2#5, 0x3F800000#32), (3#5, 0x40400000#32)] }))
      (fun t => t.fpr 1#5 == 0x3EAAAAAB#32 && t.pc == 0x00000104#32) = true := by decide

/-- Vector F5 (R207). -/
theorem test_divf_by_zero :
    nextIs (step (start { word := some 0x04430803#32, f := [(2#5, 0xBF800000#32), (3#5, 0x00000000#32)] }))
      (fun t => t.fpr 1#5 == 0xFF800000#32 && t.pc == 0x00000104#32) = true := by decide

/-- Vector F11 (R208). -/
theorem test_addd_of_values :
    nextIs (step (start
      { word := some 0x04440004#32,
        f := [(1#5, 0x00000009#32), (2#5, 0x3FF00000#32), (3#5, 0x00000000#32), (4#5, 0x40000000#32), (5#5, 0x00000000#32)] }))
      (fun t => t.fpr 0#5 == 0x40080000#32 && t.fpr 1#5 == 0x00000000#32 &&
        t.pc == 0x00000104#32) = true := by decide

/-- Vector F17 (R208, R202). -/
theorem test_addd_destination_checked_first :
    faultOf (step (start { word := some 0x04650804#32 })) = some (.oddFPRegister 0x100#32 1#5) := by decide

/-- Vector F12 (R209). -/
theorem test_subd_order_of_operands :
    nextIs (step (start
      { word := some 0x04440005#32,
        f := [(1#5, 0x00000009#32), (2#5, 0x3FF00000#32), (3#5, 0x00000000#32), (4#5, 0x40000000#32), (5#5, 0x00000000#32)] }))
      (fun t => t.fpr 0#5 == 0xBFF00000#32 && t.fpr 1#5 == 0x00000000#32 &&
        t.pc == 0x00000104#32) = true := by decide

/-- Vector F13 (R210). -/
theorem test_multd_of_values :
    nextIs (step (start
      { word := some 0x04440006#32,
        f := [(1#5, 0x00000009#32), (2#5, 0x40080000#32), (3#5, 0x00000000#32), (4#5, 0x40100000#32), (5#5, 0x00000000#32)] }))
      (fun t => t.fpr 0#5 == 0x40280000#32 && t.fpr 1#5 == 0x00000000#32 &&
        t.pc == 0x00000104#32) = true := by decide

/-- Vector F14 (R211). -/
theorem test_divd_rounds_to_nearest :
    nextIs (step (start
      { word := some 0x04440007#32,
        f := [(2#5, 0x3FF00000#32), (3#5, 0x00000000#32), (4#5, 0x40080000#32), (5#5, 0x00000000#32)] }))
      (fun t => t.fpr 0#5 == 0x3FD55555#32 && t.fpr 1#5 == 0x55555555#32 &&
        t.pc == 0x00000104#32) = true := by decide

/-- Vector F19 (R212). -/
theorem test_cvtf2d_reads_before_writing :
    nextIs (step (start { word := some 0x04401008#32, f := [(2#5, 0x3FC00000#32), (3#5, 0x00000009#32)] }))
      (fun t => t.fpr 2#5 == 0x3FF80000#32 &&
        t.fpr 3#5 == 0x00000000#32 &&
        t.pc == 0x00000104#32) = true := by decide

/-- Vector F23 (R213). -/
theorem test_cvtf2i_toward_zero :
    nextIs (step (start { word := some 0x04201009#32, f := [(1#5, 0xC0300000#32)] }))
      (fun t => t.fpr 2#5 == 0xFFFFFFFE#32 && t.pc == 0x00000104#32) = true := by decide

/-- Vector F21 (R214). -/
theorem test_cvtd2f_rounds :
    nextIs (step (start { word := some 0x0440080A#32, f := [(2#5, 0x3FD55555#32), (3#5, 0x55555555#32)] }))
      (fun t => t.fpr 1#5 == 0x3EAAAAAB#32 && t.pc == 0x00000104#32) = true := by decide

/-- Vector F27 (R215). -/
theorem test_cvtd2i_least_integer :
    nextIs (step (start { word := some 0x0440080B#32, f := [(2#5, 0xC1E00000#32), (3#5, 0x00000000#32)] }))
      (fun t => t.fpr 1#5 == 0x80000000#32 && t.pc == 0x00000104#32) = true := by decide

/-- Vector F29 (R216). -/
theorem test_cvti2f_rounds :
    nextIs (step (start { word := some 0x0420100C#32, f := [(1#5, 0x01000001#32)] }))
      (fun t => t.fpr 2#5 == 0x4B800000#32 && t.pc == 0x00000104#32) = true := by decide

/-- Vector F32 (R217). -/
theorem test_cvti2d_exact :
    nextIs (step (start { word := some 0x0420100D#32, f := [(1#5, 0x7FFFFFFF#32)] }))
      (fun t => t.fpr 2#5 == 0x41DFFFFF#32 &&
        t.fpr 3#5 == 0xFFC00000#32 &&
        t.pc == 0x00000104#32) = true := by decide

/-- Vector F33 (R218). -/
theorem test_eqf_zeros_of_both_signs :
    nextIs (step (start
      { word := some 0x04220010#32, f := [(1#5, 0x00000000#32), (2#5, 0x80000000#32)], fpsr := 0#1 }))
      (fun t => t.fpsr == 1#1 && t.pc == 0x00000104#32) = true := by decide

/-- Vector F34 (R218). -/
theorem test_eqf_nan :
    nextIs (step (start { word := some 0x04210010#32, f := [(1#5, 0x7FC00000#32)], fpsr := 1#1 }))
      (fun t => t.fpsr == 0#1 && t.pc == 0x00000104#32) = true := by decide

/-- Vector F35 (R219). -/
theorem test_nef_nan :
    nextIs (step (start { word := some 0x04210011#32, f := [(1#5, 0x7FC00000#32)], fpsr := 0#1 }))
      (fun t => t.fpsr == 1#1 && t.pc == 0x00000104#32) = true := by decide

/-- Vector F37 (R220). -/
theorem test_ltf_zeros_of_both_signs :
    nextIs (step (start
      { word := some 0x04220012#32, f := [(1#5, 0x80000000#32), (2#5, 0x00000000#32)], fpsr := 1#1 }))
      (fun t => t.fpsr == 0#1 && t.pc == 0x00000104#32) = true := by decide

/-- Vector F39 (R221). -/
theorem test_gtf_greater :
    nextIs (step (start
      { word := some 0x04220013#32, f := [(1#5, 0x40800000#32), (2#5, 0x40400000#32)], fpsr := 0#1 }))
      (fun t => t.fpsr == 1#1 && t.pc == 0x00000104#32) = true := by decide

/-- Vector F40 (R222). -/
theorem test_lef_equal :
    nextIs (step (start
      { word := some 0x04220014#32, f := [(1#5, 0x40400000#32), (2#5, 0x40400000#32)], fpsr := 0#1 }))
      (fun t => t.fpsr == 1#1 && t.pc == 0x00000104#32) = true := by decide

/-- Vector F41 (R223). -/
theorem test_gef_nan :
    nextIs (step (start
      { word := some 0x04220015#32, f := [(1#5, 0x40400000#32), (2#5, 0x7FC00000#32)], fpsr := 1#1 }))
      (fun t => t.fpsr == 0#1 && t.pc == 0x00000104#32) = true := by decide

/-- Vector F43 (R224). -/
theorem test_eqd_equal :
    nextIs (step (start
      { word := some 0x04440018#32,
        f := [(2#5, 0x40080000#32), (3#5, 0x00000000#32), (4#5, 0x40080000#32), (5#5, 0x00000000#32)], fpsr := 0#1 }))
      (fun t => t.fpsr == 1#1 && t.pc == 0x00000104#32) = true := by decide

/-- Vector F44 (R225). -/
theorem test_ned_low_word :
    nextIs (step (start
      { word := some 0x04440019#32,
        f := [(2#5, 0x40080000#32), (3#5, 0x00000000#32), (4#5, 0x40080000#32), (5#5, 0x00000001#32)], fpsr := 0#1 }))
      (fun t => t.fpsr == 1#1 && t.pc == 0x00000104#32) = true := by decide

/-- Vector F45 (R226). -/
theorem test_ltd_less :
    nextIs (step (start
      { word := some 0x0444001A#32,
        f := [(2#5, 0xC0080000#32), (3#5, 0x00000000#32), (4#5, 0x40080000#32), (5#5, 0x00000000#32)], fpsr := 0#1 }))
      (fun t => t.fpsr == 1#1 && t.pc == 0x00000104#32) = true := by decide

/-- Vector F49 (R226, R202). -/
theorem test_ltd_odd_source :
    faultOf (step (start { word := some 0x0445001A#32, fpsr := 1#1 }))
      = some (.oddFPRegister 0x100#32 5#5) := by decide

/-- Vector F46 (R227). -/
theorem test_gtd_less :
    nextIs (step (start
      { word := some 0x0444001B#32,
        f := [(2#5, 0xC0080000#32), (3#5, 0x00000000#32), (4#5, 0x40080000#32), (5#5, 0x00000000#32)], fpsr := 1#1 }))
      (fun t => t.fpsr == 0#1 && t.pc == 0x00000104#32) = true := by decide

/-- Vector F47 (R228). -/
theorem test_led_nan :
    nextIs (step (start
      { word := some 0x0444001C#32,
        f := [(2#5, 0x7FF80000#32), (3#5, 0x00000000#32), (4#5, 0x40080000#32), (5#5, 0x00000000#32)], fpsr := 1#1 }))
      (fun t => t.fpsr == 0#1 && t.pc == 0x00000104#32) = true := by decide

/-- Vector F48 (R229). -/
theorem test_ged_equal :
    nextIs (step (start
      { word := some 0x0444001D#32,
        f := [(2#5, 0x40080000#32), (3#5, 0x00000000#32), (4#5, 0x40080000#32), (5#5, 0x00000000#32)], fpsr := 0#1 }))
      (fun t => t.fpsr == 1#1 && t.pc == 0x00000104#32) = true := by decide

/-- Vector X4a (R254). -/
theorem test_beqz_taken :
    nextIs (step (start { word := some 0x10200008#32, x := [(1#5, 0x00000000#32)] }))
      (fun t => t.pc == 0x0000010C#32) = true := by decide

/-- Vector B2 (R254). -/
theorem test_beqz_furthest_backward :
    nextIs (step (start { pc := 0x9000#32, word := some 0x10208000#32, x := [(1#5, 0x00000000#32)] }))
      (fun t => t.pc == 0x00001004#32) = true := by decide

/-- Vector B5 (R255). -/
theorem test_bnez_taken :
    nextIs (step (start { pc := 0x110#32, word := some 0x1420FFF4#32, x := [(1#5, 0x00000004#32)] }))
      (fun t => t.pc == 0x00000108#32) = true := by decide

/-- Vector B6 (R255). -/
theorem test_bnez_r0_never :
    nextIs (step (start { word := some 0x14000008#32 }))
      (fun t => t.pc == 0x00000104#32) = true := by decide

/-- Vector B7 (R256). -/
theorem test_bfpt_taken :
    nextIs (step (start { pc := 0x120#32, word := some 0x18000004#32, fpsr := 1#1 }))
      (fun t => t.pc == 0x00000128#32) = true := by decide

/-- Vector B8 (R256). -/
theorem test_bfpt_not_taken :
    nextIs (step (start { pc := 0x120#32, word := some 0x18000004#32, fpsr := 0#1 }))
      (fun t => t.pc == 0x00000124#32) = true := by decide

/-- Vector B9 (R257). -/
theorem test_bfpf_taken :
    nextIs (step (start { pc := 0x120#32, word := some 0x1C000008#32, fpsr := 0#1 }))
      (fun t => t.pc == 0x0000012C#32) = true := by decide

/-- Vector B10 (R257). -/
theorem test_bfpf_not_taken :
    nextIs (step (start { pc := 0x120#32, word := some 0x1C000008#32, fpsr := 1#1 }))
      (fun t => t.pc == 0x00000124#32) = true := by decide

/-- Vector J4 (R258). -/
theorem test_j_least_displacement :
    nextIs (step (start { word := some 0x0A000000#32 }))
      (fun t => t.pc == 0xFE000104#32) = true := by decide

/-- Vector J5 (R259). -/
theorem test_jal_links :
    nextIs (step (start { pc := 0x104#32, word := some 0x0C000008#32, x := [(31#5, 0xAAAAAAAA#32)] }))
      (fun t => t.gpr 31#5 == 0x00000108#32 && t.pc == 0x00000110#32) = true := by decide

/-- Vector J7 (R260, R252). -/
theorem test_jr_misaligned_target :
    nextIs (step (start { word := some 0x48200000#32, x := [(1#5, 0x00000203#32)] }))
      (fun t => t.pc == 0x00000203#32) = true := by decide

/-- Vector J10 (R261). -/
theorem test_jalr_reads_before_linking :
    nextIs (step (start { word := some 0x4FE00000#32, x := [(31#5, 0x00000300#32)] }))
      (fun t => t.gpr 31#5 == 0x00000104#32 && t.pc == 0x00000300#32) = true := by decide

/-- Vector T2 (R270). -/
theorem test_trap_address_is_unsigned :
    nextIs (step (start { word := some 0x47FFFFFC#32, iar := 0x00000000#32 }))
      (fun t => t.iar == 0x00000104#32 && t.pc == 0x03FFFFFC#32) = true := by decide

/-- Vector T4 (R271). -/
theorem test_rfe_returns_to_iar :
    nextIs (step (start { word := some 0x40000000#32, iar := 0x00000104#32 }))
      (fun t => t.iar == 0x00000104#32 && t.pc == 0x00000104#32) = true := by decide

/-- Vector T5 (R271, R92). -/
theorem test_rfe_ignores_its_field :
    nextIs (step (start { word := some 0x43FFFFFF#32, iar := 0x00000104#32 }))
      (fun t => t.pc == 0x00000104#32) = true := by decide

/-- Vector T7 (R272, R92). -/
theorem test_nop_ignores_its_fields :
    nextIs (step (start
      { word := some 0x00221800#32, x := [(1#5, 0x00000001#32), (2#5, 0x00000002#32), (3#5, 0x00000003#32)] }))
      (fun t => t.pc == 0x00000104#32) = true := by decide

/-- Vector B4b (R58). -/
theorem test_fetch_misaligned :
    faultOf (step (start { pc := 0x10A#32 })) = some (.fetchMisaligned 0x10A#32 0x0000010A#32) := by decide

/-- Vector E2 (R58, R52). -/
theorem test_fetch_outside_the_map :
    faultOf (step (start { pc := 0x10000#32 }))
      = some (.accessFault 0x10000#32 0x00010000#32 4 .fetch) := by decide

/-- Vector E3 (R98). -/
theorem test_reserved_primary_opcode :
    faultOf (step (start { word := some 0xFC000000#32 }))
      = some (.illegalInstruction 0x100#32 0xFC000000#32) := by decide

/-- Vector E7 (R99). -/
theorem test_all_function_bits_decode :
    faultOf (step (start { word := some 0x00430860#32, x := [(2#5, 0x00000001#32), (3#5, 0x00000001#32)] }))
      = some (.illegalInstruction 0x100#32 0x00430860#32) := by decide

/-- Vector E10 (R99). -/
theorem test_all_function_bits_decode_fparith :
    faultOf (step (start { word := some 0x04430840#32 }))
      = some (.illegalInstruction 0x100#32 0x04430840#32) := by decide

/-- Vector S10 (R129, R68). -/
theorem test_store_into_text :
    faultOf (step (start { word := some 0xA0410003#32, x := [(1#5, 0x000000FF#32), (2#5, 0x00000100#32)] }))
      = some (.storeToText 0x100#32 0x00000103#32) := by decide

/-! The division of zero by zero gives some quiet NaN: what is open is not looked at (vector F6, R201). -/

theorem test_divf_zero_by_zero_draws :
    nextIs (step (start { word := some 0x04430803#32, f := [(2#5, 0#32), (3#5, 0#32)] }))
      (fun t => t.draws == 1 && t.pc == 0x104#32) = true := by decide

/-! Other numberings (R6): NOP left out, as D18 allows. -/

theorem test_numbering_without_nop :
    (decodeUnder (.renumbered ((standardNumbers.filter fun n => n != ⟨0x00#6, some 0x000#11⟩).map fun n =>
      (n, n))) 0x00000000#32).toOption = none := by decide

theorem test_numbering_of_lw_at_0x30 :
    decodeUnder (.renumbered [(⟨0x30#6, none⟩, ⟨0x23#6, none⟩)]) 0xC0430006#32 = .ok (.lw 3#5 2#5 6#16) := by
  rfl

theorem test_numbering_with_add_and_sub_swapped :
    let rows : List (OpcodeNumbers × OpcodeNumbers) :=
      [(⟨0x00#6, some 0x022#11⟩, ⟨0x00#6, some 0x020#11⟩), (⟨0x00#6, some 0x020#11⟩, ⟨0x00#6, some 0x022#11⟩)]
    decodeUnder (.renumbered rows) 0x00430820#32 = .ok (.sub 1#5 2#5 3#5) ∧
    decodeUnder (.renumbered rows) 0x00430822#32 = .ok (.add 1#5 2#5 3#5) := by decide

/-! The operands of assembler lines (R103 to R107): the source's own examples. -/

theorem test_asm_operands_of_the_source :
    (Instr.lw 3#5 2#5 6#16).asmOperands = [.gpr 3#5, .memory 6 2#5] ∧
    (Instr.sw 3#5 4#5 0xFFF9#16).asmOperands = [.memory (-7) 4#5, .gpr 3#5] ∧
    (Instr.addi 1#5 2#5 5#16).asmOperands = [.gpr 1#5, .gpr 2#5, .number 5] ∧
    (Instr.add 1#5 2#5 3#5).asmOperands = [.gpr 1#5, .gpr 2#5, .gpr 3#5] ∧
    (Instr.jr 1#5).asmOperands = [.gpr 1#5] := by decide

/-! Witnesses: for every statement with hypotheses, a state and operands that meet them all, clause by
clause, at boundary values. -/

/-- ADD at 0x22, SUB at 0x20 and LW at the opcode 0x30: no word meets two rows, and the default numbers
select the words of these instructions; a word of ADDI meets none. -/
theorem witness_NumberingsNameTheInstruction :
    let rows : List (OpcodeNumbers × OpcodeNumbers) :=
      [(⟨0x00#6, some 0x022#11⟩, ⟨0x00#6, some 0x020#11⟩), (⟨0x00#6, some 0x020#11⟩, ⟨0x00#6, some 0x022#11⟩),
        (⟨0x30#6, none⟩, ⟨0x23#6, none⟩)]
    (rows.Pairwise fun r q => ∀ w : Word, ¬ (r.1.selects w = true ∧ q.1.selects w = true)) ∧
    (∀ r ∈ rows, r.1.func.isSome = r.2.func.isSome) ∧
    (⟨0x00#6, some 0x020#11⟩ : OpcodeNumbers).selects (encode (.add 1#5 2#5 3#5)) = true ∧
    (⟨0x23#6, none⟩ : OpcodeNumbers).selects (encode (.lw 3#5 2#5 6#16)) = true ∧
    (∀ r ∈ rows, r.1.selects 0x20410005#32 = false) := by
  refine ⟨?_, by decide, by decide, by decide, by decide⟩
  have apart : ∀ (x y : BitVec 6 × Option (BitVec 11)), x.1 ≠ y.1 → ∀ w : Word,
      ¬ ((⟨x.1, x.2⟩ : OpcodeNumbers).selects w = true ∧ (⟨y.1, y.2⟩ : OpcodeNumbers).selects w = true) := by
    intro x y h w
    simp only [OpcodeNumbers.selects, Bool.and_eq_true, beq_iff_eq, not_and]
    rintro ⟨h1, -⟩ h2
    exact absurd (h1.trans h2.symm) h
  refine .cons ?_ (.cons ?_ (.cons (by simp) .nil))
  · intro q hq w
    simp only [List.mem_cons, List.not_mem_nil, or_false] at hq
    rcases hq with rfl | rfl
    · simp only [OpcodeNumbers.selects, Bool.and_eq_true, beq_iff_eq, not_and]
      rintro ⟨-, h⟩ -
      rw [← h]; decide
    · exact apart (_, _) (_, _) (by decide) w
  · intro q hq w
    simp only [List.mem_cons, List.not_mem_nil, or_false] at hq
    subst hq
    exact apart (_, _) (_, _) (by decide) w

theorem witness_EncodeOfDecodeClearsUnusedFields : decode 0x005F0832#32 = .ok (.movf 1#5 2#5) := by rfl

theorem witness_ReservedEncodings_primary :
    ([0x54000000#32, 0xC0410005#32, 0xFC000000#32].all fun w =>
      (start { word := some w }).launch.opc == .standard &&
      (start { word := some w }).pc != (start { word := some w }).launch.endPc &&
      (fetch (start { word := some w })).toOption == some w &&
      ([0x15#6, 0x1E#6, 0x1F#6, 0x22#6, 0x2A#6, 0x2C#6, 0x2D#6].contains (opField w) ||
        decide (0x30#6 ≤ opField w))) = true := by decide

theorem witness_ReservedEncodings_function :
    ([0x00000001#32, 0x00430860#32, 0x0400001E#32, 0x04430840#32].all fun w =>
      (start { word := some w }).launch.opc == .standard &&
      (start { word := some w }).pc != (start { word := some w }).launch.endPc &&
      (fetch (start { word := some w })).toOption == some w) = true ∧
    funcField 0x00000001#32 = 0x001#11 ∧ (funcField 0x00430860#32).extractLsb' 6 5 = 1#5 ∧
    (opField 0x0400001E#32 = 0x01#6 ∧ 0x1E#11 ≤ funcField 0x0400001E#32) ∧
    (funcField 0x04430840#32).extractLsb' 6 5 = 1#5 := by decide

theorem witness_StepRunsTheDecodedInstruction :
    let s := start { word := some 0x20410005#32 }
    s.pc ≠ s.launch.endPc ∧ Accessible s s.pc 4 ∧
      decodeUnder s.launch.opc (s.byteAt s.pc ++ s.byteAt (s.pc + 1#32) ++ s.byteAt (s.pc + 2#32) ++
        s.byteAt (s.pc + 3#32)) = .ok (.addi 1#5 2#5 5#16) :=
  ⟨by decide, by decide, rfl⟩

theorem witness_FetchChecksThenReads :
    (start { pc := 0x0103#32 }).pc.extractLsb' 0 2 ≠ 0#2 ∧
    ((start { pc := 0x10000#32 }).pc.extractLsb' 0 2 = 0#2 ∧
      inRegions (start { pc := 0x10000#32 }).launch.memMap (0x10000#32 + BitVec.ofNat 32 0) = false) ∧
    ((start { pc := 0xFFFC#32 }).pc.extractLsb' 0 2 = 0#2 ∧
      ∀ k : Nat, k < 4 →
        inRegions (start { pc := 0xFFFC#32 }).launch.memMap (0xFFFC#32 + BitVec.ofNat 32 k) = true) := by decide

theorem witness_FetchChecksThenReads_fault :
    (start { pc := 0x10000#32 }).pc ≠ (start { pc := 0x10000#32 }).launch.endPc ∧
    fetch (start { pc := 0x10000#32 }) = .error (.accessFault 0x10000#32 0x10000#32 4 .fetch) :=
  ⟨by decide, rfl⟩

theorem witness_FinishedRunStaysFinal :
    (start { pc := 0#32 }).pc = (start { pc := 0#32 }).launch.endPc := by decide

theorem witness_DoublePairsShareTheirRegisters : EvenReg 0#5 ∧ EvenReg 30#5 := by decide

theorem witness_MixedWidthAccessesSeeTheBytes : (start { bytes := dataBytes }).mem.wf = true := by decide

theorem witness_LaunchGivesTheStartValues : (1#5 : GReg) ≠ 0#5 ∧ (31#5 : GReg) ≠ 0#5 := by decide

/-- The last bytes of `MEM_MAP`, by width. -/
theorem witness_LoadsToGprComplete :
    let s := start { x := [(2#5, 0xFFF8#32)] }
    Accessible s (effectiveAddress s 2#5 7#16) 1 ∧ Accessible s (effectiveAddress s 2#5 6#16) 2 ∧
      Accessible s (effectiveAddress s 2#5 4#16) 4 := by decide

theorem witness_LoadsToFprComplete :
    let s := start { x := [(2#5, 0xFFF8#32)] }
    Accessible s (effectiveAddress s 2#5 4#16) 4 ∧ EvenReg 30#5 ∧
      Accessible s (effectiveAddress s 2#5 0#16) 8 := by decide

theorem witness_StoresComplete :
    let s := start { x := [(2#5, 0xFFF8#32)] }
    s.mem.wf = true ∧ Storable s (effectiveAddress s 2#5 7#16) 1 ∧ Storable s (effectiveAddress s 2#5 6#16) 2 ∧
      Storable s (effectiveAddress s 2#5 4#16) 4 ∧ EvenReg 30#5 ∧
      Storable s (effectiveAddress s 2#5 0#16) 8 := by decide

/-- Under `coherent` the instruction's own bytes are admitted too. -/
theorem witness_StoresComplete_coherent :
    let s := start { x := [(2#5, 0x100#32)], smc := .coherent }
    s.mem.wf = true ∧ Storable s (effectiveAddress s 2#5 3#16) 1 ∧ Storable s (effectiveAddress s 2#5 2#16) 2 ∧
      Storable s (effectiveAddress s 2#5 0#16) 4 ∧ Storable s (effectiveAddress s 2#5 0#16) 8 := by decide

theorem witness_CoherentStoreIsFetched_coherent :
    let s := start { x := [(2#5, 0x104#32)], smc := .coherent }
    s.mem.wf = true ∧ Accessible s (effectiveAddress s 2#5 0#16) 4 ∧ s.launch.smc = .coherent ∧
      effectiveAddress s 2#5 0#16 = s.pc + 4#32 := by decide

theorem witness_CoherentStoreIsFetched_refuse :
    let s := start { x := [(2#5, 0x100#32)] }
    s.mem.wf = true ∧ Accessible s (effectiveAddress s 2#5 0#16) 4 ∧ s.launch.smc = .refuse ∧
      InText s (effectiveAddress s 2#5 0#16 + 3#32) := by decide

theorem witness_RegisterMovesComplete : EvenReg 30#5 ∧ EvenReg 0#5 := by decide

theorem witness_MoveToSpecialRegister :
    let n := (start {}).launch.sreg
    (0#5 : SReg) = n.iar ∧ ((1#5 : SReg) ≠ n.iar ∧ (1#5 : SReg) = n.fpsr) ∧
      ((2#5 : SReg) ≠ n.iar ∧ (2#5 : SReg) ≠ n.fpsr) := by decide

theorem witness_MoveFromSpecialRegister :
    let n := (start {}).launch.sreg
    (0#5 : SReg) = n.iar ∧ ((1#5 : SReg) ≠ n.iar ∧ (1#5 : SReg) = n.fpsr) ∧
      ((31#5 : SReg) ≠ n.iar ∧ (31#5 : SReg) ≠ n.fpsr) := by decide

/-- The largest sum that fits, and the first that does not, under both settings. -/
theorem witness_SignedResultsFitTrapOrWrap_add :
    (let s := start { x := [(2#5, 0x7FFFFFFE#32), (3#5, 1#32)] };
      Fits ((s.gpr 2#5).toInt + (s.gpr 3#5).toInt)) ∧
    (let s := start { x := [(2#5, 0x7FFFFFFF#32), (3#5, 1#32)] };
      ¬ Fits ((s.gpr 2#5).toInt + (s.gpr 3#5).toInt) ∧ s.launch.ovfTraps = true) ∧
    (let s := start { x := [(2#5, 0x80000000#32)], ovf := false };
      ¬ Fits ((s.gpr 2#5).toInt - (1#16 : Half).toInt) ∧ s.launch.ovfTraps = false) := by decide

theorem witness_SignedResultsFitTrapOrWrap_div :
    (let s := start { f := [(2#5, 0x80000000#32), (3#5, 1#32)] };
      s.fpr 3#5 ≠ 0#32 ∧ Fits ((s.fpr 2#5).toInt.tdiv (s.fpr 3#5).toInt)) ∧
    (let s := start { f := [(2#5, 0x80000000#32), (3#5, 0xFFFFFFFF#32)] };
      s.fpr 3#5 ≠ 0#32 ∧ ¬ Fits ((s.fpr 2#5).toInt.tdiv (s.fpr 3#5).toInt) ∧ s.launch.ovfTraps = true) ∧
    (let s := start { f := [(2#5, 0x80000000#32), (3#5, 0xFFFFFFFF#32)], ovf := false };
      s.fpr 3#5 ≠ 0#32 ∧ ¬ Fits ((s.fpr 2#5).toInt.tdiv (s.fpr 3#5).toInt) ∧
        s.launch.ovfTraps = false) := by decide

theorem witness_UnsignedMultiplyDivide :
    (start { f := [(3#5, 1#32)] }).fpr 3#5 ≠ 0#32 ∧ (start { f := [(3#5, 0#32)] }).fpr 3#5 = 0#32 := by decide

theorem witness_SignedDivisionTruncates :
    let s := start { f := [(2#5, 0x80000000#32), (3#5, 0xFFFFFFFE#32)] }
    s.fpr 3#5 ≠ 0#32 ∧ ¬ (s.fpr 2#5 = 0x80000000#32 ∧ s.fpr 3#5 = 0xFFFFFFFF#32) := by decide

theorem witness_SingleResultsFollowTheRecord : EvenReg 30#5 := by decide

theorem witness_DoubleResultsFollowTheRecord : EvenReg 0#5 ∧ EvenReg 2#5 ∧ EvenReg 30#5 := by decide

theorem witness_DoubleComparisonsSetFpsr :
    let s := start {}
    ∃ a b : Dword, EvenReg 0#5 ∧ EvenReg 30#5 ∧ a = s.fpr 0#5 ++ s.fpr (0#5 + 1#5) ∧
      b = s.fpr 30#5 ++ s.fpr (30#5 + 1#5) :=
  ⟨_, _, by decide, by decide, rfl, rfl⟩

theorem witness_DefaultRecordFloatingPointCompletes :
    (start {}).launch.fpOps = .ieee754 ∧
    ∀ i ∈ [Instr.addf 1#5 3#5 31#5, .divd 0#5 2#5 30#5, .cvtd2i 1#5 2#5, .ged 0#5 30#5],
      oneOf (["ADDF", "SUBF", "MULTF", "DIVF", "ADDD", "SUBD", "MULTD", "DIVD", "CVTF2D", "CVTF2I",
        "CVTD2F", "CVTD2I", "CVTI2F", "CVTI2D"] ++ compareNames) i = true ∧
      ∀ r ∈ i.doubleOperands, EvenReg r := by decide

theorem witness_DefaultComparisonsWithNaNAreFalse :
    ((0x7F800001#32).extractLsb' 23 8 = 0xFF#8 ∧ (0x7F800001#32).extractLsb' 0 23 ≠ 0#23) ∧
    ((0xFFFFFFFF#32).extractLsb' 23 8 = 0xFF#8 ∧ (0xFFFFFFFF#32).extractLsb' 0 23 ≠ 0#23) ∧
    ((0x7FF0000000000001#64).extractLsb' 52 11 = 0x7FF#11 ∧
      (0x7FF0000000000001#64).extractLsb' 0 52 ≠ 0#52) := by decide

/-- The divisors -0 and +0, with the dividends of least magnitude -2^-149 and -0. -/
theorem witness_DefaultDivisionByZero :
    (0x80000000#32).extractLsb' 0 31 = 0#31 ∧ (0x00000000#32).extractLsb' 0 31 = 0#31 ∧
    ((0x80000001#32).extractLsb' 23 8 ≠ 0xFF#8 ∧ (0x80000001#32).extractLsb' 0 31 ≠ 0#31) ∧
    ((0x80000000#32).extractLsb' 23 8 ≠ 0xFF#8 ∧ (0x80000000#32).extractLsb' 0 31 = 0#31) := by decide

/-- Singles and their numbers, worked out from R201: the least and the greatest finite one among them. -/
theorem test_singles :
    singleValue 0x3FC00000#32 = some (3 / 2) ∧
    singleValue 0xBF000000#32 = some (-1 / 2) ∧
    singleValue 0x3F800000#32 = some (1) ∧
    singleValue 0x40000000#32 = some (2) ∧
    singleValue 0xBF400000#32 = some (-3 / 4) ∧
    singleValue 0xC0400000#32 = some (-3) ∧
    singleValue 0xBFC00000#32 = some (-3 / 2) ∧
    singleValue 0x80000000#32 = some (0) ∧
    singleValue 0x00000001#32 = some (1 / 2 ^ 149) ∧
    singleValue 0x7F7FFFFF#32 = some ((2 ^ 24 - 1) * 2 ^ 104) := by
  refine ⟨?_, ?_, ?_, ?_, ?_, ?_, ?_, ?_, ?_, ?_⟩
  · rw [singleValue_of (neg := false) (e := 127) (frac := 4194304) rfl rfl rfl (by decide)]; norm_num [signFactor]
  · rw [singleValue_of (neg := true) (e := 126) (frac := 0) rfl rfl rfl (by decide)]; norm_num [signFactor]
  · rw [singleValue_of (neg := false) (e := 127) (frac := 0) rfl rfl rfl (by decide)]; norm_num [signFactor]
  · rw [singleValue_of (neg := false) (e := 128) (frac := 0) rfl rfl rfl (by decide)]; norm_num [signFactor]
  · rw [singleValue_of (neg := true) (e := 126) (frac := 4194304) rfl rfl rfl (by decide)]; norm_num [signFactor]
  · rw [singleValue_of (neg := true) (e := 128) (frac := 4194304) rfl rfl rfl (by decide)]; norm_num [signFactor]
  · rw [singleValue_of (neg := true) (e := 127) (frac := 4194304) rfl rfl rfl (by decide)]; norm_num [signFactor]
  · rw [singleValue_of (neg := true) (e := 0) (frac := 0) rfl rfl rfl (by decide)]; norm_num [signFactor]
  · rw [singleValue_of (neg := false) (e := 0) (frac := 1) rfl rfl rfl (by decide)]; norm_num [signFactor]
  · rw [singleValue_of (neg := false) (e := 254) (frac := 8388607) rfl rfl rfl (by decide)]; norm_num [signFactor]

/-- Doubles and their numbers, worked out from R201. -/
theorem test_doubles :
    doubleValue 0x3FF8000000000000#64 = some (3 / 2) ∧
    doubleValue 0xBFE0000000000000#64 = some (-1 / 2) ∧
    doubleValue 0x3FF0000000000000#64 = some (1) ∧
    doubleValue 0x4000000000000000#64 = some (2) ∧
    doubleValue 0xBFE8000000000000#64 = some (-3 / 4) ∧
    doubleValue 0xC008000000000000#64 = some (-3) ∧
    doubleValue 0xBFF8000000000000#64 = some (-3 / 2) ∧
    doubleValue 0x8000000000000000#64 = some (0) ∧
    doubleValue 0x0000000000000001#64 = some (1 / 2 ^ 1074) := by
  refine ⟨?_, ?_, ?_, ?_, ?_, ?_, ?_, ?_, ?_⟩
  · rw [doubleValue_of (neg := false) (e := 1023) (frac := 2251799813685248) rfl rfl rfl (by decide)]; norm_num [signFactor]
  · rw [doubleValue_of (neg := true) (e := 1022) (frac := 0) rfl rfl rfl (by decide)]; norm_num [signFactor]
  · rw [doubleValue_of (neg := false) (e := 1023) (frac := 0) rfl rfl rfl (by decide)]; norm_num [signFactor]
  · rw [doubleValue_of (neg := false) (e := 1024) (frac := 0) rfl rfl rfl (by decide)]; norm_num [signFactor]
  · rw [doubleValue_of (neg := true) (e := 1022) (frac := 2251799813685248) rfl rfl rfl (by decide)]; norm_num [signFactor]
  · rw [doubleValue_of (neg := true) (e := 1024) (frac := 2251799813685248) rfl rfl rfl (by decide)]; norm_num [signFactor]
  · rw [doubleValue_of (neg := true) (e := 1023) (frac := 2251799813685248) rfl rfl rfl (by decide)]; norm_num [signFactor]
  · rw [doubleValue_of (neg := true) (e := 0) (frac := 0) rfl rfl rfl (by decide)]; norm_num [signFactor]
  · rw [doubleValue_of (neg := false) (e := 0) (frac := 1) rfl rfl rfl (by decide)]; norm_num [signFactor]

/-- A sum, a difference, a product and a quotient that patterns of `test_singles` and `test_doubles` hold,
and results of zero. -/
theorem witness_DefaultArithmeticIsExactWhereItCanBe :
    (3 / 2 + -1 / 2 = (1 : ℚ) ∧ 3 / 2 - -1 / 2 = (2 : ℚ) ∧ 3 / 2 * (-1 / 2) = (-3 / 4 : ℚ) ∧
      3 / 2 / (-1 / 2) = (-3 : ℚ)) ∧
    (3 / 2 + -3 / 2 = (0 : ℚ) ∧ 3 / 2 - 3 / 2 = (0 : ℚ) ∧ 3 / 2 * 0 = (0 : ℚ)) ∧
    singleValue 0x3FC00000#32 = some (3 / 2) ∧ doubleValue 0x3FF8000000000000#64 = some (3 / 2) :=
  ⟨by norm_num, by norm_num, test_singles.1, test_doubles.1⟩

/-- Numbers at the ends of the conversions to integers, and one that a single and a double both hold. -/
theorem witness_DefaultComparisonsAndConversionsFollowTheNumbers :
    singleValue 0x4F000000#32 = some (2 ^ 31) ∧
    singleValue 0xCF000000#32 = some (-2 ^ 31) ∧
    singleValue 0x4B800000#32 = some (((2 ^ 24 : Int) : ℚ)) ∧
    doubleValue 0x41DFFFFFFFE00000#64 = some (2147483647 + 1 / 2) ∧
    doubleValue 0x3FF8000000000000#64 = singleValue 0x3FC00000#32 ∧ (3 / 2 : ℚ) ≠ 0 ∧
    ((0x01000000#32 : Word).toInt = 2 ^ 24 ∧ (0x01000000#32 : Word) ≠ 0#32) := by
  refine ⟨?_, ?_, ?_, ?_, test_doubles.1.trans test_singles.1.symm, by norm_num, by decide⟩
  · rw [singleValue_of (neg := false) (e := 158) (frac := 0) rfl rfl rfl (by decide)]; norm_num [signFactor]
  · rw [singleValue_of (neg := true) (e := 158) (frac := 0) rfl rfl rfl (by decide)]; norm_num [signFactor]
  · rw [singleValue_of (neg := false) (e := 151) (frac := 0) rfl rfl rfl (by decide)]; norm_num [signFactor]
  · rw [doubleValue_of (neg := false) (e := 1053) (frac := 4503599625273344) rfl rfl rfl (by decide)]; norm_num [signFactor]

/-- A jump whose target is misaligned, and the fault of the step after it. -/
theorem witness_MisalignedTargetFaultsAtTheNextFetch :
    nextIs (exec (.jr 1#5) (start { x := [(1#5, 0x203#32)] }))
      (fun t => t.pc.toNat % 4 != 0 && t.pc != t.launch.endPc &&
        faultOf (step t) == some (.fetchMisaligned 0x203#32 0x203#32)) = true := by decide

/-- The displacement of a label wraps (log 15): vector B11 branches from 0xFFFFFFF8 to 0x4. -/
theorem test_label_displacement_wraps :
    labelDisplacement 16 0xFFFFFFF8#32 0x4#32 = some 8#16 ∧
    labelDisplacement 26 0x0#32 0xFFFFFFF8#32 = some 0x3FFFFF4#26 := by decide

/-- The furthest labels that BEQZ and J reach backward, and the first beyond. -/
theorem witness_LabelDisplacementReachesTheLabel :
    labelDisplacement 16 (start { pc := 0x9000#32 }).pc 0x1004#32 = some 0x8000#16 ∧
    labelDisplacement 16 (start { pc := 0x9000#32 }).pc 0x1003#32 = none ∧
    decide ((start {}).fpsr = 1#1) = true ∧ decide ((start { fpsr := 0#1 }).fpsr = 0#1) = true ∧
    labelDisplacement 26 (start { pc := 0x110#32 }).pc 0x108#32 = some 0x3FFFFF4#26 := by decide

theorem witness_TrapReturn :
    ∃ t, exec (.trap 0x40#26) (start {}) = .next t ∧ t.iar = 0x104#32 := ⟨_, rfl, rfl⟩

theorem witness_NestedTrapsNeedIarSaved :
    (31#5 : GReg) ≠ 0#5 ∧
    nextIs (exec (.movs2i 31#5 0#5) (start {})) (fun t =>
      nextIs (exec (.trap 0x200#26) t) fun u => (start { x := [(31#5, 0x77777770#32)] }).gpr 31#5 == u.gpr 31#5)
      = true := by decide

theorem witness_OnlyTrapAndMovi2sWriteIar :
    ∃ t, exec (.movi2s 0#5 1#5) (start {}) = .next t ∧ t.iar ≠ (start {}).iar :=
  ⟨_, rfl, by decide⟩

theorem witness_OnlyComparisonsAndMovi2sWriteFpsr :
    nextIs (exec (.ltf 1#5 1#5) (start {})) (fun t => t.fpsr != (start {}).fpsr) = true := by decide

theorem witness_OnlyStoresChangeMemory :
    nextIs (exec (.sb 0#5 2#5 0#16) (start { x := [(2#5, 0x1000#32)] }))
      (fun t => t.byteAt 0x1000#32 != (start {}).byteAt 0x1000#32) = true := by decide

theorem witness_OnlyTransfersLeaveTheSequence :
    ∃ t, exec .nop (start {}) = .next t ∧ oneOf transferNames .nop = false := ⟨_, rfl, by decide⟩

theorem witness_FaultsAreRaisedOnlyByTheirRow :
    ∃ r, exec (.divu 1#5 2#5 3#5) (start { f := [(3#5, 0#32)] }) = .fault r := ⟨_, rfl⟩

theorem witness_FaultsRecordTheInstructionAddress :
    ∃ r, step (start { pc := 0x10000#32 }) = .fault r := ⟨_, rfl⟩

theorem witness_FirstOddDoubleOperandFaults :
    (Instr.addd 0#5 3#5 5#5).doubleOperands.find? (fun q => q.toNat % 2 == 1) = some 3#5 := by decide

theorem witness_WellFormedNeverOddOrIllegal :
    (Instr.divu 1#5 2#5 3#5).wellFormed (start {}).launch.sreg = true ∧
    ∃ r, exec (.divu 1#5 2#5 3#5) (start { f := [(3#5, 0#32)] }) = .fault r := ⟨by decide, _, rfl⟩

/-- A step that stores under `refuse`, with a `TEXT` that is not empty. -/
theorem witness_steps :
    let s := start { word := some 0xA0410001#32, x := [(2#5, 0x1000#32)] }
    ∃ t, step s = .next t ∧ ReachesIn 1 s t := ⟨_, rfl, rfl⟩

theorem witness_EveryStepKeepsTheInvariant :
    Inv (start { word := some 0xA0410001#32, x := [(2#5, 0x1000#32)] }) := by decide

theorem witness_LaunchHasTheInvariant :
    (start { bytes := dataBytes }).mem.wf = true ∧ (start { bytes := dataBytes }).mem ≠ [] := by decide

theorem witness_ProgramTextNeverChanges :
    let s := start { word := some 0xA0410001#32, x := [(2#5, 0x1000#32)] }
    Inv s ∧ s.launch.smc = .refuse ∧ InText s 0x100#32 ∧ InText s 0x103#32 := by decide

theorem witness_UnmappedBytesNeverChange :
    let s := start { word := some 0xA0410001#32, x := [(2#5, 0x1000#32)] }
    Inv s ∧ inRegions s.launch.memMap 0x10000#32 = false := by decide

end Sys2Proof.Tests
end

