-- ==== Sys2Proof/Proofs/Fetch.lean ====
section
/-! The fetch (`20_memory.md` R58): its three answers, each under the check that leads to it, and the
fault that a step takes over from it. -/

namespace Sys2Proof.Machine

variable {s : State}

/-- The spec's `A[1:0] = 0` is the model's divisibility by four. -/
theorem extractLsb'_low_two_eq_zero_iff (a : Word) : a.extractLsb' 0 2 = 0#2 ↔ a.toNat % 4 = 0 := by
  rw [← BitVec.toNat_inj, BitVec.extractLsb'_toNat, Nat.shiftRight_zero]
  rfl

/-- R53: a word is its four bytes, the one at the lowest address the most significant. -/
theorem State.wordAt_eq_bytes (s : State) (a : Word) :
    s.wordAt a = s.byteAt a ++ s.byteAt (a + 1#32) ++ s.byteAt (a + 2#32) ++ s.byteAt (a + 3#32) := by
  have last : a + 2#32 + 1#32 = a + 3#32 := BitVec.add_assoc a 2#32 1#32
  unfold State.wordAt State.halfAt
  rw [last, BitVec.append_assoc', BitVec.cast_eq]

/-- One byte outside `MEM_MAP` makes the range unmapped (R52). -/
theorem mapped_eq_false_of_byte {l : Launch} {a : Word} {n k : Nat} (hk : k < n)
    (hout : inRegions l.memMap (a + BitVec.ofNat 32 k) = false) : mapped l a n = false := by
  refine Bool.eq_false_iff.2 fun hmapped => ?_
  have hin := (mapped_eq_true_iff l a n).1 hmapped k hk
  exact Bool.false_ne_true (hout.symm.trans hin)

theorem fetch_of_misaligned (h : ¬ s.pc.toNat % 4 = 0) :
    fetch s = .error (.fetchMisaligned s.pc s.pc) := by
  obtain ⟨-, hf⟩ | ⟨ha, -⟩ | ⟨⟨ha, -⟩, -⟩ := fetch_cases s
  · exact hf
  · exact absurd ha h
  · exact absurd ha h

theorem fetch_of_unmapped (ha : s.pc.toNat % 4 = 0) (hm : mapped s.launch s.pc 4 = false) :
    fetch s = .error (.accessFault s.pc s.pc 4 .fetch) := by
  obtain ⟨hna, -⟩ | ⟨-, -, hf⟩ | ⟨hacc, -⟩ := fetch_cases s
  · exact absurd ha hna
  · exact hf
  · have hmapped := ((accessible_iff s.pc 4).1 hacc).2
    exact absurd (hm.symm.trans hmapped) Bool.false_ne_true

theorem fetch_of_accessible (h : Accessible s s.pc 4) : fetch s = .ok (s.wordAt s.pc) := by
  obtain ⟨ha, hm⟩ := (accessible_iff s.pc 4).1 h
  obtain ⟨hna, -⟩ | ⟨-, hnm, -⟩ | ⟨-, hf⟩ := fetch_cases s
  · exact absurd h.1 hna
  · exact absurd (hnm.symm.trans hm) Bool.false_ne_true
  · exact hf

/-- R34: unless the run is over, the first thing a step does is to fetch. -/
theorem step_of_fetch_error {r : Fault} (hrun : s.pc ≠ s.launch.endPc) (hf : fetch s = .error r) :
    step s = .fault r := by
  have hover : runOver s = false := beq_eq_false_iff_ne.2 hrun
  simp [step, hover, hf]

/-- Settles O9, a clause for each answer of `fetch_cases` and one for the step. -/
theorem fetchChecksThenReads : Obligations.FetchChecksThenReads := by
  intro s
  rw [ne_eq, extractLsb'_low_two_eq_zero_iff, ← State.wordAt_eq_bytes]
  refine ⟨fetch_of_misaligned, ?unmapped, ?accessible, fun _ => step_of_fetch_error⟩
  case unmapped =>
    rintro haligned ⟨k, hk, hout⟩
    exact fetch_of_unmapped haligned (mapped_eq_false_of_byte hk hout)
  case accessible => exact fun haligned hin => fetch_of_accessible ⟨haligned, hin⟩

end Sys2Proof.Machine
end

