-- ==== Sys2Proof/Proofs/ReservedEncodings.lean ====
section
/-! The reserved encodings (`30_encoding.md` R98, R99): the numbers that a word which decodes can have,
and the fault of the step that fetches any other word. -/

namespace Sys2Proof

variable {w : Word} {i : Instr}

/-- The function codes that the SPECIAL map assigns (R95). -/
def specialCodes : List (BitVec 11) :=
  [0x00#11, 0x04#11, 0x06#11, 0x07#11, 0x20#11, 0x21#11, 0x22#11, 0x23#11, 0x24#11, 0x25#11, 0x26#11,
    0x28#11, 0x29#11, 0x2A#11, 0x2B#11, 0x2C#11, 0x2D#11, 0x30#11, 0x31#11, 0x32#11, 0x33#11, 0x34#11,
    0x35#11]

/-- The primary opcodes that the primary map leaves out (R94, R98). -/
def ReservedOpcode (op : BitVec 6) : Prop :=
  op ∈ [0x15#6, 0x1E#6, 0x1F#6, 0x22#6, 0x2A#6, 0x2C#6, 0x2D#6] ∨ 0x30#6 ≤ op

theorem not_reservedOpcode_of_decode_ok (h : decode w = .ok i) : ¬ ReservedOpcode (opField w) := by
  unfold decode at h
  split at h
  case h_42 => cases h
  all_goals
    next hop => rw [hop]; unfold ReservedOpcode; decide

theorem funcField_mem_specialCodes_of_decodeSpecial_ok (h : decodeSpecial w = .ok i) :
    funcField w ∈ specialCodes := by
  unfold decodeSpecial at h
  split at h
  case h_24 => cases h
  all_goals
    next hfunc => rw [hfunc]; decide

/-- The FPARITH map assigns the codes below 0x1E (R96). -/
theorem funcField_lt_of_decodeFParith_ok (h : decodeFParith w = .ok i) : funcField w < 0x1E#11 := by
  unfold decodeFParith at h
  split at h
  case h_31 => cases h
  all_goals
    next hfunc => rw [hfunc]; decide

theorem decode_of_opField_special (hop : opField w = 0x00#6) : decode w = decodeSpecial w := by
  simp only [decode, hop]

theorem decode_of_opField_fparith (hop : opField w = 0x01#6) : decode w = decodeFParith w := by
  simp only [decode, hop]

/-! R99: no assigned function code has a bit above its low six. -/

theorem high_bits_eq_zero_of_mem_specialCodes :
    ∀ func ∈ specialCodes, func.extractLsb' 6 5 = 0#5 := by decide

theorem high_bits_eq_zero_of_lt_fparith {func : BitVec 11} (h : func < 0x1E#11) :
    func.extractLsb' 6 5 = 0#5 := by
  have hlt : func.toNat < 2 ^ 6 := Nat.lt_trans h (by decide)
  rw [← BitVec.toNat_inj, BitVec.extractLsb'_toNat, Nat.shiftRight_eq_div_pow, Nat.div_eq_of_lt hlt]
  rfl

theorem high_bits_eq_zero_of_decode_ok (hop : opField w = 0x00#6 ∨ opField w = 0x01#6)
    (h : decode w = .ok i) : (funcField w).extractLsb' 6 5 = 0#5 := by
  obtain hspecial | hfparith := hop
  · rw [decode_of_opField_special hspecial] at h
    exact high_bits_eq_zero_of_mem_specialCodes _ (funcField_mem_specialCodes_of_decodeSpecial_ok h)
  · rw [decode_of_opField_fparith hfparith] at h
    exact high_bits_eq_zero_of_lt_fparith (funcField_lt_of_decodeFParith_ok h)

end Sys2Proof

namespace Sys2Proof.Machine

variable {s : State} {w : Word}

/-- R98: a word that the decode procedure refuses faults in the step that fetches it. -/
theorem step_of_undecodable (hrun : s.pc ≠ s.launch.endPc) (hf : fetch s = .ok w)
    (hd : ∀ i, decodeUnder s.launch.opc w ≠ .ok i) : step s = .fault (.illegalInstruction s.pc w) := by
  have hover : runOver s = false := beq_eq_false_iff_ne.2 hrun
  cases h : decodeUnder s.launch.opc w with
  | ok i => exact absurd h (hd i)
  | error e => simp [step, hover, hf, h]

/-- Settles O5: in each clause the word would decode only with a number that the clause excludes. -/
theorem reservedEncodingsRaiseIllegalInstruction :
    Obligations.ReservedEncodingsRaiseIllegalInstruction := by
  intro s w hopc hrun hf
  have illegal (hd : ∀ i, decode w ≠ .ok i) : step s = .fault (.illegalInstruction s.pc w) :=
    step_of_undecodable hrun hf (by rwa [hopc])
  refine ⟨?primary, ?special, ?fparith, ?highBits⟩
  case primary =>
    exact fun hreserved => illegal fun i hi => not_reservedOpcode_of_decode_ok hi hreserved
  case special =>
    rintro ⟨hop, hunassigned⟩
    refine illegal fun i hi => ?_
    rw [decode_of_opField_special hop] at hi
    exact hunassigned (funcField_mem_specialCodes_of_decodeSpecial_ok hi)
  case fparith =>
    rintro ⟨hop, hunassigned⟩
    refine illegal fun i hi => ?_
    rw [decode_of_opField_fparith hop] at hi
    exact BitVec.not_lt.2 hunassigned (funcField_lt_of_decodeFParith_ok hi)
  case highBits =>
    exact fun hop hhigh => illegal fun i hi => hhigh (high_bits_eq_zero_of_decode_ok hop hi)

end Sys2Proof.Machine
end

