-- ==== Sys2Proof/Proofs/LoadStore.lean ====
section
/-! The loads and stores (`40_load_store.md` R121): the chain of checks common to all twelve, each check
in the terms of the statement, and the four kinds of access that the chain tells apart. -/

namespace Sys2Proof.Machine

/-! What `raiseOr` makes of each check in front of the checks `f` that follow it. -/

/-- R121, step 1. -/
theorem raiseOr_oddFault_or (s : State) (rd : FReg) (f : Option Fault) (t : State) :
    raiseOr ((oddFault s rd).or f) t =
      if rd.toNat % 2 = 1 then .fault (.oddFPRegister s.pc rd) else raiseOr f t := by
  by_cases heven : EvenReg rd
  · have hnot : ¬ rd.toNat % 2 = 1 := by omega
    rw [oddFault_of_even heven, if_neg hnot, Option.none_or]
  · have hodd : rd.toNat % 2 = 1 := Nat.mod_two_ne_zero.1 heven
    rw [oddFault_of_odd heven, if_pos hodd, Option.some_or, raiseOr_some]

/-- R121, steps 3 and 4. -/
theorem raiseOr_dataFault_or (s : State) (a : Word) (n : Nat) (kind : AccessKind) (f : Option Fault)
    (t : State) :
    raiseOr ((dataFault s a n kind).or f) t =
      if a.toNat % n ≠ 0 then .fault (.dataMisaligned s.pc a n)
      else if ¬ ∀ k : Nat, k < n → inRegions s.launch.memMap (a + BitVec.ofNat 32 k) = true then
        .fault (.accessFault s.pc a n kind)
      else raiseOr f t := by
  obtain ⟨hmis, hf⟩ | ⟨hal, hunmapped, hf⟩ | ⟨⟨hal, hin⟩, hf⟩ := dataFault_cases s a n kind
  · rw [hf, if_pos hmis, Option.some_or, raiseOr_some]
  · have hout : ¬ ∀ k : Nat, k < n → inRegions s.launch.memMap (a + BitVec.ofNat 32 k) = true := by
      rw [← mapped_eq_true_iff, hunmapped]
      exact Bool.false_ne_true
    rw [hf, if_neg (not_not.2 hal), if_pos hout, Option.some_or, raiseOr_some]
  · rw [hf, if_neg (not_not.2 hal), if_neg (not_not.2 hin), Option.none_or]

/-- R121, step 5. -/
theorem raiseOr_textFault (s : State) (a : Word) (n : Nat) (t : State) :
    raiseOr (textFault s a n) t =
      if s.launch.smc = .refuse ∧ ¬ ∀ k : Nat, k < n → ¬ InText s (a + BitVec.ofNat 32 k) then
        .fault (.storeToText s.pc a)
      else .next t := by
  have hmeets : meetsText s.launch a n = true ↔
      ¬ ∀ k : Nat, k < n → ¬ InText s (a + BitVec.ofNat 32 k) := by
    rw [← meetsText_eq_false_iff, Bool.not_eq_false]
  simp only [textFault, hmeets]
  split <;> rfl

/-! The chain. -/

/-- R121 for an access of `n` bytes at `a`: a store if `store`, else a load, with `rd` the number of a
pair if `double`; `t` is the state after the access where no check fails. -/
def checkedAccess (s : State) (rd : BitVec 5) (a : Word) (n : Nat) (double store : Bool) (t : State) :
    Host.Outcome State Fault Refusal :=
  if double = true ∧ rd.toNat % 2 = 1 then .fault (.oddFPRegister s.pc rd)
  else if a.toNat % n ≠ 0 then .fault (.dataMisaligned s.pc a n)
  else if ¬ ∀ k : Nat, k < n → inRegions s.launch.memMap (a + BitVec.ofNat 32 k) = true then
    .fault (.accessFault s.pc a n (if store then .store else .load))
  else if store = true ∧ s.launch.smc = .refuse ∧
      ¬ ∀ k : Nat, k < n → ¬ InText s (a + BitVec.ofNat 32 k) then
    .fault (.storeToText s.pc a)
  else .next t

section
variable (s : State) (rd : BitVec 5) (a : Word) (n : Nat) (t : State)

/-- The checks of LB, LBU, LH, LHU, LW and LF. -/
theorem raiseOr_loadFault_eq_checkedAccess :
    raiseOr (loadFault s a n) t = checkedAccess s rd a n false false t := by
  rw [loadFault, ← Option.or_none (o := dataFault s a n .load), raiseOr_dataFault_or]
  simp [checkedAccess]

/-- The checks of SB, SH, SW and SF. -/
theorem raiseOr_storeFault_eq_checkedAccess :
    raiseOr (storeFault s a n) t = checkedAccess s rd a n false true t := by
  rw [storeFault, raiseOr_dataFault_or, raiseOr_textFault]
  simp [checkedAccess]

/-- The register check comes in front of the same chain. -/
theorem checkedAccess_double (store : Bool) :
    checkedAccess s rd a n true store t =
      if rd.toNat % 2 = 1 then .fault (.oddFPRegister s.pc rd)
      else checkedAccess s rd a n false store t := by
  simp [checkedAccess]

/-- The checks of LD. -/
theorem raiseOr_oddFault_or_loadFault_eq_checkedAccess :
    raiseOr ((oddFault s rd).or (loadFault s a n)) t = checkedAccess s rd a n true false t := by
  rw [raiseOr_oddFault_or, raiseOr_loadFault_eq_checkedAccess s rd, checkedAccess_double]

/-- The checks of SD. -/
theorem raiseOr_oddFault_or_storeFault_eq_checkedAccess :
    raiseOr ((oddFault s rd).or (storeFault s a n)) t = checkedAccess s rd a n true true t := by
  rw [raiseOr_oddFault_or, raiseOr_storeFault_eq_checkedAccess s rd, checkedAccess_double]

end

/-- Settles O18: each of the twelve is `raiseOr` on the checks of its kind, and the kind, read off its
mnemonic, selects the steps of the chain. -/
theorem loadStoreChecksInOrder : Obligations.LoadStoreChecksInOrder := by
  intro s rd rs1 imm
  have load := raiseOr_loadFault_eq_checkedAccess s rd (effectiveAddress s rs1 imm)
  have loadDouble := raiseOr_oddFault_or_loadFault_eq_checkedAccess s rd (effectiveAddress s rs1 imm)
  have store := raiseOr_storeFault_eq_checkedAccess s rd (effectiveAddress s rs1 imm)
  have storeDouble := raiseOr_oddFault_or_storeFault_eq_checkedAccess s rd (effectiveAddress s rs1 imm)
  simp only [List.forall_mem_cons]
  refine ⟨?lb, ?lbu, ?lh, ?lhu, ?lw, ?lf, ?ld, ?sb, ?sh, ?sw, ?sf, ?sd, List.forall_mem_nil _⟩
  case lb | lbu => exact load 1 _
  case lh | lhu => exact load 2 _
  case lw | lf => exact load 4 _
  case ld => exact loadDouble 8 _
  case sb => exact store 1 _
  case sh => exact store 2 _
  case sw | sf => exact store 4 _
  case sd => exact storeDouble 8 _

end Sys2Proof.Machine
end

