-- ==== Sys2Proof/Proofs/SignedArith.lean ====
section
/-! Signed overflow (`42_arith_logical.md` R151): its three exclusive cases, once for a destination of
either kind, and the exact results of ADD, ADDI, SUB, SUBI, MULT and DIV. -/

namespace Sys2Proof.Machine

/-- The two's complement word of a result that fits reads back as that result. -/
theorem toInt_ofInt_of_fits {r : Int} (h : Fits r) : (BitVec.ofInt 32 r).toInt = r :=
  BitVec.toInt_ofInt_eq_self (by decide) h.1 (Int.lt_of_le_sub_one h.2)

/-! The three cases. -/

/-- R151 for an instruction at `s` with the exact result `r` and the answer `o`: a next state with `fitting`
if `r` fits, else the fault if overflow traps, else a next state with `wrapped`. -/
def FitsTrapsOrWraps (s : State) (o : Host.Outcome State Fault Refusal) (r : Int)
    (fitting wrapped : State → Prop) : Prop :=
  (Fits r → Completes o fitting) ∧
  (¬ Fits r → s.launch.ovfTraps = true → o = .fault (.integerOverflow s.pc)) ∧
  (¬ Fits r → s.launch.ovfTraps = false → Completes o wrapped)

/-- The two answers of `signedToGpr_cases` and `signedToFpr_cases` are the three cases of R151. -/
theorem fitsTrapsOrWraps_of_cases {s t : State} {o : Host.Outcome State Fault Refusal} {r : Int}
    {fitting wrapped : State → Prop}
    (hcases : (¬ Fits r ∧ s.launch.ovfTraps = true ∧ o = .fault (.integerOverflow s.pc)) ∨
      ((Fits r ∨ s.launch.ovfTraps = false) ∧ o = .next t))
    (hfitting : Fits r → fitting t) (hwrapped : wrapped t) : FitsTrapsOrWraps s o r fitting wrapped := by
  obtain ⟨hfits, htraps, hfault⟩ | ⟨hdone, hnext⟩ := hcases
  · exact ⟨fun h => absurd h hfits, fun _ _ => hfault,
      fun _ hwraps => absurd (hwraps.symm.trans htraps) Bool.false_ne_true⟩
  · exact ⟨fun h => ⟨t, hnext, hfitting h⟩,
      fun hfits htraps => absurd hdone (not_or.2 ⟨hfits, ne_false_of_eq_true htraps⟩),
      fun _ _ => ⟨t, hnext, hwrapped⟩⟩

/-- R151 into a general register; R0 discards the result but not the fault (R22). -/
theorem signedToGpr_fitsTrapsOrWraps (s : State) (rd : GReg) (r : Int) :
    FitsTrapsOrWraps s (signedToGpr s rd r) r
      (fun t => WritesGpr s t rd (BitVec.ofInt 32 r) ∧ t.pc = s.pc + 4#32 ∧
        (rd ≠ 0#5 → (t.gpr rd).toInt = r))
      (fun t => WritesGpr s t rd (BitVec.ofInt 32 r) ∧ t.pc = s.pc + 4#32) := by
  have hwrites := writesGpr_setGpr s rd (BitVec.ofInt 32 r) (s.pc + 4#32)
  refine fitsTrapsOrWraps_of_cases (signedToGpr_cases s rd r) (fun hfits => ?_) ⟨hwrites, rfl⟩
  refine ⟨hwrites, rfl, fun hrd => ?_⟩
  calc ((s.setGpr rd (BitVec.ofInt 32 r)).gpr rd).toInt
    _ = (BitVec.ofInt 32 r).toInt := by rw [State.gpr_setGpr_self, if_neg hrd]
    _ = r := toInt_ofInt_of_fits hfits

/-- R151 into a floating-point register (R160, R162). -/
theorem signedToFpr_fitsTrapsOrWraps (s : State) (rd : FReg) (r : Int) :
    FitsTrapsOrWraps s (signedToFpr s rd r) r
      (fun t => WritesFpr s t rd (BitVec.ofInt 32 r) 0 ∧ t.pc = s.pc + 4#32 ∧ (t.fpr rd).toInt = r)
      (fun t => WritesFpr s t rd (BitVec.ofInt 32 r) 0 ∧ t.pc = s.pc + 4#32) := by
  have hwrites := writesFpr_setFpr s rd (BitVec.ofInt 32 r) (s.pc + 4#32)
  refine fitsTrapsOrWraps_of_cases (signedToFpr_cases s rd r) (fun hfits => ?_) ⟨hwrites, rfl⟩
  refine ⟨hwrites, rfl, ?_⟩
  calc ((s.setFpr rd (BitVec.ofInt 32 r)).fpr rd).toInt
    _ = (BitVec.ofInt 32 r).toInt := by rw [State.fpr_setFpr_self]
    _ = r := toInt_ofInt_of_fits hfits

/-! The exact results. ADD, SUB and MULT hand theirs over as it is. -/

section
variable (s : State)

/-- The sign-extended immediate is the number that the immediate is (R87). -/
theorem signedImm_toInt (imm : Half) : (signedImm imm).toInt = imm.toInt :=
  BitVec.toInt_signExtend_of_le (by decide)

/-- R153. -/
theorem exec_addi (rd rs1 : GReg) (imm : Half) :
    exec (.addi rd rs1 imm) s = signedToGpr s rd ((s.gpr rs1).toInt + imm.toInt) := by
  rw [← signedImm_toInt imm]
  rfl

/-- R157. -/
theorem exec_subi (rd rs1 : GReg) (imm : Half) :
    exec (.subi rd rs1 imm) s = signedToGpr s rd ((s.gpr rs1).toInt - imm.toInt) := by
  rw [← signedImm_toInt imm]
  rfl

/-- R162: the quotient is looked at only if the divisor is not zero. -/
theorem exec_div_of_ne_zero (rd rs1 : FReg) {rs2 : FReg} (h : s.fpr rs2 ≠ 0#32) :
    exec (.div rd rs1 rs2) s = signedToFpr s rd ((s.fpr rs1).toInt.tdiv (s.fpr rs2).toInt) :=
  if_neg h

end

/-- Settles O23: each of the six is `signedToGpr` or `signedToFpr` on its exact result. -/
theorem signedResultsFitTrapOrWrap : Obligations.SignedResultsFitTrapOrWrap := by
  refine ⟨fun s rd rs1 rs2 imm => ?general, fun s rd rs1 rs2 => ?floating, rfl⟩
  case general =>
    simp only [List.forall_mem_cons, exec_addi, exec_subi]
    refine ⟨?add, ?addi, ?sub, ?subi, List.forall_mem_nil _⟩
    case add | addi | sub | subi => exact signedToGpr_fitsTrapsOrWraps s rd _
  case floating =>
    rw [List.forall_mem_cons, List.forall_mem_singleton]
    refine ⟨fun _ => ?mult, fun hdivisor => ?div⟩
    case mult => exact signedToFpr_fitsTrapsOrWraps s rd _
    case div =>
      rw [exec_div_of_ne_zero s rd rs1 (hdivisor rfl)]
      exact signedToFpr_fitsTrapsOrWraps s rd _

end Sys2Proof.Machine
end

