-- ==== Sys2Proof/Proofs/JumpBranch.lean ====
section
/-! Branches and jumps (`44_jump_branch.md` R252): the targets that they load into `pc`, the link
register, and the fault that a misaligned target meets at the next fetch. -/

namespace Sys2Proof.Machine

section
variable (s : State)

/-- R250: the displacement is the number that the immediate is, modulo 2^32. -/
theorem branchTarget_eq (imm : Half) : branchTarget s imm = s.pc + 4#32 + BitVec.ofInt 32 imm.toInt := rfl

/-- R258, R259: the same for the 26-bit displacement of J and JAL. -/
theorem jumpTarget_eq (name : BitVec 26) :
    jumpTarget s name = s.pc + 4#32 + BitVec.ofInt 32 name.toInt := rfl

/-- R250: a branch goes to its target or, not taken, to the next instruction. -/
theorem branchIf_pc_cases (taken : Bool) (imm : Half) :
    (branchIf s taken imm).pc = s.pc + 4#32 + BitVec.ofInt 32 imm.toInt ∨
      (branchIf s taken imm).pc = s.pc + 4#32 := by
  cases taken with
  | true => exact .inl (branchTarget_eq s imm)
  | false => exact .inr s.nextPc_eq

/-- R259, R261: the link that JAL and JALR write, whatever their target. -/
theorem gpr_link_of_setGpr_setPc (target : Word) :
    ((s.setGpr 31#5 s.nextPc).setPc target).gpr 31#5 = s.pc + 4#32 := by
  obtain ⟨hlink, -⟩ := writesGpr_setGpr s 31#5 s.nextPc target
  exact hlink

end

/-- R58, R323: unless the run is over, a step at a misaligned `pc` ends in its fetch. -/
theorem step_of_misaligned {s : State} (hmis : s.pc.toNat % 4 ≠ 0) (hrun : s.pc ≠ s.launch.endPc) :
    step s = .fault (.fetchMisaligned s.pc s.pc) :=
  step_of_fetch_error hrun (fetch_of_misaligned hmis)

/-- Settles O41: no transfer looks at the low bits of its target, so each has its next state, and the
fault is that of the fetch there. `nofun` closes the clauses about other mnemonics. -/
theorem misalignedTargetFaultsAtTheNextFetch : Obligations.MisalignedTargetFaultsAtTheNextFetch := by
  intro s rs1 imm name
  simp only [List.forall_mem_cons]
  refine ⟨?beqz, ?bnez, ?bfpt, ?bfpf, ?j, ?jal, ?jr, ?jalr, List.forall_mem_nil _⟩
  case beqz | bnez | bfpt | bfpf =>
    exact ⟨_, rfl, nofun, nofun, fun _ => branchIf_pc_cases s _ imm, nofun, step_of_misaligned⟩
  case j =>
    exact ⟨_, rfl, fun _ => jumpTarget_eq s name, nofun, nofun, nofun, step_of_misaligned⟩
  case jal =>
    exact ⟨_, rfl, fun _ => jumpTarget_eq s name, nofun, nofun,
      fun _ => gpr_link_of_setGpr_setPc s _, step_of_misaligned⟩
  case jr =>
    exact ⟨_, rfl, nofun, fun _ => State.setPc_pc s _, nofun, nofun, step_of_misaligned⟩
  case jalr =>
    exact ⟨_, rfl, nofun, fun _ => State.setPc_pc _ _, nofun,
      fun _ => gpr_link_of_setGpr_setPc s _, step_of_misaligned⟩

end Sys2Proof.Machine
end

