-- ==== Sys2Proof/Proofs/TrapReturn.lean ====
section
/-! Trap entry and return (`60_exceptions.md` R288): RFE reads nothing but IAR, so where it goes is decided
by what last wrote IAR, the TRAP or the handler's MOVI2S. -/

namespace Sys2Proof.Machine

/-! The three instructions in the terms of the state's operations. -/

section
variable (s : State)

/-- R286. -/
theorem exec_trap (name : BitVec 26) :
    exec (.trap name) s = .next ((s.setIar s.nextPc).setPc (unsignedName name)) := rfl

/-- R288. -/
theorem exec_rfe : exec .rfe s = .next (s.setPc s.iar) := rfl

/-- R141 where the destination is the number that the launch gives IAR; the source is any register. -/
theorem exec_movi2s_iar (rs1 : GReg) :
    exec (.movi2s s.launch.sreg.iar rs1) s = .next (s.setIar (s.gpr rs1)).advance := if_pos rfl

/-- RFE goes to whatever IAR holds. -/
theorem completes_rfe_of_iar {a : Word} (h : s.iar = a) : Completes (exec .rfe s) fun t => t.pc = a :=
  ⟨_, exec_rfe s, (s.setPc_pc s.iar).trans h⟩

end

/-- R286: a TRAP at `A` leaves `A + 4` in IAR. -/
theorem iar_of_exec_trap {s t : State} {name : BitVec 26} (h : exec (.trap name) s = .next t) :
    t.iar = s.pc + 4#32 := by
  rw [exec_trap] at h
  cases h
  calc ((s.setIar s.nextPc).setPc (unsignedName name)).iar
    _ = s.nextPc := by rw [State.setPc_iar, State.setIar_iar]
    _ = s.pc + 4#32 := s.nextPc_eq

/-- Settles O44: the frame of RFE, then the two values that IAR can hold when the handler returns. -/
theorem trapReturn : Obligations.TrapReturn := by
  refine ⟨fun s => ?frame, fun s t u name htrap hkept => ?afterTrap, fun s rs1 => ?elsewhere⟩
  case frame => exact ⟨_, exec_rfe s, keepsAll_setPc s s.iar, s.setPc_pc s.iar⟩
  case afterTrap => exact completes_rfe_of_iar u (hkept.trans (iar_of_exec_trap htrap))
  case elsewhere =>
    have hiar : (s.setIar (s.gpr rs1)).advance.iar = s.gpr rs1 := by
      rw [State.advance_iar, State.setIar_iar]
    exact ⟨_, exec_movi2s_iar s rs1, completes_rfe_of_iar _ hiar⟩

end Sys2Proof.Machine
end

