-- ==== Sys2Proof/Proofs/Encoding.lean ====
section
/-! Encoding and decoding (`30_encoding.md` R80 to R99): the fields of a word in each format, and that a word
decodes to an instruction exactly if it has the fields that the instruction uses. -/

namespace Sys2Proof

/-! A field of a word written in a format is what the format was given (R82 to R84). -/

section
variable (op : BitVec 6) (rs1 rs2 rd : BitVec 5) (imm : Half) (func : BitVec 11) (name : BitVec 26)

@[simp] theorem opField_iWord : opField (iWord op rs1 rd imm) = op := by
  ext k hk; grind [iWord, opField]
@[simp] theorem rs1Field_iWord : rs1Field (iWord op rs1 rd imm) = rs1 := by
  ext k hk; grind [iWord, rs1Field]
@[simp] theorem rdIField_iWord : rdIField (iWord op rs1 rd imm) = rd := by
  ext k hk; grind [iWord, rdIField]
@[simp] theorem immField_iWord : immField (iWord op rs1 rd imm) = imm := by
  ext k hk; grind [iWord, immField]

@[simp] theorem opField_rWord : opField (rWord op rs1 rs2 rd func) = op := by
  ext k hk; grind [rWord, opField]
@[simp] theorem rs1Field_rWord : rs1Field (rWord op rs1 rs2 rd func) = rs1 := by
  ext k hk
  simp only [rWord, rs1Field, BitVec.getElem_extractLsb', BitVec.getLsbD_append]
  grind
@[simp] theorem rs2Field_rWord : rs2Field (rWord op rs1 rs2 rd func) = rs2 := by
  ext k hk; grind [rWord, rs2Field]
@[simp] theorem rdRField_rWord : rdRField (rWord op rs1 rs2 rd func) = rd := by
  ext k hk; grind [rWord, rdRField]
@[simp] theorem funcField_rWord : funcField (rWord op rs1 rs2 rd func) = func := by
  ext k hk; grind [rWord, funcField]

@[simp] theorem opField_jWord : opField (jWord op name) = op := by
  ext k hk; grind [jWord, opField]
@[simp] theorem nameField_jWord : nameField (jWord op name) = name := by
  ext k hk; grind [jWord, nameField]

end

/-! A word is put together again from the fields of any one format. -/

theorem iWord_eq_iff {op : BitVec 6} {rs1 rd : BitVec 5} {imm : Half} {w : Word} :
    iWord op rs1 rd imm = w ↔
      op = opField w ∧ rs1 = rs1Field w ∧ rd = rdIField w ∧ imm = immField w := by
  constructor
  · rintro rfl
    simp
  · rintro ⟨rfl, rfl, rfl, rfl⟩
    ext k hk
    grind [iWord, opField, rs1Field, rdIField, immField]

theorem rWord_eq_iff {op : BitVec 6} {rs1 rs2 rd : BitVec 5} {func : BitVec 11} {w : Word} :
    rWord op rs1 rs2 rd func = w ↔
      op = opField w ∧ rs1 = rs1Field w ∧ rs2 = rs2Field w ∧ rd = rdRField w ∧ func = funcField w := by
  constructor
  · rintro rfl
    simp
  · rintro ⟨rfl, rfl, rfl, rfl, rfl⟩
    ext k hk
    grind [rWord, opField, rs1Field, rs2Field, rdRField, funcField]

theorem jWord_eq_iff {op : BitVec 6} {name : BitVec 26} {w : Word} :
    jWord op name = w ↔ op = opField w ∧ name = nameField w := by
  constructor
  · rintro rfl
    simp
  · rintro ⟨rfl, rfl⟩
    ext k hk
    grind [jWord, opField, nameField]

/-! A field of a masked word, and of a word written as a number. -/

section
variable (w m : Word) (n : Nat)

@[simp] theorem opField_and : opField (w &&& m) = opField w &&& opField m := BitVec.extractLsb'_and
@[simp] theorem rs1Field_and : rs1Field (w &&& m) = rs1Field w &&& rs1Field m := BitVec.extractLsb'_and
@[simp] theorem rs2Field_and : rs2Field (w &&& m) = rs2Field w &&& rs2Field m := BitVec.extractLsb'_and
@[simp] theorem rdIField_and : rdIField (w &&& m) = rdIField w &&& rdIField m := BitVec.extractLsb'_and
@[simp] theorem rdRField_and : rdRField (w &&& m) = rdRField w &&& rdRField m := BitVec.extractLsb'_and
@[simp] theorem funcField_and : funcField (w &&& m) = funcField w &&& funcField m :=
  BitVec.extractLsb'_and
@[simp] theorem immField_and : immField (w &&& m) = immField w &&& immField m := BitVec.extractLsb'_and
@[simp] theorem nameField_and : nameField (w &&& m) = nameField w &&& nameField m :=
  BitVec.extractLsb'_and

theorem extractLsb'_ofNat_word {start len : Nat} (h : start + len ≤ 32) :
    (BitVec.ofNat 32 n).extractLsb' start len = BitVec.ofNat len (n >>> start) := by
  apply BitVec.eq_of_getLsbD_eq
  intro k hk
  have hlt : start + k < 32 := by omega
  simp only [BitVec.getLsbD_extractLsb', BitVec.getLsbD_ofNat, hk, hlt, Nat.testBit_shiftRight,
    decide_true, Bool.true_and]

@[simp] theorem opField_ofNat : opField (BitVec.ofNat 32 n) = BitVec.ofNat 6 (n >>> 26) :=
  extractLsb'_ofNat_word n (by decide)
@[simp] theorem rs1Field_ofNat : rs1Field (BitVec.ofNat 32 n) = BitVec.ofNat 5 (n >>> 21) :=
  extractLsb'_ofNat_word n (by decide)
@[simp] theorem rs2Field_ofNat : rs2Field (BitVec.ofNat 32 n) = BitVec.ofNat 5 (n >>> 16) :=
  extractLsb'_ofNat_word n (by decide)
@[simp] theorem rdIField_ofNat : rdIField (BitVec.ofNat 32 n) = BitVec.ofNat 5 (n >>> 16) :=
  extractLsb'_ofNat_word n (by decide)
@[simp] theorem rdRField_ofNat : rdRField (BitVec.ofNat 32 n) = BitVec.ofNat 5 (n >>> 11) :=
  extractLsb'_ofNat_word n (by decide)
@[simp] theorem funcField_ofNat : funcField (BitVec.ofNat 32 n) = BitVec.ofNat 11 n :=
  extractLsb'_ofNat_word n (by decide)
@[simp] theorem immField_ofNat : immField (BitVec.ofNat 32 n) = BitVec.ofNat 16 n :=
  extractLsb'_ofNat_word n (by decide)
@[simp] theorem nameField_ofNat : nameField (BitVec.ofNat 32 n) = BitVec.ofNat 26 n :=
  extractLsb'_ofNat_word n (by decide)

end

/-! The whole of a field as a mask. -/

@[simp] theorem and_mask5 (v : BitVec 5) : v &&& 31#5 = v := BitVec.and_allOnes
@[simp] theorem and_mask6 (v : BitVec 6) : v &&& 63#6 = v := BitVec.and_allOnes
@[simp] theorem and_mask11 (v : BitVec 11) : v &&& 2047#11 = v := BitVec.and_allOnes
@[simp] theorem and_mask16 (v : BitVec 16) : v &&& 65535#16 = v := BitVec.and_allOnes
@[simp] theorem and_mask26 (v : BitVec 26) : v &&& 67108863#26 = v := BitVec.and_allOnes

/-! The words of an instruction. In the case splits the definitions are opened by `rw`, ahead of `simp`: as steps
of a single unfolding the kernel would have to compare the masks bit by bit. -/

/-- `w` is a word of `i`: it has the fields that `i` uses, and anything in the unused ones (R92). -/
def IsWordOf (i : Instr) (w : Word) : Prop := encode i = w &&& ~~~(unusedBits i)

theorem isWordOf_encode (i : Instr) : IsWordOf i (encode i) := by
  cases i
  all_goals
    rw [IsWordOf, encode, unusedBits]
    simp [iWord_eq_iff, rWord_eq_iff, jWord_eq_iff]

/-- The SPECIAL map (R95) reads only words of the instruction that it answers. -/
theorem isWordOf_of_decodeSpecial {w : Word} {i : Instr} (hop : opField w = 0x00#6)
    (h : decodeSpecial w = .ok i) : IsWordOf i w := by
  unfold decodeSpecial at h
  split at h
  case h_24 => cases h
  all_goals
    next hfunc =>
    cases h
    rw [IsWordOf, encode, unusedBits, rWord_eq_iff]
    simp [hop, hfunc]

/-- The same of the FPARITH map (R96). -/
theorem isWordOf_of_decodeFParith {w : Word} {i : Instr} (hop : opField w = 0x01#6)
    (h : decodeFParith w = .ok i) : IsWordOf i w := by
  unfold decodeFParith at h
  split at h
  case h_31 => cases h
  all_goals
    next hfunc =>
    cases h
    rw [IsWordOf, encode, unusedBits, rWord_eq_iff]
    simp [hop, hfunc]

/-- The same of the primary map (R94, R97). -/
theorem isWordOf_of_decode {w : Word} {i : Instr} (h : decode w = .ok i) : IsWordOf i w := by
  unfold decode at h
  split at h
  case h_1 hop => exact isWordOf_of_decodeSpecial hop h
  case h_2 hop => exact isWordOf_of_decodeFParith hop h
  case h_42 => cases h
  all_goals
    next hop =>
    cases h
    rw [IsWordOf, encode, unusedBits]
    simp [iWord_eq_iff, jWord_eq_iff, hop]

/-- A word of `i` decodes to `i`: its used fields select every branch that leads there. -/
theorem decode_of_isWordOf {w : Word} {i : Instr} (h : IsWordOf i w) : decode w = .ok i := by
  cases i
  all_goals
    rw [IsWordOf, encode, unusedBits] at h
    simp [iWord_eq_iff, rWord_eq_iff, jWord_eq_iff] at h
    simp [decode, decodeSpecial, decodeFParith, ← h]

/-- Decoding and encoding agree on every word. -/
theorem decode_eq_ok_iff {w : Word} {i : Instr} : decode w = .ok i ↔ IsWordOf i w :=
  ⟨isWordOf_of_decode, decode_of_isWordOf⟩

theorem encode_and_unusedBits (i : Instr) : encode i &&& unusedBits i = 0#32 := by
  rw [isWordOf_encode i, BitVec.and_assoc, BitVec.not_and_self]
  exact BitVec.and_zero

/-- Bits put into the unused fields of a word of `i` leave it one. -/
theorem isWordOf_or_unused (i : Instr) (u : Word) :
    IsWordOf i (encode i ||| (u &&& unusedBits i)) := by
  have cleared : (encode i ||| (u &&& unusedBits i)) &&& ~~~(unusedBits i) =
      encode i &&& ~~~(unusedBits i) := by
    ext k hk
    simp only [BitVec.getElem_and, BitVec.getElem_or, BitVec.getElem_not]
    cases (unusedBits i)[k] <;> simp
  rw [IsWordOf, cleared]
  exact isWordOf_encode i

/-- Settles O1: the word that the encoder writes is a word of its instruction. -/
theorem decodeOfEncodeIsTheInstruction : Obligations.DecodeOfEncodeIsTheInstruction :=
  fun i => decode_eq_ok_iff.2 (isWordOf_encode i)

/-- Settles O2: `IsWordOf` is what O2 says of a word that decodes. -/
theorem encodeOfDecodeClearsUnusedFields : Obligations.EncodeOfDecodeClearsUnusedFields :=
  fun _ _ => decode_eq_ok_iff.1

/-- Settles O4. -/
theorem unusedFieldsAreIgnored : Obligations.UnusedFieldsAreIgnored :=
  fun i u => ⟨decode_eq_ok_iff.2 (isWordOf_or_unused i u), encode_and_unusedBits i⟩

/-- Settles O7, by running the decoder on the eight words. -/
theorem writtenOutWordsDecode : Obligations.WrittenOutWordsDecode :=
  ⟨rfl, rfl, rfl, rfl, rfl, rfl, rfl, rfl⟩

end Sys2Proof
end

