-- ==== Sys2Proof/Proofs/OpcodeTable.lean ====
section
/-! The opcode table (`30_encoding.md` R97) and other numberings (`00_scope.md` R6): a word meets the match and
mask pair of a row exactly if it has the row's numbers, and the numbers of a word say what it decodes to. -/

namespace Sys2Proof

/-- The word that has these numbers and zeros elsewhere. -/
def OpcodeNumbers.pattern (n : OpcodeNumbers) : Word :=
  match n.func with
  | some func => rWord n.op 0#5 0#5 0#5 func
  | none => jWord n.op 0#26

/-- The bits of a word that hold numbers of this format (R97). -/
def OpcodeNumbers.mask (n : OpcodeNumbers) : Word :=
  match n.func with
  | some _ => 0xFC0007FF#32
  | none => 0xFC000000#32

/-- A row's match and mask pair states the row's numbers and nothing else. -/
theorem pattern_mask_of_mem_opcodeRows :
    ∀ r ∈ opcodeRows, r.pattern = r.numbers.pattern ∧ r.mask = r.numbers.mask := by
  decide

/-- Meeting the match and mask pair of some numbers is having those numbers. -/
theorem OpcodeNumbers.and_mask_eq_pattern_iff (n : OpcodeNumbers) (w : Word) :
    w &&& n.mask = n.pattern ↔ n.selects w = true := by
  obtain ⟨op, func⟩ := n
  cases func with
  | none => simp [mask, pattern, selects, eq_comm (b := jWord _ _), jWord_eq_iff]
  | some func => simp [mask, pattern, selects, eq_comm (b := rWord _ _ _ _ _), rWord_eq_iff]

/-- The numbers select a word with this opcode and this function code. -/
def OpcodeNumbers.selectsCodes (n : OpcodeNumbers) (op : BitVec 6) (func : BitVec 11) : Bool :=
  n.op == op && n.func.all (· == func)

theorem OpcodeNumbers.selects_eq (n : OpcodeNumbers) (w : Word) :
    n.selects w = n.selectsCodes (opField w) (funcField w) := by
  obtain ⟨op, func⟩ := n
  cases func <;> rfl

/-- The mnemonics of the rows that select an opcode and a function code. -/
def rowNames (op : BitVec 6) (func : BitVec 11) : List String :=
  (opcodeRows.filter fun r => r.numbers.selectsCodes op func).map (·.mnemonic)

/-- The rows whose pair `w` meets are those that select its opcode and function code. -/
theorem map_filter_opcodeRows (w : Word) :
    (opcodeRows.filter fun r => w &&& r.mask == r.pattern).map (·.mnemonic) =
      rowNames (opField w) (funcField w) := by
  have meets : ∀ r ∈ opcodeRows,
      (w &&& r.mask == r.pattern) = r.numbers.selectsCodes (opField w) (funcField w) := by
    intro r hr
    obtain ⟨hpattern, hmask⟩ := pattern_mask_of_mem_opcodeRows r hr
    rw [hpattern, hmask, Bool.eq_iff_iff, beq_iff_eq, OpcodeNumbers.and_mask_eq_pattern_iff,
      OpcodeNumbers.selects_eq]
  rw [List.filter_congr meets, rowNames]

/-! The numbers that the maps assign; `specialCodes` has the SPECIAL function codes. -/

/-- The function codes that the FPARITH map assigns (R96). -/
def fparithCodes : List (BitVec 11) :=
  [0x00#11, 0x01#11, 0x02#11, 0x03#11, 0x04#11, 0x05#11, 0x06#11, 0x07#11, 0x08#11, 0x09#11, 0x0A#11,
    0x0B#11, 0x0C#11, 0x0D#11, 0x0E#11, 0x0F#11, 0x10#11, 0x11#11, 0x12#11, 0x13#11, 0x14#11, 0x15#11,
    0x16#11, 0x17#11, 0x18#11, 0x19#11, 0x1A#11, 0x1B#11, 0x1C#11, 0x1D#11]

/-- The primary opcodes that the primary map assigns (R94). -/
def primaryOpcodes : List (BitVec 6) :=
  [0x00#6, 0x01#6, 0x02#6, 0x03#6, 0x04#6, 0x05#6, 0x06#6, 0x07#6, 0x08#6, 0x09#6, 0x0A#6, 0x0B#6,
    0x0C#6, 0x0D#6, 0x0E#6, 0x0F#6, 0x10#6, 0x11#6, 0x12#6, 0x13#6, 0x14#6, 0x16#6, 0x17#6, 0x18#6,
    0x19#6, 0x1A#6, 0x1B#6, 0x1C#6, 0x1D#6, 0x20#6, 0x21#6, 0x23#6, 0x24#6, 0x25#6, 0x26#6, 0x27#6,
    0x28#6, 0x29#6, 0x2B#6, 0x2E#6, 0x2F#6]

theorem op_mem_primaryOpcodes : ∀ r ∈ opcodeRows, r.numbers.op ∈ primaryOpcodes := by decide

theorem func_mem_specialCodes :
    ∀ r ∈ opcodeRows, r.numbers.op = 0x00#6 → r.numbers.func ∈ specialCodes.map some := by decide

theorem func_mem_fparithCodes :
    ∀ r ∈ opcodeRows, r.numbers.op = 0x01#6 → r.numbers.func ∈ fparithCodes.map some := by decide

/-- No row has a reserved primary opcode (R98). -/
theorem rowNames_of_reserved_opcode {op : BitVec 6} (func : BitVec 11) (hop : op ∉ primaryOpcodes) :
    rowNames op func = [] := by
  simp only [rowNames, List.map_eq_nil_iff, List.filter_eq_nil_iff, OpcodeNumbers.selectsCodes,
    Bool.and_eq_true, beq_iff_eq]
  rintro r hr ⟨rfl, -⟩
  exact hop (op_mem_primaryOpcodes r hr)

/-- No row of a group has a function code outside the codes of the group (R98, R99). -/
theorem rowNames_of_reserved_func {op : BitVec 6} {func : BitVec 11} {codes : List (BitVec 11)}
    (hcodes : ∀ r ∈ opcodeRows, r.numbers.op = op → r.numbers.func ∈ codes.map some)
    (hfunc : func ∉ codes) : rowNames op func = [] := by
  simp only [rowNames, List.map_eq_nil_iff, List.filter_eq_nil_iff, OpcodeNumbers.selectsCodes,
    Bool.and_eq_true, beq_iff_eq]
  rintro r hr ⟨hop, hsel⟩
  obtain ⟨f, hf, hrf⟩ := List.mem_map.1 (hcodes r hr hop)
  rw [← hrf, Option.all_some, beq_iff_eq] at hsel
  exact hfunc (hsel ▸ hf)

/-! The rows that select a word, branch by branch of the decode procedure. -/

/-- The mnemonic of what a word decodes to. -/
def decodedNames : Except DecodeError Instr → List String
  | .ok i => [i.mnemonic]
  | .error _ => []

theorem rowNames_special (w : Word) :
    rowNames 0x00#6 (funcField w) = decodedNames (decodeSpecial w) := by
  unfold decodeSpecial
  split
  case h_24 =>
    have hfunc : funcField w ∉ specialCodes := by simp_all [specialCodes]
    exact rowNames_of_reserved_func func_mem_specialCodes hfunc
  all_goals
    next hfunc => rw [hfunc]; rfl

theorem rowNames_fparith (w : Word) :
    rowNames 0x01#6 (funcField w) = decodedNames (decodeFParith w) := by
  unfold decodeFParith
  split
  case h_31 =>
    have hfunc : funcField w ∉ fparithCodes := by simp_all [fparithCodes]
    exact rowNames_of_reserved_func func_mem_fparithCodes hfunc
  all_goals
    next hfunc => rw [hfunc]; rfl

theorem rowNames_decode (w : Word) :
    rowNames (opField w) (funcField w) = decodedNames (decode w) := by
  unfold decode
  split
  case h_1 hop => rw [hop, rowNames_special]
  case h_2 hop => rw [hop, rowNames_fparith]
  case h_42 =>
    have hop : opField w ∉ primaryOpcodes := by simp_all [primaryOpcodes]
    exact rowNames_of_reserved_opcode _ hop
  all_goals
    next hop => rw [hop]; rfl

/-- Settles O3: both sides depend on the opcode and the function code alone. -/
theorem decodeAgreesWithOpcodeTable : Obligations.DecodeAgreesWithOpcodeTable := by
  intro w
  rw [map_filter_opcodeRows, rowNames_decode]
  cases decode w <;> rfl

/-! Numberings (R6). -/

/-- A word that decodes has default numbers. -/
theorem exists_standardNumbers_selects {w : Word} {i : Instr} (h : decode w = .ok i) :
    ∃ n ∈ standardNumbers, n.selects w = true := by
  have hnames : i.mnemonic ∈ rowNames (opField w) (funcField w) := by
    rw [rowNames_decode, h]
    exact List.mem_singleton_self _
  obtain ⟨r, hr, -⟩ := List.mem_map.1 hnames
  obtain ⟨hmem, hsel⟩ := List.mem_filter.1 hr
  exact ⟨r.numbers, List.mem_map_of_mem hmem, (r.numbers.selects_eq w).trans hsel⟩

/-- Putting in the numbers that a word has changes nothing. -/
theorem OpcodeNumbers.put_of_selects {n : OpcodeNumbers} {w : Word} (h : n.selects w = true) :
    n.put w = w := by
  obtain ⟨op, func⟩ := n
  cases func with
  | none =>
    simp only [selects, Bool.and_true, beq_iff_eq] at h
    simp only [put, h, word_eq]
  | some func =>
    simp only [selects, Bool.and_eq_true, beq_iff_eq] at h
    obtain ⟨hop, hfunc⟩ := h
    simp only [put, hop, hfunc, word_eq_func]

/-- No word has the first numbers of both rows. -/
def NoWordMeetsBoth (r q : OpcodeNumbers × OpcodeNumbers) : Prop :=
  ∀ w : Word, ¬ (r.1.selects w = true ∧ q.1.selects w = true)

/-- Under rows of which no word meets two, a row that selects a word is the one that decodes it. -/
theorem decodeUnder_of_selects {rows : List (OpcodeNumbers × OpcodeNumbers)}
    (hdisjoint : rows.Pairwise NoWordMeetsBoth) {r : OpcodeNumbers × OpcodeNumbers} (hr : r ∈ rows)
    {w : Word} (hw : r.1.selects w = true) :
    decodeUnder (.renumbered rows) w = decode (r.2.put w) := by
  have symmetric : Std.Symm NoWordMeetsBoth := ⟨fun _ _ hboth w h => hboth w h.symm⟩
  obtain ⟨q, hq, hqw, hdecode⟩ | ⟨hnone, -⟩ := decodeUnder_renumbered_cases rows w
  · have hsame : r = q := by
      by_contra hne
      exact hdisjoint.forall hr hq hne w ⟨hw, hqw⟩
    rw [hdecode, hsame]
  · exact absurd (hw.symm.trans (hnone r hr)) Bool.noConfusion

theorem decodeUnder_of_unselected {rows : List (OpcodeNumbers × OpcodeNumbers)} {w : Word}
    (h : ∀ r ∈ rows, r.1.selects w = false) :
    decodeUnder (.renumbered rows) w = .error .unassigned := by
  obtain ⟨q, hq, hqw, -⟩ | ⟨-, herror⟩ := decodeUnder_renumbered_cases rows w
  · exact absurd (hqw.symm.trans (h q hq)) Bool.noConfusion
  · exact herror

theorem decodeUnder_standardNumbers (w : Word) :
    (decodeUnder (.renumbered (standardNumbers.map fun n => (n, n))) w).toOption =
      (decode w).toOption := by
  obtain ⟨r, hr, hrw, hdecode⟩ | ⟨hnone, herror⟩ :=
    decodeUnder_renumbered_cases (standardNumbers.map fun n => (n, n)) w
  · obtain ⟨n, -, rfl⟩ := List.mem_map.1 hr
    rw [hdecode, OpcodeNumbers.put_of_selects hrw]
  · rw [herror]
    cases h : decode w with
    | error e => rfl
    | ok i =>
      obtain ⟨n, hn, hsel⟩ := exists_standardNumbers_selects h
      exact absurd (hsel.symm.trans (hnone _ (List.mem_map_of_mem hn))) Bool.noConfusion

/-- Settles O6: the row that gives an instruction its numbers takes them back to the default ones. -/
theorem numberingsNameTheInstruction : Obligations.NumberingsNameTheInstruction := by
  refine ⟨?named, fun _ _ => decodeUnder_of_unselected, decodeUnder_standardNumbers⟩
  intro rows hdisjoint n m hrow hformat i hm
  rw [decodeUnder_of_selects hdisjoint hrow (n.selects_put (encode i)),
    OpcodeNumbers.put_put hformat hm]
  exact decodeOfEncodeIsTheInstruction i

end Sys2Proof
end

