-- ==== Sys2Proof/Proofs/Effects.lean ====
section
/-! What an instruction can do, once for all 92: what a next state may change, and which fault may be raised
(`10_state.md` R28 to R32, `60_exceptions.md` R281, R282). The rules of the whole machine are read off it. -/

namespace Sys2Proof.Machine

/-! The terms. -/

/-- `m'` keeps the canonical form of `m`, and every byte but the `n` from `a` on. -/
structure WritesWithin (m m' : Memory) (a : Word) (n : Nat) : Prop where
  wf : m.wf = true → m'.wf = true
  frame : m.wf = true → ∀ b : Word, (∀ k : Nat, k < n → b ≠ a + BitVec.ofNat 32 k) →
    m'.read b.toNat = m.read b.toNat

/-- What a next state `t` of `i` at `s` may change. -/
structure NextOf (i : Instr) (s t : State) : Prop where
  launch : t.launch = s.launch
  slotZero : t.x[0] = s.x[0]
  iar : oneOf ["TRAP", "MOVI2S"] i = true ∨ t.iar = s.iar
  fpsr : oneOf ("MOVI2S" :: compareNames) i = true ∨ t.fpsr = s.fpsr
  pc : oneOf transferNames i = true ∨ t.pc = s.pc + 4#32
  mem : t.mem = s.mem ∨ oneOf storeNames i = true ∧
    ∃ (a : Word) (n : Nat), Storable s a n ∧ WritesWithin s.mem t.mem a n

/-- What a fault `r` of `i` at `s` says. -/
structure FaultOf (i : Instr) (s : State) (r : Fault) : Prop where
  address : r.address = s.pc
  raiser : oneOf (raisers r) i = true
  odd : ∀ a q, r = .oddFPRegister a q → q ∈ i.doubleOperands ∧ ¬ EvenReg q
  illegal : ∀ a w, r = .illegalInstruction a w →
    ∃ n, i.specialOperand = some n ∧ n ≠ s.launch.sreg.iar ∧ n ≠ s.launch.sreg.fpsr

/-- What an outcome of `i` at `s` can be; never a refusal. -/
def OutcomeOf (i : Instr) (s : State) : Host.Outcome State Fault Refusal → Prop
  | .next t => NextOf i s t
  | .fault r => FaultOf i s r
  | .refused _ => False

/-- The names of the row of R282 for `DataMisaligned`. -/
def misalignedNames : List String := raisers (.dataMisaligned 0#32 0#32 0)

/-! The writes, each in the one or two fields that it touches. -/

section
variable {i : Instr} {s : State}

theorem nextOf_setGpr_setPc (rd : GReg) (v target : Word)
    (hpc : oneOf transferNames i = true ∨ target = s.pc + 4#32) :
    NextOf i s ((s.setGpr rd v).setPc target) where
  launch := rfl
  slotZero := s.setGpr_slot_zero rd v
  iar := .inr rfl
  fpsr := .inr rfl
  pc := hpc
  mem := .inl rfl

theorem nextOf_setPc (target : Word) (hpc : oneOf transferNames i = true ∨ target = s.pc + 4#32) :
    NextOf i s (s.setPc target) where
  launch := rfl
  slotZero := rfl
  iar := .inr rfl
  fpsr := .inr rfl
  pc := hpc
  mem := .inl rfl

/-- A write to floating-point registers, with or without open values drawn. -/
theorem nextOf_fprs (f : Vector Word 32) (d : Nat) :
    NextOf i s (State.advance { s with f := f, draws := d }) where
  launch := rfl
  slotZero := rfl
  iar := .inr rfl
  fpsr := .inr rfl
  pc := .inr rfl
  mem := .inl rfl

theorem nextOf_setFpsr (v : BitVec 1) (hname : oneOf ("MOVI2S" :: compareNames) i = true) :
    NextOf i s (s.setFpsr v).advance where
  launch := rfl
  slotZero := rfl
  iar := .inr rfl
  fpsr := .inl hname
  pc := .inr rfl
  mem := .inl rfl

theorem nextOf_setIar_setPc (v target : Word) (hname : oneOf ["TRAP", "MOVI2S"] i = true)
    (hpc : oneOf transferNames i = true ∨ target = s.pc + 4#32) :
    NextOf i s ((s.setIar v).setPc target) where
  launch := rfl
  slotZero := rfl
  iar := .inl hname
  fpsr := .inr rfl
  pc := hpc
  mem := .inl rfl

theorem nextOf_mem {m : Memory} {a : Word} {n : Nat} (hname : oneOf storeNames i = true)
    (ha : Storable s a n) (hm : WritesWithin s.mem m a n) :
    NextOf i s (State.advance { s with mem := m }) where
  launch := rfl
  slotZero := rfl
  iar := .inr rfl
  fpsr := .inr rfl
  pc := .inr rfl
  mem := .inr ⟨hname, a, n, ha, hm⟩

/-! The faults other than those of a register number. -/

theorem faultOf_of_raiser {r : Fault} (haddress : r.address = s.pc)
    (hraiser : oneOf (raisers r) i = true) (hodd : ∀ a q, r ≠ .oddFPRegister a q)
    (hillegal : ∀ a w, r ≠ .illegalInstruction a w) : FaultOf i s r :=
  ⟨haddress, hraiser, fun a q h => absurd h (hodd a q), fun a w h => absurd h (hillegal a w)⟩

/-! The shared operations. -/

/-- The checks of a load or store, before the access itself. -/
theorem faultOf_dataFault {a : Word} {n : Nat} {kind : AccessKind} {r : Fault}
    (haccess : oneOf (raisers (.accessFault s.pc a n kind)) i = true)
    (hmis : n = 1 ∨ oneOf misalignedNames i = true) (h : dataFault s a n kind = some r) :
    FaultOf i s r := by
  obtain ⟨hna, hf⟩ | ⟨-, -, hf⟩ | ⟨-, hf⟩ := dataFault_cases s a n kind
  · cases hf.symm.trans h
    have hn : n ≠ 1 := fun hn => hna (by rw [hn, Nat.mod_one])
    exact faultOf_of_raiser rfl (hmis.resolve_left hn) nofun nofun
  · cases hf.symm.trans h
    exact faultOf_of_raiser rfl haccess nofun nofun
  · cases hf.symm.trans h

theorem outcomeOf_load {a : Word} {n : Nat} {t : State} (hname : oneOf loadNames i = true)
    (hmis : n = 1 ∨ oneOf misalignedNames i = true) (ht : NextOf i s t) :
    OutcomeOf i s (raiseOr (loadFault s a n) t) := by
  cases hf : loadFault s a n with
  | none => exact ht
  | some r => exact faultOf_dataFault (kind := .load) hname hmis hf

theorem outcomeOf_store {a : Word} {n : Nat} {m : Memory} (hname : oneOf storeNames i = true)
    (hmis : n = 1 ∨ oneOf misalignedNames i = true) (hm : WritesWithin s.mem m a n) :
    OutcomeOf i s (raiseOr (storeFault s a n) (State.advance { s with mem := m })) := by
  cases hf : storeFault s a n with
  | none => exact nextOf_mem hname ((storeFault_eq_none_iff a n).1 hf) hm
  | some r =>
    obtain hdata | ⟨-, htext⟩ := Option.or_eq_some_iff.1 hf
    · exact faultOf_dataFault (kind := .store) hname hmis hdata
    · unfold textFault at htext
      split at htext
      · cases htext
        exact faultOf_of_raiser rfl hname nofun nofun
      · cases htext

theorem outcomeOf_withEven {regs : List FReg} {go : Host.Outcome State Fault Refusal}
    (hregs : regs = i.doubleOperands)
    (hname : oneOf (raisers (.oddFPRegister 0#32 0#5)) i = true) (hgo : OutcomeOf i s go) :
    OutcomeOf i s (withEven s regs go) := by
  obtain ⟨r, hr, hodd, hf⟩ | ⟨-, hf⟩ := withEven_cases s regs go
  · rw [hf]
    refine ⟨rfl, hname, ?_, nofun⟩
    rintro a q ⟨⟩
    exact ⟨hregs ▸ hr, hodd⟩
  · rwa [hf]

theorem outcomeOf_signedToGpr (rd : GReg) (r : Int)
    (hname : oneOf (raisers (.integerOverflow s.pc)) i = true) : OutcomeOf i s (signedToGpr s rd r) := by
  obtain ⟨-, -, hf⟩ | ⟨-, hf⟩ := signedToGpr_cases s rd r
  · rw [hf]
    exact faultOf_of_raiser rfl hname nofun nofun
  · rw [hf]
    exact nextOf_setGpr_setPc rd _ _ (.inr rfl)

theorem outcomeOf_signedToFpr (rd : FReg) (r : Int)
    (hname : oneOf (raisers (.integerOverflow s.pc)) i = true) : OutcomeOf i s (signedToFpr s rd r) := by
  obtain ⟨-, -, hf⟩ | ⟨-, hf⟩ := signedToFpr_cases s rd r
  · rw [hf]
    exact faultOf_of_raiser rfl hname nofun nofun
  · rw [hf]
    exact nextOf_fprs _ _

theorem outcomeOf_answerToFpr (rd : FReg) (o : FPResult 32)
    (hname : oneOf (raisers (.fpFault s.pc)) i = true) : OutcomeOf i s (answerToFpr s rd o) := by
  obtain ⟨-, hf⟩ | ⟨v, -, hf⟩ | ⟨v, hf⟩ := answerToFpr_cases s rd o
  · rw [hf]
    exact faultOf_of_raiser rfl hname nofun nofun
  · rw [hf]
    exact nextOf_fprs _ _
  · rw [hf]
    exact nextOf_fprs _ _

theorem outcomeOf_answerToDpr (rd : FReg) (o : FPResult 64)
    (hname : oneOf (raisers (.fpFault s.pc)) i = true) : OutcomeOf i s (answerToDpr s rd o) := by
  obtain ⟨-, hf⟩ | ⟨v, -, hf⟩ | ⟨v, hf⟩ := answerToDpr_cases s rd o
  · rw [hf]
    exact faultOf_of_raiser rfl hname nofun nofun
  · rw [hf]
    exact nextOf_fprs _ _
  · rw [hf]
    exact nextOf_fprs _ _

theorem outcomeOf_compareTo (o : Option Bool) (hfault : oneOf (raisers (.fpFault s.pc)) i = true)
    (hname : oneOf ("MOVI2S" :: compareNames) i = true) : OutcomeOf i s (compareTo s o) := by
  obtain ⟨-, hf⟩ | ⟨b, -, hf⟩ := compareTo_cases s o
  · rw [hf]
    exact faultOf_of_raiser rfl hfault nofun nofun
  · rw [hf]
    exact nextOf_setFpsr _ hname

/-! Memory writes. -/

theorem writesWithin_write8 (s : State) (a : Word) (v : Byte) :
    WritesWithin s.mem (s.mem.write8 a v) a 1 where
  wf := Memory.write8_wf a v
  frame h := by
    obtain ⟨-, hframe, -⟩ := writesBytes_setByte h a 0#32 v
    exact hframe

theorem writesWithin_write16 (s : State) (a : Word) (v : Half) :
    WritesWithin s.mem (s.mem.write16 a v) a 2 where
  wf := Memory.write16_wf a v
  frame h := by
    obtain ⟨-, hframe, -⟩ := writesBytes_setHalf h a 0#32 v
    exact hframe

theorem writesWithin_write32 (s : State) (a : Word) (v : Word) :
    WritesWithin s.mem (s.mem.write32 a v) a 4 where
  wf := Memory.write32_wf a v
  frame h := by
    obtain ⟨-, hframe, -⟩ := writesBytes_setWord h a 0#32 v
    exact hframe

theorem writesWithin_write64 (s : State) (a : Word) (v : Dword) :
    WritesWithin s.mem (s.mem.write64 a v) a 8 where
  wf := Memory.write64_wf a v
  frame h := by
    obtain ⟨-, hframe, -⟩ := writesBytes_setDword h a 0#32 v
    exact hframe

end

/-! The double-precision operands of LD, SD and MOVD are checked like those of an operation. -/

theorem raiseOr_oddFault_or_eq_withEven (s : State) (rd : FReg) (f : Option Fault) (t : State) :
    raiseOr ((oddFault s rd).or f) t = withEven s [rd] (raiseOr f t) := by
  simp only [withEven, List.findSome?_cons, List.findSome?_nil]
  cases oddFault s rd <;> rfl

theorem raiseOr_oddFault_or_oddFault_eq_withEven (s : State) (rd rs1 : FReg) (t : State) :
    raiseOr ((oddFault s rd).or (oddFault s rs1)) t = withEven s [rd, rs1] (.next t) := by
  simp only [withEven, List.findSome?_cons, List.findSome?_nil]
  cases oddFault s rd <;> cases oddFault s rs1 <;> rfl

section
variable (s : State)

/-- R128. -/
theorem exec_ld (rd : FReg) (rs1 : GReg) (imm : Half) :
    exec (.ld rd rs1 imm) s = withEven s [rd] (raiseOr (loadFault s (effectiveAddress s rs1 imm) 8)
      (s.setDpr rd (s.dwordAt (effectiveAddress s rs1 imm))).advance) :=
  raiseOr_oddFault_or_eq_withEven s rd _ _

/-- R133. -/
theorem exec_sd (rd : FReg) (rs1 : GReg) (imm : Half) :
    exec (.sd rd rs1 imm) s = withEven s [rd] (raiseOr (storeFault s (effectiveAddress s rs1 imm) 8)
      (s.setDword (effectiveAddress s rs1 imm) (s.dpr rd)).advance) :=
  raiseOr_oddFault_or_eq_withEven s rd _ _

/-- R144. -/
theorem exec_movd (rd rs1 : FReg) :
    exec (.movd rd rs1) s = withEven s [rd, rs1] (.next (s.setDpr rd (s.dpr rs1)).advance) :=
  raiseOr_oddFault_or_oddFault_eq_withEven s rd rs1 _

/-- Every instruction checks its double-precision operands before anything else (R202, R285). -/
theorem exec_eq_withEven (i : Instr) : ∃ go, exec i s = withEven s i.doubleOperands go := by
  cases i
  case ld => exact ⟨_, exec_ld s _ _ _⟩
  case sd => exact ⟨_, exec_sd s _ _ _⟩
  case movd => exact ⟨_, exec_movd s _ _⟩
  all_goals exact ⟨_, rfl⟩

end

section
variable (s : State)

/-- R141. -/
theorem outcomeOf_exec_movi2s (rd : SReg) (rs1 : GReg) :
    OutcomeOf (.movi2s rd rs1) s (exec (.movi2s rd rs1) s) := by
  show OutcomeOf _ s (execMovi2s rd rs1 s)
  unfold execMovi2s
  split_ifs with hiar hfpsr
  · exact nextOf_setIar_setPc _ _ rfl (.inr rfl)
  · exact nextOf_setFpsr _ rfl
  · exact ⟨rfl, rfl, nofun, fun _ _ _ => ⟨rd, rfl, hiar, hfpsr⟩⟩

/-- R142. -/
theorem outcomeOf_exec_movs2i (rd : GReg) (rs1 : SReg) :
    OutcomeOf (.movs2i rd rs1) s (exec (.movs2i rd rs1) s) := by
  show OutcomeOf _ s (execMovs2i rd rs1 s)
  unfold execMovs2i
  split_ifs with hiar hfpsr
  · exact nextOf_setGpr_setPc _ _ _ (.inr rfl)
  · exact nextOf_setGpr_setPc _ _ _ (.inr rfl)
  · exact ⟨rfl, rfl, nofun, fun _ _ _ => ⟨rs1, rfl, hiar, hfpsr⟩⟩

/-- R162: two faults are the instruction's own. -/
theorem outcomeOf_exec_div (rd rs1 rs2 : FReg) :
    OutcomeOf (.div rd rs1 rs2) s (exec (.div rd rs1 rs2) s) := by
  show OutcomeOf _ s (execDiv rd rs1 rs2 s)
  unfold execDiv
  split_ifs
  · exact faultOf_of_raiser rfl rfl nofun nofun
  · exact outcomeOf_signedToFpr _ _ rfl

/-- R163. -/
theorem outcomeOf_exec_divu (rd rs1 rs2 : FReg) :
    OutcomeOf (.divu rd rs1 rs2) s (exec (.divu rd rs1 rs2) s) := by
  show OutcomeOf _ s (execDivu rd rs1 rs2 s)
  unfold execDivu
  split_ifs
  · exact faultOf_of_raiser rfl rfl nofun nofun
  · exact nextOf_fprs _ _

/-- What each of the 92 instructions can do. -/
theorem outcomeOf_exec (i : Instr) : OutcomeOf i s (exec i s) := by
  cases i
  case lb | lbu =>
    exact outcomeOf_load rfl (.inl rfl) (nextOf_setGpr_setPc _ _ _ (.inr rfl))
  case lh | lhu | lw =>
    exact outcomeOf_load rfl (.inr rfl) (nextOf_setGpr_setPc _ _ _ (.inr rfl))
  case lf => exact outcomeOf_load rfl (.inr rfl) (nextOf_fprs _ _)
  case ld =>
    rw [exec_ld]
    exact outcomeOf_withEven rfl rfl (outcomeOf_load rfl (.inr rfl) (nextOf_fprs _ _))
  case sb => exact outcomeOf_store rfl (.inl rfl) (writesWithin_write8 s _ _)
  case sh => exact outcomeOf_store rfl (.inr rfl) (writesWithin_write16 s _ _)
  case sw | sf => exact outcomeOf_store rfl (.inr rfl) (writesWithin_write32 s _ _)
  case sd =>
    rw [exec_sd]
    exact outcomeOf_withEven rfl rfl (outcomeOf_store rfl (.inr rfl) (writesWithin_write64 s _ _))
  case movi2s => exact outcomeOf_exec_movi2s s _ _
  case movs2i => exact outcomeOf_exec_movs2i s _ _
  case movd =>
    rw [exec_movd]
    exact outcomeOf_withEven rfl rfl (nextOf_fprs _ _)
  case movf | movi2fp | multu => exact nextOf_fprs _ _
  case add | addi | sub | subi => exact outcomeOf_signedToGpr _ _ rfl
  case mult => exact outcomeOf_signedToFpr _ _ rfl
  case div => exact outcomeOf_exec_div s _ _ _
  case divu => exact outcomeOf_exec_divu s _ _ _
  case addf | subf | multf | divf | cvtf2i | cvti2f => exact outcomeOf_answerToFpr _ _ rfl
  case cvtd2f | cvtd2i => exact outcomeOf_withEven rfl rfl (outcomeOf_answerToFpr _ _ rfl)
  case addd | subd | multd | divd | cvtf2d | cvti2d =>
    exact outcomeOf_withEven rfl rfl (outcomeOf_answerToDpr _ _ rfl)
  case eqf | nef | ltf | gtf | lef | gef => exact outcomeOf_compareTo _ rfl rfl
  case eqd | ned | ltd | gtd | led | ged =>
    exact outcomeOf_withEven rfl rfl (outcomeOf_compareTo _ rfl rfl)
  case beqz | bnez | bfpt | bfpf | j | jr | rfe => exact nextOf_setPc _ (.inl rfl)
  case jal | jalr => exact nextOf_setGpr_setPc _ _ _ (.inl rfl)
  case trap => exact nextOf_setIar_setPc _ _ rfl (.inl rfl)
  case nop => exact nextOf_setPc _ (.inr rfl)
  all_goals exact nextOf_setGpr_setPc _ _ _ (.inr rfl)

end

section
variable {i : Instr} {s t : State}

theorem nextOf_of_exec (h : exec i s = .next t) : NextOf i s t := by
  have hout := outcomeOf_exec s i
  rwa [h] at hout

theorem faultOf_of_exec {r : Fault} (h : exec i s = .fault r) : FaultOf i s r := by
  have hout := outcomeOf_exec s i
  rwa [h] at hout

theorem exec_ne_refused {q : Refusal} : exec i s ≠ .refused q := by
  intro h
  have hout := outcomeOf_exec s i
  rwa [h] at hout

end

/-! The rules of the whole machine, each a field of what an outcome can be. -/

/-- Settles O47. -/
theorem onlyTrapAndMovi2sWriteIar : Obligations.OnlyTrapAndMovi2sWriteIar :=
  fun _ _ _ h hne => (nextOf_of_exec h).iar.resolve_right hne

/-- Settles O48. -/
theorem onlyComparisonsAndMovi2sWriteFpsr : Obligations.OnlyComparisonsAndMovi2sWriteFpsr :=
  fun _ _ _ h hne => (nextOf_of_exec h).fpsr.resolve_right hne

/-- Settles O49. -/
theorem onlyStoresChangeMemory : Obligations.OnlyStoresChangeMemory := by
  intro i s t a h hne
  obtain hmem | ⟨hname, -⟩ := (nextOf_of_exec h).mem
  · exact absurd (congrArg (Memory.read · a.toNat) hmem) hne
  · exact hname

/-- Settles O50. -/
theorem onlyTransfersLeaveTheSequence : Obligations.OnlyTransfersLeaveTheSequence :=
  fun _ _ _ h hname => (nextOf_of_exec h).pc.resolve_left (Bool.eq_false_iff.1 hname)

/-- Settles O51. -/
theorem faultsAreRaisedOnlyByTheirRow : Obligations.FaultsAreRaisedOnlyByTheirRow :=
  fun _ _ _ h => (faultOf_of_exec h).raiser

/-- The static checks refuse an odd double-precision operand (R26). -/
theorem evenReg_of_wellFormed {sr : SRegNumbers} {i : Instr} (h : i.wellFormed sr = true) {q : FReg}
    (hq : q ∈ i.doubleOperands) : EvenReg q := by
  have heven := List.all_eq_true.1 (Bool.and_eq_true_iff.1 h).1 q hq
  rw [even_iff]
  simpa [evenReg] using heven

/-- The static checks refuse a special-register number that names nothing (R141, R142). -/
theorem namesSpecial_of_wellFormed {sr : SRegNumbers} {i : Instr} (h : i.wellFormed sr = true)
    {n : SReg} (hn : i.specialOperand = some n) : n = sr.iar ∨ n = sr.fpsr := by
  have hnames := (Bool.and_eq_true_iff.1 h).2
  simpa [hn, namesSpecial] using hnames

/-- Settles O54: each of the two faults says of an operand what the static checks exclude. -/
theorem wellFormedNeverOddOrIllegal : Obligations.WellFormedNeverOddOrIllegal := by
  intro i s r hwf h
  have hfault := faultOf_of_exec h
  refine ⟨fun a q hr => ?odd, fun a w hr => ?illegal⟩
  case odd =>
    obtain ⟨hq, hodd⟩ := hfault.odd a q hr
    exact hodd (evenReg_of_wellFormed hwf hq)
  case illegal =>
    obtain ⟨n, hn, hiar, hfpsr⟩ := hfault.illegal a w hr
    exact (namesSpecial_of_wellFormed hwf hn).elim hiar hfpsr

/-- The first odd register in the list is the one that faults (R202). -/
theorem withEven_of_find?_odd {s : State} {regs : List FReg} {go : Host.Outcome State Fault Refusal}
    {r : FReg} (h : regs.find? (fun q => q.toNat % 2 == 1) = some r) :
    withEven s regs go = .fault (.oddFPRegister s.pc r) := by
  have hfirst : regs.findSome? (oddFault s) = some (.oddFPRegister s.pc r) := by
    induction regs with
    | nil => cases h
    | cons q regs ih =>
      by_cases hq : EvenReg q
      · have hskip : (q.toNat % 2 == 1) = false := by simp [hq]
        simp only [List.find?_cons, hskip] at h
        rw [List.findSome?_cons, oddFault_of_even hq]
        exact ih h
      · have hfound : (q.toNat % 2 == 1) = true := by simpa using hq
        simp only [List.find?_cons, hfound] at h
        cases h
        rw [List.findSome?_cons, oddFault_of_odd hq]
  rw [withEven, hfirst]

/-- Settles O53. -/
theorem firstOddDoubleOperandFaults : Obligations.FirstOddDoubleOperandFaults := by
  intro i s r h
  obtain ⟨go, hgo⟩ := exec_eq_withEven s i
  rw [hgo]
  exact withEven_of_find?_odd h

end Sys2Proof.Machine
end

