-- ==== Sys2Proof/Proofs/Runs.lean ====
section
/-! Steps and runs (`10_state.md` R34): the instruction cycle, what holds of every step, and what a run of any
length keeps (`20_memory.md` R52, R68). -/

namespace Sys2Proof.Machine

variable {s t : State}

/-! The step. -/

/-- R323. -/
theorem step_of_runOver (h : s.pc = s.launch.endPc) : step s = .next s := by
  have hover : runOver s = true := beq_iff_eq.2 h
  rw [step, if_pos hover]

/-- R34: fetch, decode and execute. -/
theorem step_of_decode {w : Word} {i : Instr} (hrun : s.pc ≠ s.launch.endPc) (hf : fetch s = .ok w)
    (hd : decodeUnder s.launch.opc w = .ok i) : step s = exec i s := by
  have hover : runOver s = false := beq_eq_false_iff_ne.2 hrun
  simp only [step, hover, Bool.false_eq_true, if_false, hf, hd]

/-- R58: a fault of the fetch records the address fetched from. -/
theorem address_of_fetch_error {r : Fault} (h : fetch s = .error r) : r.address = s.pc := by
  obtain ⟨-, hf⟩ | ⟨-, -, hf⟩ | ⟨-, hf⟩ := fetch_cases s
  · cases hf.symm.trans h; rfl
  · cases hf.symm.trans h; rfl
  · cases hf.symm.trans h

/-- What a step does: nothing once the run is over, a fault before execution, or an instruction. -/
theorem step_cases (s : State) :
    step s = .next s ∨ (∃ r, r.address = s.pc ∧ step s = .fault r) ∨ ∃ i, step s = exec i s := by
  by_cases hrun : s.pc = s.launch.endPc
  · exact .inl (step_of_runOver hrun)
  cases hf : fetch s with
  | error r => exact .inr (.inl ⟨r, address_of_fetch_error hf, step_of_fetch_error hrun hf⟩)
  | ok w =>
    cases hd : decodeUnder s.launch.opc w with
    | ok i => exact .inr (.inr ⟨i, step_of_decode hrun hf hd⟩)
    | error e =>
      have hundecodable : ∀ i, decodeUnder s.launch.opc w ≠ .ok i := by simp [hd]
      exact .inr (.inl ⟨_, rfl, step_of_undecodable hrun hf hundecodable⟩)

/-- A next state of a step is the state itself or the next state of an instruction. -/
theorem step_eq_next_cases (h : step s = .next t) : t = s ∨ ∃ i, NextOf i s t := by
  obtain hover | ⟨r, -, hfault⟩ | ⟨i, hexec⟩ := step_cases s
  · cases hover.symm.trans h
    exact .inl rfl
  · cases hfault.symm.trans h
  · exact .inr ⟨i, nextOf_of_exec (hexec.symm.trans h)⟩

/-- Settles O8: the fetch answers the word of the four bytes at `pc`. -/
theorem stepRunsTheDecodedInstruction : Obligations.StepRunsTheDecodedInstruction := by
  intro s i hrun hacc hd
  rw [← State.wordAt_eq_bytes] at hd
  exact step_of_decode hrun (fetch_of_accessible hacc) hd

/-- Settles O11: neither the cycle nor an instruction refuses. -/
theorem stepNeverRefuses : Obligations.StepNeverRefuses := by
  intro s q h
  obtain hover | ⟨r, -, hfault⟩ | ⟨i, hexec⟩ := step_cases s
  · cases hover.symm.trans h
  · cases hfault.symm.trans h
  · exact exec_ne_refused (hexec.symm.trans h)

/-- Settles O52: the cycle records `pc` before the instruction runs, the instruction its own address. -/
theorem faultsRecordTheInstructionAddress : Obligations.FaultsRecordTheInstructionAddress := by
  intro s r h
  obtain hover | ⟨r', haddress, hfault⟩ | ⟨i, hexec⟩ := step_cases s
  · cases hover.symm.trans h
  · cases hfault.symm.trans h
    exact haddress
  · exact (faultOf_of_exec (hexec.symm.trans h)).address

/-! What one step keeps. -/

theorem launch_of_step (h : step s = .next t) : t.launch = s.launch := by
  obtain rfl | ⟨i, hnext⟩ := step_eq_next_cases h
  · rfl
  · exact hnext.launch

/-- A step changes no byte, or the bytes of one admitted store. -/
theorem mem_of_step (h : step s = .next t) : t.mem = s.mem ∨
    ∃ (a : Word) (n : Nat), Storable s a n ∧ WritesWithin s.mem t.mem a n := by
  obtain rfl | ⟨i, hnext⟩ := step_eq_next_cases h
  · exact .inl rfl
  · exact hnext.mem.imp_right And.right

/-- Settles O56. -/
theorem everyStepKeepsTheInvariant : Obligations.EveryStepKeepsTheInvariant := by
  rintro s t ⟨hwf, hzero⟩ h
  constructor
  · obtain hmem | ⟨a, n, -, hwrites⟩ := mem_of_step h
    · rwa [hmem]
    · exact hwrites.wf hwf
  · obtain rfl | ⟨i, hnext⟩ := step_eq_next_cases h
    · exact hzero
    · exact hnext.slotZero.trans hzero

/-- A byte that no admitted store of the state can reach reads as before after a step. -/
theorem byteAt_of_step {b : Word} (hinv : Inv s) (h : step s = .next t)
    (hout : ∀ (a : Word) (n : Nat), Storable s a n → ∀ k : Nat, k < n → b ≠ a + BitVec.ofNat 32 k) :
    t.byteAt b = s.byteAt b := by
  obtain hmem | ⟨a, n, hstorable, hwrites⟩ := mem_of_step h
  · exact congrArg (Memory.read · b.toNat) hmem
  · obtain ⟨hwf, -⟩ := hinv
    exact hwrites.frame hwf b (hout a n hstorable)

/-- R68: under `refuse` no admitted store reaches `TEXT`. -/
theorem ne_of_storable_of_inText {a b : Word} {n k : Nat} (hs : Storable s a n)
    (hsmc : s.launch.smc = .refuse) (hb : InText s b) (hk : k < n) : b ≠ a + BitVec.ofNat 32 k := by
  obtain ⟨-, hcoherent | htext⟩ := hs
  · cases hsmc.symm.trans hcoherent
  · exact fun hba => htext k hk (hba ▸ hb)

/-- R52: no admitted store leaves `MEM_MAP`. -/
theorem ne_of_storable_of_unmapped {a b : Word} {n k : Nat} (hs : Storable s a n)
    (hb : inRegions s.launch.memMap b = false) (hk : k < n) : b ≠ a + BitVec.ofNat 32 k := by
  obtain ⟨⟨-, hmapped⟩, -⟩ := hs
  intro hba
  exact Bool.false_ne_true (hb.symm.trans (hba ▸ hmapped k hk))

/-! Runs. -/

section
variable {M : Host.Core} {u v : M.State}

theorem run_succ_of_next (k : Nat) (h : M.step u = .next v) : M.run (k + 1) u = M.run k v := by
  rw [Host.Core.run, h]

theorem run_succ_of_fault (k : Nat) {r : M.Fault} (h : M.step u = .fault r) :
    M.run (k + 1) u = .fault r := by
  rw [Host.Core.run, h]

end

/-- A run of one step more has a first step. -/
theorem exists_step_of_reachesIn_succ {k : Nat} (h : ReachesIn (k + 1) s t) :
    ∃ u, step s = .next u ∧ ReachesIn k u t := by
  cases hstep : step s with
  | next u => exact ⟨u, rfl, (run_succ_of_next (M := Sys2Proof.core) k hstep).symm.trans h⟩
  | fault r => cases (run_succ_of_fault (M := Sys2Proof.core) k hstep).symm.trans h
  | refused q => exact absurd hstep (stepNeverRefuses s q)

/-- What every step keeps holds of every state that a run reaches. -/
theorem reachesIn_keeps {P : State → Prop} (hstep : ∀ s t, P s → step s = .next t → P t) {k : Nat}
    (hs : P s) (h : ReachesIn k s t) : P t := by
  induction k generalizing s with
  | zero =>
    cases h
    exact hs
  | succ k ih =>
    obtain ⟨u, hu, hrest⟩ := exists_step_of_reachesIn_succ h
    exact ih (hstep s u hs hu) hrest

/-- Settles O10. -/
theorem finishedRunStaysFinal : Obligations.FinishedRunStaysFinal := by
  intro s k h
  induction k with
  | zero => rfl
  | succ k ih => exact (run_succ_of_next (M := Sys2Proof.core) k (step_of_runOver h)).trans ih

/-- Settles O55. -/
theorem launchParametersAreFixed : Obligations.LaunchParametersAreFixed := by
  intro k s t h
  exact reachesIn_keeps (P := fun u => u.launch = s.launch)
    (fun u v hu huv => (launch_of_step huv).trans hu) rfl h

/-- What a run from `s` keeps: the launch parameters, the invariant, and the byte at `b`. -/
structure KeepsByte (s : State) (b : Word) (t : State) : Prop where
  inv : Inv t
  launch : t.launch = s.launch
  byte : t.byteAt b = s.byteAt b

theorem keepsByte_refl {b : Word} (hinv : Inv s) : KeepsByte s b s := ⟨hinv, rfl, rfl⟩

/-- A byte out of reach of every store that the launch of `s` admits is kept by every run from `s`. -/
theorem byteAt_of_reachesIn {k : Nat} {b : Word} (hinv : Inv s)
    (hout : ∀ u : State, u.launch = s.launch → ∀ (a : Word) (n : Nat), Storable u a n →
      ∀ k : Nat, k < n → b ≠ a + BitVec.ofNat 32 k)
    (h : ReachesIn k s t) : t.byteAt b = s.byteAt b := by
  refine (reachesIn_keeps (P := KeepsByte s b) ?_ (keepsByte_refl hinv) h).byte
  intro u v hu huv
  exact ⟨everyStepKeepsTheInvariant u v hu.inv huv, (launch_of_step huv).trans hu.launch,
    (byteAt_of_step hu.inv huv (hout u hu.launch)).trans hu.byte⟩

/-- Settles O58. -/
theorem programTextNeverChanges : Obligations.ProgramTextNeverChanges := by
  intro k s t b hinv hsmc htext h
  refine byteAt_of_reachesIn hinv (fun u hu a n hs k hk => ?_) h
  have hsmcU : u.launch.smc = .refuse := hu ▸ hsmc
  have htextU : InText u b := by rwa [InText, hu]
  exact ne_of_storable_of_inText hs hsmcU htextU hk

/-- Settles O59. -/
theorem unmappedBytesNeverChange : Obligations.UnmappedBytesNeverChange := by
  intro k s t b hinv hunmapped h
  refine byteAt_of_reachesIn hinv (fun u hu a n hs k hk => ?_) h
  have hunmappedU : inRegions u.launch.memMap b = false := by rwa [hu]
  exact ne_of_storable_of_unmapped hs hunmappedU hk

/-! Launches (R36, R37). -/

/-- Settles O14. -/
theorem launchGivesTheStartValues : Obligations.LaunchGivesTheStartValues := by
  intro l v n
  refine ⟨rfl, rfl, fun r hr => ?gpr, fun _ => rfl, rfl, rfl, fun _ => rfl⟩
  have hne : 0 ≠ r.toNat := fun h => hr (BitVec.eq_of_toNat_eq h.symm)
  rw [State.gpr, if_neg hr]
  exact Vector.getElem_set_ne (by decide) r.isLt hne

/-- A launch zeroes slot 0 and takes its memory as it is. -/
theorem inv_launched (l : Launch) (v : StartValues) (n : Nat) (hwf : v.mem.wf = true) :
    Inv (State.launched l v n) :=
  ⟨hwf, Vector.getElem_set_self _⟩

/-- Settles O57; reset is the launch with the default parameters. -/
theorem launchHasTheInvariant : Obligations.LaunchHasTheInvariant :=
  ⟨inv_launched _ startValues 0 rfl, inv_launched⟩

end Sys2Proof.Machine
end

