-- ==== Sys2Proof/Proofs/MemoryAccess.lean ====
section
/-! Pairs of registers, and loads and stores that are admitted (`10_state.md` R26, `20_memory.md` R53, R55,
`40_load_store.md`): what is written, what later reads of any width see of it, and what stays. -/

namespace Sys2Proof.Machine

/-! Parts of a bit vector. -/

/-- A part of a part. -/
theorem extractLsb'_extractLsb' {w : Nat} (v : BitVec w) {start len start' len' : Nat}
    (h : start' + len' ≤ len) :
    (v.extractLsb' start len).extractLsb' start' len' = v.extractLsb' (start + start') len' := by
  ext k hk
  simp [show start' + k < len by omega, Nat.add_assoc]

/-- The two halves of a value joined are the value. -/
theorem extractLsb'_halves {n : Nat} (v : BitVec (n + n)) :
    v.extractLsb' n n ++ v.extractLsb' 0 n = v :=
  (BitVec.extractLsb'_append_extractLsb'_eq_extractLsb' (Nat.zero_add n).symm).trans
    BitVec.extractLsb'_eq_self

/-! Pairs (R26). -/

theorem reg_succ_ne (i : FReg) : i + 1#5 ≠ i := (reg_ne_succ i).symm

/-- A pair written reads back. -/
theorem State.dpr_setDpr (s : State) (i : FReg) (v : Dword) : (s.setDpr i v).dpr i = v := by
  rw [State.dpr, State.fpr_setDpr, State.fpr_setDpr, if_neg (reg_ne_succ i), if_pos rfl, if_pos rfl]
  exact extractLsb'_halves (n := 32) v

/-- Settles O12. -/
theorem doublePairsShareTheirRegisters : Obligations.DoublePairsShareTheirRegisters := by
  intro s i v w _
  refine ⟨rfl, s.dpr_setDpr i v, ?even, ?odd, fun j hj hj' => ?frame⟩
  case even => rw [State.dpr, State.fpr_setFpr_self, State.fpr_setFpr_of_ne _ (reg_succ_ne i)]
  case odd => rw [State.dpr, State.fpr_setFpr_self, State.fpr_setFpr_of_ne _ (reg_ne_succ i)]
  case frame => rw [State.fpr_setDpr, if_neg hj', if_neg hj]

/-! Reads of every width after a store (R53, R55). -/

section
variable {s : State} (h : s.mem.wf = true) (a : Word)
include h

theorem byteAt_setByte_self (v : Byte) : (s.setByte a v).byteAt a = v := by
  rw [byteAt_setByte h, if_pos rfl]

/-- The bytes of a stored halfword. -/
theorem bytes_setHalf (v : Half) : (s.setHalf a v).byteAt a = v.extractLsb' 8 8 ∧
    (s.setHalf a v).byteAt (a + 1#32) = v.extractLsb' 0 8 := by
  constructor <;> rw [byteAt_setHalf h] <;> simp

/-- The bytes of a stored word. -/
theorem bytes_setWord (v : Word) : (s.setWord a v).byteAt a = v.extractLsb' 24 8 ∧
    (s.setWord a v).byteAt (a + 1#32) = v.extractLsb' 16 8 ∧
    (s.setWord a v).byteAt (a + 2#32) = v.extractLsb' 8 8 ∧
    (s.setWord a v).byteAt (a + 3#32) = v.extractLsb' 0 8 := by
  refine ⟨?_, ?_, ?_, ?_⟩ <;> rw [byteAt_setWord h] <;> simp

theorem halfAt_setHalf (v : Half) : (s.setHalf a v).halfAt a = v := by
  obtain ⟨h0, h1⟩ := bytes_setHalf h a v
  rw [State.halfAt, h0, h1]
  exact extractLsb'_halves (n := 8) v

theorem halfAt_setWord_high (v : Word) : (s.setWord a v).halfAt a = v.extractLsb' 16 16 := by
  obtain ⟨h0, h1, -, -⟩ := bytes_setWord h a v
  rw [State.halfAt, h0, h1]
  exact BitVec.extractLsb'_append_extractLsb'_eq_extractLsb' rfl

theorem halfAt_setWord_low (v : Word) :
    (s.setWord a v).halfAt (a + 2#32) = v.extractLsb' 0 16 := by
  obtain ⟨-, -, h2, h3⟩ := bytes_setWord h a v
  have last : a + 2#32 + 1#32 = a + 3#32 := BitVec.add_assoc a 2#32 1#32
  rw [State.halfAt, last, h2, h3]
  exact BitVec.extractLsb'_append_extractLsb'_eq_extractLsb' rfl

theorem wordAt_setWord (v : Word) : (s.setWord a v).wordAt a = v := by
  rw [State.wordAt, halfAt_setWord_high h, halfAt_setWord_low h]
  exact extractLsb'_halves (n := 16) v

end

/-- A word store four bytes on leaves the word at `a`. -/
theorem wordAt_setWord_of_next {s : State} (h : s.mem.wf = true) (a v : Word) :
    (s.setWord (a + 4#32) v).wordAt a = s.wordAt a := by
  have kept : ∀ k : Nat, k < 4 →
      (s.setWord (a + 4#32) v).byteAt (a + BitVec.ofNat 32 k) = s.byteAt (a + BitVec.ofNat 32 k) := by
    intro k hk
    obtain ⟨-, hframe, -⟩ := writesBytes_setWord h (a + 4#32) 0#32 v
    refine hframe _ fun j hj => ?_
    simp only [List.length_cons, List.length_nil] at hj
    interval_cases k <;> interval_cases j <;> simp [BitVec.add_assoc]
  have k0 := kept 0 (by decide)
  rw [BitVec.add_zero] at k0
  rw [State.wordAt_eq_bytes, State.wordAt_eq_bytes, k0, kept 1 (by decide), kept 2 (by decide),
    kept 3 (by decide)]

section
variable {s : State} (h : s.mem.wf = true) (a : Word) (v : Dword)
include h

theorem wordAt_setDword_high : (s.setDword a v).wordAt a = v.extractLsb' 32 32 :=
  calc (s.setDword a v).wordAt a
    _ = ((s.setWord a (v.extractLsb' 32 32)).setWord (a + 4#32) (v.extractLsb' 0 32)).wordAt a := rfl
    _ = (s.setWord a (v.extractLsb' 32 32)).wordAt a :=
      wordAt_setWord_of_next (Memory.write32_wf _ _ h) a _
    _ = v.extractLsb' 32 32 := wordAt_setWord h a _

theorem wordAt_setDword_low : (s.setDword a v).wordAt (a + 4#32) = v.extractLsb' 0 32 :=
  wordAt_setWord (s := s.setWord a (v.extractLsb' 32 32)) (Memory.write32_wf _ _ h) (a + 4#32) _

theorem dwordAt_setDword : (s.setDword a v).dwordAt a = v := by
  rw [State.dwordAt, wordAt_setDword_high h, wordAt_setDword_low h]
  exact extractLsb'_halves (n := 32) v

end

/-- Settles O13, width by width. -/
theorem mixedWidthAccessesSeeTheBytes : Obligations.MixedWidthAccessesSeeTheBytes := by
  intro s a h
  refine ⟨byteAt_setByte_self h a, fun v => ?half, fun v => ?word, fun v => ?dword⟩
  case half => exact ⟨halfAt_setHalf h a v, bytes_setHalf h a v⟩
  case word =>
    obtain ⟨h0, -, -, h3⟩ := bytes_setWord h a v
    exact ⟨wordAt_setWord h a v, halfAt_setWord_high h a v, halfAt_setWord_low h a v, h0, h3⟩
  case dword =>
    exact ⟨dwordAt_setDword h a v, wordAt_setDword_high h a v, wordAt_setDword_low h a v⟩

/-! Admitted accesses. -/

section
variable {s t : State} {a : Word} {n : Nat} {P : State → Prop}

theorem completes_load (ha : Accessible s a n) (hP : P t) : Completes (raiseOr (loadFault s a n) t) P :=
  ⟨t, by rw [loadFault_eq_none a n ha, raiseOr_none], hP⟩

theorem completes_store (ha : Storable s a n) (hP : P t) : Completes (raiseOr (storeFault s a n) t) P :=
  ⟨t, by rw [(storeFault_eq_none_iff a n).2 ha, raiseOr_none], hP⟩

end

/-- With an even register the check of a pair passes (R26). -/
theorem withEven_singleton (s : State) {rd : FReg} (h : EvenReg rd)
    (go : Host.Outcome State Fault Refusal) : withEven s [rd] go = go :=
  withEven_of_even (List.forall_mem_singleton.2 h)

/-- Settles O15. -/
theorem loadsToGprComplete : Obligations.LoadsToGprComplete := by
  intro s rd rs1 imm
  refine ⟨fun h => ?lb, fun h => ?lbu, fun h => ?lh, fun h => ?lhu, fun h => ?lw⟩
  case lb | lbu | lh | lhu => exact completes_load h ⟨writesGpr_setGpr s rd _ _, rfl⟩
  case lw =>
    rw [← State.wordAt_eq_bytes]
    exact completes_load h ⟨writesGpr_setGpr s rd _ _, rfl⟩

/-- Settles O16. -/
theorem loadsToFprComplete : Obligations.LoadsToFprComplete := by
  intro s rd rs1 imm
  refine ⟨fun h => ?lf, fun heven h => ?ld⟩
  case lf => exact completes_load h ⟨writesFpr_setFpr s rd _ _, rfl⟩
  case ld =>
    rw [exec_ld, withEven_singleton s heven]
    exact completes_load h ⟨writesDpr_setDpr s rd _ _, rfl⟩

/-- The bytes of a pair are those of its registers, the even one first (R26, R53). -/
theorem writesBytes_setDword_dpr {s : State} (h : s.mem.wf = true) (a w : Word) (fd : FReg) :
    WritesBytes s ((s.setDword a (s.dpr fd)).setPc w) a
      [(s.fpr fd).extractLsb' 24 8, (s.fpr fd).extractLsb' 16 8, (s.fpr fd).extractLsb' 8 8,
        (s.fpr fd).extractLsb' 0 8, (s.fpr (fd + 1#5)).extractLsb' 24 8,
        (s.fpr (fd + 1#5)).extractLsb' 16 8, (s.fpr (fd + 1#5)).extractLsb' 8 8,
        (s.fpr (fd + 1#5)).extractLsb' 0 8] := by
  have hwrites := writesBytes_setDword h a w (s.dpr fd)
  have high : ∀ j : Nat, (s.dpr fd).extractLsb' (32 + j) 8 = (s.fpr fd).extractLsb' j 8 :=
    fun j => (BitVec.extractLsb'_append_eq_of_le (Nat.le_add_right 32 j)).trans
      (by rw [Nat.add_sub_cancel_left])
  have low : ∀ j : Nat, j + 8 ≤ 32 →
      (s.dpr fd).extractLsb' j 8 = (s.fpr (fd + 1#5)).extractLsb' j 8 :=
    fun j hj => BitVec.extractLsb'_append_eq_of_add_le hj
  rwa [high 24, high 16, high 8, high 0, low 24 (by decide), low 16 (by decide), low 8 (by decide),
    low 0 (by decide)] at hwrites

/-- The bytes of the low half of a word. -/
theorem writesBytes_setHalf_low {s : State} (h : s.mem.wf = true) (a w v : Word) :
    WritesBytes s ((s.setHalf a (v.extractLsb' 0 16)).setPc w) a
      [v.extractLsb' 8 8, v.extractLsb' 0 8] := by
  have hwrites := writesBytes_setHalf h a w (v.extractLsb' 0 16)
  rwa [extractLsb'_extractLsb' v (by decide), extractLsb'_extractLsb' v (by decide)] at hwrites

/-- Settles O17. -/
theorem storesComplete : Obligations.StoresComplete := by
  intro s rd rs1 fd imm hwf
  refine ⟨fun h => ?sb, fun h => ?sh, fun h => ?sw, fun h => ?sf, fun heven h => ?sd⟩
  case sb => exact completes_store h ⟨writesBytes_setByte hwf _ _ _, rfl⟩
  case sh => exact completes_store h ⟨writesBytes_setHalf_low hwf _ _ _, rfl⟩
  case sw | sf => exact completes_store h ⟨writesBytes_setWord hwf _ _ _, rfl⟩
  case sd =>
    rw [exec_sd, withEven_singleton s heven]
    exact completes_store h ⟨writesBytes_setDword_dpr hwf _ _ fd, rfl⟩

/-- Settles O19: under `coherent` nothing stands between the store and the fetch; under `refuse` the check
of `TEXT` is the only one left to fail. -/
theorem coherentStoreIsFetched : Obligations.CoherentStoreIsFetched := by
  intro s rd rs1 imm hwf hacc
  refine ⟨fun hsmc hnext => ?coherent, fun hsmc htext => ?refuse⟩
  case coherent =>
    refine completes_store ⟨hacc, .inl hsmc⟩ ?_
    rw [hnext] at hacc ⊢
    have hfetch := fetch_of_accessible (s := (s.setWord (s.pc + 4#32) (s.gpr rd)).advance) hacc
    rw [hfetch]
    exact congrArg Except.ok (wordAt_setWord hwf (s.pc + 4#32) (s.gpr rd))
  case refuse =>
    have hmeets : ¬ ∀ k : Nat, k < 4 → ¬ InText s (effectiveAddress s rs1 imm + BitVec.ofNat 32 k) :=
      fun hmiss => hmiss 3 (by decide) htext
    calc exec (.sw rd rs1 imm) s
      _ = raiseOr (storeFault s (effectiveAddress s rs1 imm) 4) _ := rfl
      _ = raiseOr (textFault s (effectiveAddress s rs1 imm) 4) _ := by
        rw [storeFault, (dataFault_eq_none_iff _ 4 .store).2 hacc, Option.none_or]
      _ = .fault (.storeToText s.pc (effectiveAddress s rs1 imm)) := by
        rw [raiseOr_textFault, if_pos ⟨hsmc, hmeets⟩]

end Sys2Proof.Machine
end

