-- ==== Sys2Proof/Proofs/ArithLogical.lean ====
section
/-! Arithmetic and logic without overflow (`42_arith_logical.md` R154 to R188): the word that each operation
writes, as a number or bit by bit. -/

namespace Sys2Proof.Machine

/-! An operation that writes one register completes. -/

section
variable (s : State)

theorem completes_setGpr (rd : GReg) {v v' : Word} (h : v = v') :
    Completes (.next (s.setGpr rd v).advance) fun t => WritesGpr s t rd v' ∧ t.pc = s.pc + 4#32 :=
  ⟨_, rfl, h ▸ writesGpr_setGpr s rd v _, rfl⟩

/-- The form of the statements that say what is true of the written word. -/
theorem completes_setGpr_of (rd : GReg) {v : Word} {P : Word → Prop} (h : P v) :
    Completes (.next (s.setGpr rd v).advance) fun t =>
      ∃ v : Word, WritesGpr s t rd v ∧ t.pc = s.pc + 4#32 ∧ P v :=
  ⟨_, rfl, v, writesGpr_setGpr s rd v _, rfl, h⟩

theorem completes_setFpr_of (rd : FReg) {v : Word} {P : Word → Prop} (h : P v) :
    Completes (.next (s.setFpr rd v).advance) fun t =>
      ∃ v : Word, P v ∧ WritesFpr s t rd v 0 ∧ t.pc = s.pc + 4#32 :=
  ⟨_, rfl, v, h, writesFpr_setFpr s rd v _, rfl⟩

end

/-! The immediates (R88 to R90). -/

theorem unsignedImm_toNat (imm : Half) : (unsignedImm imm).toNat = imm.toNat := by
  have hlt := imm.isLt
  rw [unsignedImm, BitVec.zeroExtend, BitVec.toNat_setWidth]
  omega

theorem getLsbD_unsignedImm (imm : Half) (k : Nat) : (unsignedImm imm).getLsbD k = imm.getLsbD k := by
  rw [BitVec.getLsbD, BitVec.getLsbD, unsignedImm_toNat]

theorem highImm_toNat (imm : Half) : (highImm imm).toNat = imm.toNat * 2 ^ 16 := by
  rw [highImm, BitVec.toNat_append, Nat.shiftLeft_eq]
  exact Nat.or_zero _

theorem regShift_eq (v : Word) : regShift v = v.toNat % 32 := by
  rw [regShift, BitVec.extractLsb'_toNat, Nat.shiftRight_zero]

theorem immShift_eq (imm : Half) : immShift imm = imm.toNat % 32 := by
  rw [immShift, BitVec.extractLsb'_toNat, Nat.shiftRight_zero]

/-! Unsigned sums and differences (R154, R155, R158, R159). -/

theorem add_eq_ofNat (x y : Word) : x + y = BitVec.ofNat 32 (x.toNat + y.toNat) := by
  rw [BitVec.ofNat_add, BitVec.ofNat_toNat, BitVec.ofNat_toNat, BitVec.setWidth_eq, BitVec.setWidth_eq]

theorem sub_eq_ofInt (x y : Word) : x - y = BitVec.ofInt 32 (x.toNat - y.toNat) := by
  apply BitVec.eq_of_toNat_eq
  have hx := x.isLt
  have hy := y.isLt
  rw [BitVec.toNat_sub, BitVec.toNat_ofInt]
  omega

/-- Settles O24. -/
theorem unsignedAddSubtractWrap : Obligations.UnsignedAddSubtractWrap := by
  intro s rd rs1 rs2 imm
  refine ⟨completes_setGpr s rd (add_eq_ofNat _ _), completes_setGpr s rd ?addui,
    completes_setGpr s rd (sub_eq_ofInt _ _), completes_setGpr s rd ?subui⟩
  case addui => rw [add_eq_ofNat, unsignedImm_toNat]
  case subui => rw [sub_eq_ofInt, unsignedImm_toNat]

/-! Products and quotients (R161 to R163). -/

section
variable (s : State)

/-- R163. -/
theorem exec_divu (rd rs1 rs2 : FReg) : exec (.divu rd rs1 rs2) s =
    if s.fpr rs2 = 0#32 then .fault (.divideByZero s.pc)
    else .next (s.setFpr rd (BitVec.ofNat 32 ((s.fpr rs1).toNat / (s.fpr rs2).toNat))).advance := rfl

/-- R162: a zero divisor is seen before the quotient is. -/
theorem exec_div_of_eq_zero (rd rs1 : FReg) {rs2 : FReg} (h : s.fpr rs2 = 0#32) :
    exec (.div rd rs1 rs2) s = .fault (.divideByZero s.pc) := if_pos h

end

/-- A quotient of words is a word. -/
theorem toNat_ofNat_div (x y : Word) : (BitVec.ofNat 32 (x.toNat / y.toNat)).toNat = x.toNat / y.toNat := by
  rw [BitVec.toNat_ofNat]
  exact Nat.mod_eq_of_lt (Nat.lt_of_le_of_lt (Nat.div_le_self _ _) x.isLt)

/-- Settles O25. -/
theorem unsignedMultiplyDivide : Obligations.UnsignedMultiplyDivide := by
  intro s rd rs1 rs2
  refine ⟨?multu, fun h => ?divu, fun h => ⟨?divuZero, exec_div_of_eq_zero s rd rs1 h⟩⟩
  case multu =>
    exact completes_setFpr_of s rd
      (P := fun v => v.toNat = (s.fpr rs1).toNat * (s.fpr rs2).toNat % 2 ^ 32) (BitVec.toNat_ofNat _ _)
  case divu =>
    rw [exec_divu, if_neg h]
    exact completes_setFpr_of s rd
      (P := fun v => v.toNat = (s.fpr rs1).toNat / (s.fpr rs2).toNat) (toNat_ofNat_div _ _)
  case divuZero => rw [exec_divu, if_pos h]

/-- The one quotient of words that does not fit is that of the least integer and -1. -/
theorem fits_tdiv {x y : Word} (hy : y ≠ 0#32) (h : ¬ (x = 0x80000000#32 ∧ y = 0xFFFFFFFF#32)) :
    Fits (x.toInt.tdiv y.toInt) := by
  have hxlo : -(2 : Int) ^ 31 ≤ x.toInt := BitVec.le_toInt x
  have hxhi : x.toInt < (2 : Int) ^ 31 := BitVec.toInt_lt
  have hy0 : y.toInt ≠ 0 := fun e => hy (BitVec.eq_of_toInt_eq e)
  have hsize : (x.toInt.tdiv y.toInt).natAbs = x.toInt.natAbs / y.toInt.natAbs := Int.natAbs_tdiv _ _
  by_cases hsmall : y.toInt.natAbs = 1
  · obtain hone | hneg := Int.natAbs_eq_iff.1 hsmall
    · rw [hone, Nat.cast_one, Int.tdiv_one]
      exact ⟨hxlo, Int.le_sub_one_of_lt hxhi⟩
    · have hy' : y = 0xFFFFFFFF#32 := BitVec.eq_of_toInt_eq hneg
      have hx' : x.toInt ≠ -(2 : Int) ^ 31 := fun e => h ⟨BitVec.eq_of_toInt_eq e, hy'⟩
      rw [hneg, Nat.cast_one, Int.tdiv_neg, Int.tdiv_one]
      omega
  · have hhalf : x.toInt.natAbs / y.toInt.natAbs ≤ x.toInt.natAbs / 2 :=
      Nat.div_le_div_left (by omega) (by decide)
    omega

/-- What the quotient rounded toward zero leaves (R162). -/
theorem tdiv_remainder (x : Int) {y : Int} (hy : y ≠ 0) :
    x = x.tdiv y * y + x.tmod y ∧ (x.tmod y).natAbs < y.natAbs ∧
      (x.tmod y ≠ 0 → (x.tmod y < 0 ↔ x < 0)) := by
  refine ⟨(Int.tdiv_mul_add_tmod x y).symm, ?_, fun hne => ⟨fun hneg => ?_, fun hx => ?_⟩⟩
  · rw [Int.natAbs_tmod]
    exact Nat.mod_lt _ (Int.natAbs_pos.2 hy)
  · by_contra hx
    exact absurd (Int.tmod_nonneg y (not_lt.1 hx)) (not_le.2 hneg)
  · have hflip := Int.tmod_nonneg y (show 0 ≤ -x by omega)
    rw [Int.neg_tmod] at hflip
    omega

/-- Settles O26. -/
theorem signedDivisionTruncates : Obligations.SignedDivisionTruncates := by
  intro s rd rs1 rs2 hy hov
  obtain ⟨hfits, -, -⟩ := signedToFpr_fitsTrapsOrWraps s rd ((s.fpr rs1).toInt.tdiv (s.fpr rs2).toInt)
  obtain ⟨t, hnext, -, hpc, hquotient⟩ := hfits (fits_tdiv hy hov)
  have hy0 : (s.fpr rs2).toInt ≠ 0 := fun e => hy (BitVec.eq_of_toInt_eq e)
  obtain ⟨hsum, hsize, hsign⟩ := tdiv_remainder (s.fpr rs1).toInt hy0
  refine ⟨t, (exec_div_of_ne_zero s rd rs1 hy).trans hnext, _, ?_, hsize, hsign, hpc⟩
  rwa [hquotient]

/-! Logic (R164 to R170). -/

/-- Settles O27. -/
theorem logicalInstructionsComplete : Obligations.LogicalInstructionsComplete := by
  intro s rd rs1 rs2 imm
  refine ⟨completes_setGpr_of s rd fun k => ?and, completes_setGpr_of s rd fun k => ?andi,
    completes_setGpr_of s rd fun k => ?or, completes_setGpr_of s rd fun k => ?ori,
    completes_setGpr_of s rd fun k => ?xor, completes_setGpr_of s rd fun k => ?xori,
    completes_setGpr_of s rd (P := fun v => v.toNat = imm.toNat * 2 ^ 16) (highImm_toNat imm)⟩
  case and => exact BitVec.getLsbD_and
  case andi => rw [BitVec.getLsbD_and, getLsbD_unsignedImm]
  case or => exact BitVec.getLsbD_or
  case ori => rw [BitVec.getLsbD_or, getLsbD_unsignedImm]
  case xor => exact BitVec.getLsbD_xor
  case xori => rw [BitVec.getLsbD_xor, getLsbD_unsignedImm]

/-! Shifts (R171 to R176). -/

theorem toNat_shiftLeft_eq (x : Word) (k : Nat) : (x <<< k).toNat = x.toNat * 2 ^ k % 2 ^ 32 := by
  rw [BitVec.toNat_shiftLeft, Nat.shiftLeft_eq]

theorem toNat_ushiftRight_eq (x : Word) (k : Nat) : (x >>> k).toNat = x.toNat / 2 ^ k := by
  rw [BitVec.toNat_ushiftRight, Nat.shiftRight_eq_div_pow]

theorem toInt_sshiftRight_eq (x : Word) (k : Nat) : (x.sshiftRight k).toInt = x.toInt / (2 : Int) ^ k := by
  rw [BitVec.toInt_sshiftRight, Int.shiftRight_eq_div_pow]
  norm_cast

/-- Settles O28. -/
theorem shiftsComplete : Obligations.ShiftsComplete := by
  intro s rd rs1 rs2 imm
  rw [List.forall_mem_cons, List.forall_mem_singleton, ← regShift_eq, ← immShift_eq]
  refine ⟨⟨?sll, ?srl, ?sra⟩, ?slli, ?srli, ?srai⟩
  case sll | slli =>
    exact completes_setGpr_of s rd (P := fun v => v.toNat = _) (toNat_shiftLeft_eq (s.gpr rs1) _)
  case srl | srli =>
    exact completes_setGpr_of s rd (P := fun v => v.toNat = _) (toNat_ushiftRight_eq (s.gpr rs1) _)
  case sra | srai =>
    exact completes_setGpr_of s rd (P := fun v => v.toInt = _) (toInt_sshiftRight_eq (s.gpr rs1) _)

/-! Set instructions (R177 to R188). -/

theorem completes_truthWord (s : State) (rd : GReg) {b : Bool} {p : Prop} [Decidable p]
    (h : b = true ↔ p) :
    Completes (.next (s.setGpr rd (truthWord b)).advance) fun t => t.pc = s.pc + 4#32 ∧
      WritesGpr s t rd (if p then 1#32 else 0#32) := by
  have hword : truthWord b = if p then 1#32 else 0#32 := by
    simp only [truthWord, h]
  exact ⟨_, rfl, rfl, hword ▸ writesGpr_setGpr s rd _ _⟩

section
variable (x y : Word)

theorem beq_iff_toInt : (x == y) = true ↔ x.toInt = y.toInt := by
  rw [beq_iff_eq, BitVec.toInt_inj]

theorem bne_iff_toInt : (x != y) = true ↔ x.toInt ≠ y.toInt := by
  rw [bne_iff_ne, ne_eq, ne_eq, BitVec.toInt_inj]

end

/-- Settles O29: each operation is the signed relation of its name. -/
theorem setInstructionsComplete : Obligations.SetInstructionsComplete := by
  intro s rd rs1 rs2 imm
  simp only [List.forall_mem_cons, ← signedImm_toInt]
  refine ⟨⟨?seq, ?seqi, List.forall_mem_nil _⟩, ⟨?sne, ?snei, List.forall_mem_nil _⟩,
    ⟨?slt, ?slti, List.forall_mem_nil _⟩, ⟨?sgt, ?sgti, List.forall_mem_nil _⟩,
    ⟨?sle, ?slei, List.forall_mem_nil _⟩, ⟨?sge, ?sgei, List.forall_mem_nil _⟩⟩
  case seq | seqi => exact completes_truthWord s rd (beq_iff_toInt _ _)
  case sne | snei => exact completes_truthWord s rd (bne_iff_toInt _ _)
  case slt | slti | sgt | sgti => exact completes_truthWord s rd BitVec.slt_iff_toInt_lt
  case sle | slei | sge | sgei => exact completes_truthWord s rd BitVec.sle_iff_toInt_le

end Sys2Proof.Machine
end

