-- ==== Sys2Proof/Proofs/MovesAndTransfers.lean ====
section
/-! Moves and transfers of control (`41_move.md`, `44_jump_branch.md`, `45_special.md`): the register that a
move writes, the target that a transfer loads into `pc`, and what each leaves unchanged. -/

namespace Sys2Proof.Machine

section
variable (s : State)

/-! Moves (R141 to R146). -/

/-- R141: a number that does not name IAR. -/
theorem exec_movi2s_of_ne_iar {n : SReg} (rs1 : GReg) (h : n ≠ s.launch.sreg.iar) :
    exec (.movi2s n rs1) s =
      if n = s.launch.sreg.fpsr then .next (s.setFpsr (wordFpsr (s.gpr rs1))).advance
      else .fault (.illegalInstruction s.pc (s.wordAt s.pc)) := if_neg h

/-- R142: the number of IAR. -/
theorem exec_movs2i_iar (rd : GReg) :
    exec (.movs2i rd s.launch.sreg.iar) s = .next (s.setGpr rd s.iar).advance := if_pos rfl

/-- R142: a number that does not name IAR. -/
theorem exec_movs2i_of_ne_iar (rd : GReg) {n : SReg} (h : n ≠ s.launch.sreg.iar) :
    exec (.movs2i rd n) s =
      if n = s.launch.sreg.fpsr then .next (s.setGpr rd (fpsrWord s.fpsr)).advance
      else .fault (.illegalInstruction s.pc (s.wordAt s.pc)) := if_neg h

end

/-- The bit that MOVI2S writes to FPSR is the parity of the word. -/
theorem wordFpsr_eq (v : Word) : wordFpsr v = BitVec.ofNat 1 (v.toNat % 2) := by
  apply BitVec.eq_of_toNat_eq
  rw [wordFpsr, BitVec.extractLsb'_toNat, Nat.shiftRight_zero, BitVec.toNat_ofNat, Nat.mod_mod]

/-- FPSR widened with zeros is 1 or 0. -/
theorem fpsrWord_eq : ∀ b : BitVec 1, fpsrWord b = if b = 1#1 then 1#32 else 0#32 := by decide

/-- Settles O20. -/
theorem registerMovesComplete : Obligations.RegisterMovesComplete := by
  intro s r fd fs
  refine ⟨?movf, completes_setGpr s r rfl, ?movi2fp, fun hfd hfs => ?movd⟩
  case movf | movi2fp => exact ⟨_, rfl, writesFpr_setFpr s fd _ _, rfl⟩
  case movd =>
    have heven : ∀ q ∈ [fd, fs], EvenReg q :=
      List.forall_mem_cons.2 ⟨hfd, List.forall_mem_singleton.2 hfs⟩
    rw [exec_movd, withEven_of_even heven]
    exact ⟨_, rfl, writesDpr_setDpr s fd _ _, rfl⟩

/-- Settles O21, a clause for each kind of number. -/
theorem moveToSpecialRegister : Obligations.MoveToSpecialRegister := by
  intro s n rs1
  refine ⟨?iar, fun hiar hfpsr => ?fpsr, fun hiar hfpsr => ?other⟩
  case iar =>
    rintro rfl
    exact ⟨_, exec_movi2s_iar s rs1, writesIar_setIar s _ _, rfl⟩
  case fpsr =>
    rw [exec_movi2s_of_ne_iar s rs1 hiar, if_pos hfpsr, wordFpsr_eq]
    exact ⟨_, rfl, writesFpsr_setFpsr s _ _, rfl⟩
  case other => rw [exec_movi2s_of_ne_iar s rs1 hiar, if_neg hfpsr]

/-- Settles O22, likewise. -/
theorem moveFromSpecialRegister : Obligations.MoveFromSpecialRegister := by
  intro s rd n
  refine ⟨?iar, fun hiar hfpsr => ?fpsr, fun hiar hfpsr => ?other⟩
  case iar =>
    rintro rfl
    rw [exec_movs2i_iar]
    exact completes_setGpr s rd rfl
  case fpsr =>
    rw [exec_movs2i_of_ne_iar s rd hiar, if_pos hfpsr]
    exact completes_setGpr s rd (fpsrWord_eq s.fpsr)
  case other => rw [exec_movs2i_of_ne_iar s rd hiar, if_neg hfpsr]

/-! Branches and jumps (R250 to R261). -/

/-- A branch on a condition `p` that the model decides by `b`. -/
theorem completes_branchIf (s : State) (imm : Half) {b c : Bool} (h : b = c) :
    Completes (.next (branchIf s b imm)) fun t => KeepsAll s t ∧
      t.pc = if c then s.pc + 4#32 + BitVec.ofInt 32 imm.toInt else s.pc + 4#32 :=
  ⟨_, rfl, keepsAll_setPc s _, h ▸ rfl⟩

/-- Settles O39. -/
theorem branchesComplete : Obligations.BranchesComplete := by
  intro s rs1 imm
  simp only [List.forall_mem_cons]
  refine ⟨completes_branchIf s imm ?beqz, completes_branchIf s imm ?bnez,
    completes_branchIf s imm ?bfpt, completes_branchIf s imm ?bfpf, List.forall_mem_nil _⟩
  case beqz | bfpt | bfpf => exact beq_eq_decide _ _
  case bnez => rw [bne, beq_eq_decide, ← decide_not]

/-- Settles O40. -/
theorem jumpsComplete : Obligations.JumpsComplete := by
  intro s rs1 name
  refine ⟨?j, ?jal, ?jr, ?jalr⟩
  case j => exact ⟨_, rfl, keepsAll_setPc s _, jumpTarget_eq s name⟩
  case jal => exact ⟨_, rfl, writesGpr_setGpr s 31#5 s.nextPc _, jumpTarget_eq s name⟩
  case jr => exact ⟨_, rfl, keepsAll_setPc s _, rfl⟩
  case jalr => exact ⟨_, rfl, writesGpr_setGpr s 31#5 s.nextPc _, rfl⟩

/-! Labels (R105). -/

/-- The displacement that fits is the whole distance, so adding it reaches the label. -/
theorem add_labelDisplacement {bits : Nat} (hbits : 0 < bits) {a label : Word} {d : BitVec bits}
    (h : labelDisplacement bits a label = some d) :
    a + 4#32 + BitVec.ofInt 32 d.toInt = label := by
  unfold labelDisplacement at h
  simp only at h
  split at h
  case isTrue hfits =>
    cases h
    rw [BitVec.toInt_ofInt_eq_self hbits hfits.1 hfits.2, BitVec.ofInt_toInt, BitVec.add_comm,
      BitVec.sub_add_cancel]
  case isFalse => cases h

/-- Settles O42: each branch is one that O39 takes, each jump one of O40, with the label as its target. -/
theorem labelDisplacementReachesTheLabel : Obligations.LabelDisplacementReachesTheLabel := by
  refine ⟨fun s label imm h p hp htaken => ?branch, fun s label name h => ?jump⟩
  case branch =>
    have htarget := add_labelDisplacement (by decide) h
    have taken : ∀ b : Bool, b = true → Completes (.next (branchIf s b imm)) fun t => t.pc = label := by
      rintro b rfl
      exact ⟨_, rfl, (branchTarget_eq s imm).trans htarget⟩
    revert htaken
    revert p
    simp only [List.forall_mem_cons]
    exact ⟨fun _ => taken _ rfl, fun hfpsr => taken _ ((beq_eq_decide _ _).trans hfpsr),
      fun hfpsr => taken _ ((beq_eq_decide _ _).trans hfpsr), List.forall_mem_nil _⟩
  case jump =>
    have htarget := (jumpTarget_eq s name).trans (add_labelDisplacement (by decide) h)
    exact ⟨⟨_, rfl, htarget⟩, _, rfl, htarget, gpr_link_of_setGpr_setPc s _⟩

/-! Traps (R286, R289) and NOP. -/

/-- The name of a TRAP is the address of its handler (R91). -/
theorem unsignedName_toNat (name : BitVec 26) : (unsignedName name).toNat = name.toNat := by
  have hlt := name.isLt
  rw [unsignedName, BitVec.zeroExtend, BitVec.toNat_setWidth]
  omega

/-- Settles O43. -/
theorem trapEntry : Obligations.TrapEntry := by
  intro s name
  have hlt := name.isLt
  have htarget := unsignedName_toNat name
  refine ⟨_, exec_trap s name, writesIar_setIar s _ _, htarget, ?_⟩
  rw [State.setPc_pc, htarget]
  omega

/-- Settles O45: IAR is where the register was filled from, and what it is filled from again. -/
theorem nestedTrapsNeedIarSaved : Obligations.NestedTrapsNeedIarSaved := by
  intro s r inner hr
  refine ⟨_, exec_movs2i_iar s r, _, exec_trap _ inner, ?overwritten, fun v hv => ?restored⟩
  case overwritten => exact BitVec.add_assoc s.pc 4#32 4#32
  case restored =>
    have hsaved : v.gpr r = s.iar := hv.trans ((s.gpr_setGpr_self r s.iar).trans (if_neg hr))
    have hiar : (v.setIar (v.gpr r)).advance.iar = s.iar := hsaved
    exact ⟨_, exec_movi2s_iar v r, completes_rfe_of_iar _ hiar⟩

/-- Settles O46. -/
theorem nopCompletes : Obligations.NopCompletes :=
  fun s => ⟨_, rfl, keepsAll_setPc s _, rfl⟩

end Sys2Proof.Machine
end

