-- ==== Sys2Proof/Proofs/FloatingPoint.lean ====
section
/-! The 26 floating-point instructions (`43_floating_point.md` R200 to R203): what each does with an answer of
the run's record, whichever record that is, and that the default record never answers a fault. -/

namespace Sys2Proof.Machine

section
variable (s : State)

/-! An answer of the record (R200, R201). -/

theorem answersFpr_answerToFpr (rd : FReg) (a : FPResult 32) :
    AnswersFpr s (answerToFpr s rd a) rd a := by
  cases a with
  | value v => exact ⟨_, rfl, writesFpr_setFpr s rd v _, rfl⟩
  | quietNaN => exact ⟨_, rfl, _, quietNaN32_isQuiet _, writesFpr_drawn s rd _ _, rfl⟩
  | anyBits => exact ⟨_, rfl, _, writesFpr_drawn s rd _ _, rfl⟩
  | fault => rfl

theorem answersDpr_answerToDpr (rd : FReg) (a : FPResult 64) :
    AnswersDpr s (answerToDpr s rd a) rd a := by
  cases a with
  | value v => exact ⟨_, rfl, writesDpr_setDpr s rd v _, rfl⟩
  | quietNaN => exact ⟨_, rfl, _, quietNaN64_isQuiet _, writesDpr_drawn s rd _ _, rfl⟩
  | anyBits => exact ⟨_, rfl, _, writesDpr_drawn s rd _ _, rfl⟩
  | fault => rfl

theorem answersFpsr_compareTo (a : Option Bool) : AnswersFpsr s (compareTo s a) a := by
  cases a with
  | none => rfl
  | some b => exact ⟨_, rfl, writesFpsr_setFpsr s _ _, rfl⟩

/-! The same behind the check of the double-precision operands (R202). -/

variable {regs : List FReg} (heven : ∀ r ∈ regs, EvenReg r)
include heven

theorem answersFpr_withEven (rd : FReg) (a : FPResult 32) :
    AnswersFpr s (withEven s regs (answerToFpr s rd a)) rd a := by
  rw [withEven_of_even heven]
  exact answersFpr_answerToFpr s rd a

theorem answersDpr_withEven (rd : FReg) (a : FPResult 64) :
    AnswersDpr s (withEven s regs (answerToDpr s rd a)) rd a := by
  rw [withEven_of_even heven]
  exact answersDpr_answerToDpr s rd a

theorem answersFpsr_withEven (a : Option Bool) :
    AnswersFpsr s (withEven s regs (compareTo s a)) a := by
  rw [withEven_of_even heven]
  exact answersFpsr_compareTo s a

end

/-! The instructions follow the record. -/

/-- Settles O30. -/
theorem singleResultsFollowTheRecord : Obligations.SingleResultsFollowTheRecord := by
  intro s rd rs1 rs2
  refine ⟨?addf, ?subf, ?multf, ?divf, ?cvtf2i, ?cvti2f, fun h => ?cvtd2f, fun h => ?cvtd2i⟩
  case addf | subf | multf | divf | cvtf2i | cvti2f => exact answersFpr_answerToFpr s rd _
  case cvtd2f | cvtd2i => exact answersFpr_withEven s (List.forall_mem_singleton.2 h) rd _

/-- Settles O31. -/
theorem doubleResultsFollowTheRecord : Obligations.DoubleResultsFollowTheRecord := by
  intro s rd rs1 rs2 hd
  refine ⟨fun h1 h2 => ?arith, ?cvtf2d, ?cvti2d⟩
  case arith =>
    have heven : ∀ r ∈ [rd, rs1, rs2], EvenReg r :=
      List.forall_mem_cons.2 ⟨hd, List.forall_mem_cons.2 ⟨h1, List.forall_mem_singleton.2 h2⟩⟩
    exact ⟨answersDpr_withEven s heven rd _, answersDpr_withEven s heven rd _,
      answersDpr_withEven s heven rd _, answersDpr_withEven s heven rd _⟩
  case cvtf2d | cvti2d => exact answersDpr_withEven s (List.forall_mem_singleton.2 hd) rd _

/-- Settles O32. -/
theorem singleComparisonsSetFpsr : Obligations.SingleComparisonsSetFpsr :=
  fun s _ _ => ⟨answersFpsr_compareTo s _, answersFpsr_compareTo s _, answersFpsr_compareTo s _,
    answersFpsr_compareTo s _, answersFpsr_compareTo s _, answersFpsr_compareTo s _⟩

/-- Settles O33. -/
theorem doubleComparisonsSetFpsr : Obligations.DoubleComparisonsSetFpsr := by
  rintro s rs1 rs2 a b h1 h2 rfl rfl
  have heven : ∀ r ∈ [rs1, rs2], EvenReg r :=
    List.forall_mem_cons.2 ⟨h1, List.forall_mem_singleton.2 h2⟩
  exact ⟨answersFpsr_withEven s heven _, answersFpsr_withEven s heven _,
    answersFpsr_withEven s heven _, answersFpsr_withEven s heven _,
    answersFpsr_withEven s heven _, answersFpsr_withEven s heven _⟩

/-! The default record answers no fault (R200, R201). -/

section
variable (fmt : FPFormat) (w : Nat) (a b : FPClass)

theorem addClass_ne_fault : addClass fmt w a b ≠ .fault := by
  fun_cases addClass fmt w a b <;> exact nofun

theorem mulClass_ne_fault : mulClass fmt w a b ≠ .fault := by
  fun_cases mulClass fmt w a b <;> exact nofun

theorem divClass_ne_fault : divClass fmt w a b ≠ .fault := by
  fun_cases divClass fmt w a b <;> exact nofun

theorem convertClass_ne_fault : convertClass fmt w a ≠ .fault := by
  fun_cases convertClass fmt w a <;> exact nofun

theorem integerClass_ne_fault : integerClass a ≠ .fault := by
  fun_cases integerClass a <;> exact nofun

theorem ofInteger_ne_fault (v : Word) : ofInteger fmt w v ≠ .fault := nofun

end

/-- No field of the record answers a fault. -/
structure NeverFaults (ops : FPOps) : Prop where
  add32 : ∀ a b, ops.add32 a b ≠ .fault
  sub32 : ∀ a b, ops.sub32 a b ≠ .fault
  mul32 : ∀ a b, ops.mul32 a b ≠ .fault
  div32 : ∀ a b, ops.div32 a b ≠ .fault
  add64 : ∀ a b, ops.add64 a b ≠ .fault
  sub64 : ∀ a b, ops.sub64 a b ≠ .fault
  mul64 : ∀ a b, ops.mul64 a b ≠ .fault
  div64 : ∀ a b, ops.div64 a b ≠ .fault
  f2d : ∀ a, ops.f2d a ≠ .fault
  d2f : ∀ a, ops.d2f a ≠ .fault
  f2i : ∀ a, ops.f2i a ≠ .fault
  d2i : ∀ a, ops.d2i a ≠ .fault
  i2f : ∀ v, ops.i2f v ≠ .fault
  i2d : ∀ v, ops.i2d v ≠ .fault
  eq32 : ∀ a b, ops.eq32 a b ≠ none
  lt32 : ∀ a b, ops.lt32 a b ≠ none
  le32 : ∀ a b, ops.le32 a b ≠ none
  eq64 : ∀ a b, ops.eq64 a b ≠ none
  lt64 : ∀ a b, ops.lt64 a b ≠ none
  le64 : ∀ a b, ops.le64 a b ≠ none

theorem neverFaults_ieee754Ops : NeverFaults ieee754Ops where
  add32 _ _ := addClass_ne_fault _ _ _ _
  sub32 _ _ := addClass_ne_fault _ _ _ _
  mul32 _ _ := mulClass_ne_fault _ _ _ _
  div32 _ _ := divClass_ne_fault _ _ _ _
  add64 _ _ := addClass_ne_fault _ _ _ _
  sub64 _ _ := addClass_ne_fault _ _ _ _
  mul64 _ _ := mulClass_ne_fault _ _ _ _
  div64 _ _ := divClass_ne_fault _ _ _ _
  f2d _ := convertClass_ne_fault _ _ _
  d2f _ := convertClass_ne_fault _ _ _
  f2i _ := integerClass_ne_fault _
  d2i _ := integerClass_ne_fault _
  i2f _ := ofInteger_ne_fault _ _ _
  i2d _ := ofInteger_ne_fault _ _ _
  eq32 _ _ := nofun
  lt32 _ _ := nofun
  le32 _ _ := nofun
  eq64 _ _ := nofun
  lt64 _ _ := nofun
  le64 _ _ := nofun

/-! So the instruction completes, whatever else it is answered. -/

section
variable {s : State} {o : Host.Outcome State Fault Refusal} {rd : FReg}

theorem completes_of_answersFpr {a : FPResult 32} (h : AnswersFpr s o rd a) (ha : a ≠ .fault) :
    Completes o fun t => t.pc = s.pc + 4#32 := by
  cases a with
  | value v => obtain ⟨t, ho, -, hpc⟩ := h; exact ⟨t, ho, hpc⟩
  | quietNaN => obtain ⟨t, ho, -, -, -, hpc⟩ := h; exact ⟨t, ho, hpc⟩
  | anyBits => obtain ⟨t, ho, -, -, hpc⟩ := h; exact ⟨t, ho, hpc⟩
  | fault => exact absurd rfl ha

theorem completes_of_answersDpr {a : FPResult 64} (h : AnswersDpr s o rd a) (ha : a ≠ .fault) :
    Completes o fun t => t.pc = s.pc + 4#32 := by
  cases a with
  | value v => obtain ⟨t, ho, -, hpc⟩ := h; exact ⟨t, ho, hpc⟩
  | quietNaN => obtain ⟨t, ho, -, -, -, hpc⟩ := h; exact ⟨t, ho, hpc⟩
  | anyBits => obtain ⟨t, ho, -, -, hpc⟩ := h; exact ⟨t, ho, hpc⟩
  | fault => exact absurd rfl ha

theorem completes_of_answersFpsr {a : Option Bool} (h : AnswersFpsr s o a) (ha : a ≠ none) :
    Completes o fun t => t.pc = s.pc + 4#32 := by
  cases a with
  | none => exact absurd rfl ha
  | some b => obtain ⟨t, ho, -, hpc⟩ := h; exact ⟨t, ho, hpc⟩

end

section
variable (s : State) {regs : List FReg} (heven : ∀ r ∈ regs, EvenReg r) (rd : FReg)

theorem completes_answerToFpr {a : FPResult 32} (ha : a ≠ .fault) :
    Completes (answerToFpr s rd a) fun t => t.pc = s.pc + 4#32 :=
  completes_of_answersFpr (answersFpr_answerToFpr s rd a) ha

theorem completes_compareTo {a : Option Bool} (ha : a ≠ none) :
    Completes (compareTo s a) fun t => t.pc = s.pc + 4#32 :=
  completes_of_answersFpsr (answersFpsr_compareTo s a) ha

include heven

theorem completes_withEven_answerToFpr {a : FPResult 32} (ha : a ≠ .fault) :
    Completes (withEven s regs (answerToFpr s rd a)) fun t => t.pc = s.pc + 4#32 :=
  completes_of_answersFpr (answersFpr_withEven s heven rd a) ha

theorem completes_withEven_answerToDpr {a : FPResult 64} (ha : a ≠ .fault) :
    Completes (withEven s regs (answerToDpr s rd a)) fun t => t.pc = s.pc + 4#32 :=
  completes_of_answersDpr (answersDpr_withEven s heven rd a) ha

theorem completes_withEven_compareTo {a : Option Bool} (ha : a ≠ none) :
    Completes (withEven s regs (compareTo s a)) fun t => t.pc = s.pc + 4#32 :=
  completes_of_answersFpsr (answersFpsr_withEven s heven a) ha

end

/-- Settles O34, instruction by instruction; the last line is for the other 66. -/
theorem defaultRecordFloatingPointCompletes : Obligations.DefaultRecordFloatingPointCompletes := by
  intro s i hrecord hname heven
  have hops : NeverFaults s.fpOps := by
    rw [State.fpOps, hrecord]
    exact neverFaults_ieee754Ops
  have negated {a : Option Bool} (ha : a ≠ none) : a.map (!·) ≠ none :=
    fun h => ha (Option.map_eq_none_iff.1 h)
  cases i
  case addf => exact completes_answerToFpr s _ (hops.add32 _ _)
  case subf => exact completes_answerToFpr s _ (hops.sub32 _ _)
  case multf => exact completes_answerToFpr s _ (hops.mul32 _ _)
  case divf => exact completes_answerToFpr s _ (hops.div32 _ _)
  case addd => exact completes_withEven_answerToDpr s heven _ (hops.add64 _ _)
  case subd => exact completes_withEven_answerToDpr s heven _ (hops.sub64 _ _)
  case multd => exact completes_withEven_answerToDpr s heven _ (hops.mul64 _ _)
  case divd => exact completes_withEven_answerToDpr s heven _ (hops.div64 _ _)
  case cvtf2d => exact completes_withEven_answerToDpr s heven _ (hops.f2d _)
  case cvtf2i => exact completes_answerToFpr s _ (hops.f2i _)
  case cvtd2f => exact completes_withEven_answerToFpr s heven _ (hops.d2f _)
  case cvtd2i => exact completes_withEven_answerToFpr s heven _ (hops.d2i _)
  case cvti2f => exact completes_answerToFpr s _ (hops.i2f _)
  case cvti2d => exact completes_withEven_answerToDpr s heven _ (hops.i2d _)
  case eqf => exact completes_compareTo s (hops.eq32 _ _)
  case nef => exact completes_compareTo s (negated (hops.eq32 _ _))
  case ltf | gtf => exact completes_compareTo s (hops.lt32 _ _)
  case lef | gef => exact completes_compareTo s (hops.le32 _ _)
  case eqd => exact completes_withEven_compareTo s heven (hops.eq64 _ _)
  case ned => exact completes_withEven_compareTo s heven (negated (hops.eq64 _ _))
  case ltd | gtd => exact completes_withEven_compareTo s heven (hops.lt64 _ _)
  case led | ged => exact completes_withEven_compareTo s heven (hops.le64 _ _)
  all_goals cases hname

end Sys2Proof.Machine
end

