-- ==== Sys2Proof/Proofs/FloatExact.lean ====
section
/-! The four operations of the default record in exact numbers (`43_floating_point.md` R201): each answers its
exact result rounded once, so a result that some pattern holds is that pattern; and what NaN operands and zero
divisors answer. -/

namespace Sys2Proof.Machine

/-! Numbers of decoded operands. -/

theorem signFactor_ne_zero (neg : Bool) : signFactor neg ≠ 0 := by
  cases neg <;> simp [signFactor]

theorem signFactor_not (neg : Bool) : signFactor (!neg) = -signFactor neg := by
  cases neg <;> simp [signFactor]

theorem signFactor_xor (s t : Bool) : signFactor (s ^^ t) = signFactor s * signFactor t := by
  cases s <;> cases t <;> simp [signFactor]

theorem signFactor_mul_self (neg : Bool) : signFactor neg * signFactor neg = 1 := by
  cases neg <;> simp [signFactor]

/-- The number of a finite operand (R201). -/
def finiteValue (neg : Bool) (m : Nat) (e : Int) : ℚ := signFactor neg * (m * 2 ^ e)

theorem finiteValue_eq_zero_iff {neg : Bool} {m : Nat} {e : Int} :
    finiteValue neg m e = 0 ↔ m = 0 := by
  have hpow : (2 : ℚ) ^ e ≠ 0 := zpow_ne_zero _ two_ne_zero
  simp [finiteValue, signFactor_ne_zero, hpow]

theorem finiteValue_not (neg : Bool) (m : Nat) (e : Int) :
    finiteValue (!neg) m e = -finiteValue neg m e := by
  rw [finiteValue, signFactor_not, neg_mul, finiteValue]

theorem scaled_cast (neg : Bool) (m : Nat) (e u : Int) :
    (scaled neg m e u : ℚ) = signFactor neg * (m * 2 ^ (e - u).toNat) := by
  cases neg <;> simp [scaled, signFactor]

/-- An operand in units of a smaller power of two is the same number. -/
theorem scaled_mul_zpow {neg : Bool} {m : Nat} {e u : Int} (h : u ≤ e) :
    (scaled neg m e u : ℚ) * 2 ^ u = finiteValue neg m e := by
  have hshift : ((2 : ℚ) ^ (e - u).toNat) * 2 ^ u = 2 ^ e := by
    rw [← zpow_natCast, Int.toNat_of_nonneg (by omega), ← zpow_add₀ two_ne_zero, sub_add_cancel]
  rw [scaled_cast, finiteValue, mul_assoc, mul_assoc, hshift]

/-- An integer as sign and size. -/
theorem signFactor_mul_natAbs (v : Int) : signFactor (decide (v < 0)) * (v.natAbs : ℚ) = v := by
  rcases lt_or_ge v 0 with h | h
  · have habs : (v.natAbs : Int) = -v := by omega
    rw [← Int.cast_natCast, habs]
    simp [signFactor, h]
  · have habs : (v.natAbs : Int) = v := by omega
    rw [← Int.cast_natCast, habs]
    simp [signFactor, not_lt.2 h]

/-! Rounding. -/

/-- The answer is the number `z` rounded, with the sign `zeroSign` where `z` is zero (R201). -/
def RoundsTo (fmt : FPFormat) (w : Nat) (zeroSign : Bool) (z : ℚ) (r : FPResult w) : Prop :=
  ∃ (neg : Bool) (n d : Nat) (e : Int), 0 < d ∧ r = rounded fmt w neg n d e ∧
    signFactor neg * ((n : ℚ) / d * 2 ^ e) = z ∧ (z = 0 → neg = zeroSign)

section
variable {fmt : FPFormat} {w : Nat} {zeroSign : Bool} {z : ℚ} {r : FPResult w}

/-- A number other than zero that a pattern holds is that pattern. -/
theorem RoundsTo.eq_of_value {value : BitVec w → Option ℚ} (h : RoundsTo fmt w zeroSign z r)
    (hv : Unpacks fmt value) {c : BitVec w} (hc : value c = some z) (hz : z ≠ 0) : r = .value c := by
  obtain ⟨neg, n, d, e, hd, rfl, hnumber, -⟩ := h
  exact rounded_exact hv hc hz hd hnumber

/-- Zero is the zero of its sign. -/
theorem RoundsTo.eq_of_zero (h : RoundsTo fmt w zeroSign z r) (hz : z = 0) :
    r = .value (BitVec.ofNat w (signBits fmt zeroSign)) := by
  obtain ⟨neg, n, d, e, hd, rfl, hnumber, hsign⟩ := h
  have hdq : (d : ℚ) ≠ 0 := Nat.cast_ne_zero.2 hd.ne'
  have hpow : (2 : ℚ) ^ e ≠ 0 := zpow_ne_zero _ two_ne_zero
  have hn : n = 0 := by
    simpa [hz, signFactor_ne_zero, hdq, hpow] using hnumber
  rw [rounded, roundRatio, if_pos hn, hsign hz]

end

/-! The operations on finite operands. -/

section
variable (fmt : FPFormat) (w : Nat) (s t : Bool) (m n : Nat) (e k : Int)

/-- R204, R208: an exact zero is negative only if both operands are. -/
theorem roundsTo_addClass : RoundsTo fmt w (s && t) (finiteValue s m e + finiteValue t n k)
    (addClass fmt w (.finite s m e) (.finite t n k)) := by
  have hsum : ((scaled s m e (min e k) + scaled t n k (min e k) : Int) : ℚ) * 2 ^ min e k =
      finiteValue s m e + finiteValue t n k := by
    rw [Int.cast_add, add_mul, scaled_mul_zpow (min_le_left e k), scaled_mul_zpow (min_le_right e k)]
  rw [← hsum]
  simp only [addClass]
  generalize scaled s m e (min e k) + scaled t n k (min e k) = v
  split
  case isTrue hv => exact ⟨s && t, 0, 1, min e k, one_pos, rfl, by simp [hv], fun _ => rfl⟩
  case isFalse hv =>
    refine ⟨decide (v < 0), v.natAbs, 1, min e k, one_pos, rfl, ?_, fun h => absurd h ?_⟩
    · rw [Nat.cast_one, div_one, ← mul_assoc, signFactor_mul_natAbs]
    · exact mul_ne_zero (Int.cast_ne_zero.2 hv) (zpow_ne_zero _ two_ne_zero)

/-- R205, R209: a difference is the sum with the sign of the subtrahend turned. -/
theorem roundsTo_subClass : RoundsTo fmt w (s && !t) (finiteValue s m e - finiteValue t n k)
    (addClass fmt w (.finite s m e) (negClass (.finite t n k))) := by
  rw [sub_eq_add_neg, ← finiteValue_not]
  exact roundsTo_addClass fmt w s (!t) m n e k

/-- R206, R210. -/
theorem roundsTo_mulClass : RoundsTo fmt w (s ^^ t) (finiteValue s m e * finiteValue t n k)
    (mulClass fmt w (.finite s m e) (.finite t n k)) := by
  refine ⟨s ^^ t, m * n, 1, e + k, one_pos, rfl, ?_, fun _ => rfl⟩
  rw [signFactor_xor, zpow_add₀ two_ne_zero, finiteValue, finiteValue]
  push_cast
  ring

/-- R207, R211: with a divisor other than zero. -/
theorem roundsTo_divClass (hn : n ≠ 0) :
    RoundsTo fmt w (s ^^ t) (finiteValue s m e / finiteValue t n k)
      (divClass fmt w (.finite s m e) (.finite t n k)) := by
  refine ⟨s ^^ t, m, n, e - k, Nat.pos_of_ne_zero hn, by rw [divClass, if_neg hn], ?_, fun _ => rfl⟩
  have hnq : (n : ℚ) ≠ 0 := Nat.cast_ne_zero.2 hn
  have hpow : (2 : ℚ) ^ k ≠ 0 := zpow_ne_zero _ two_ne_zero
  have hsign := signFactor_mul_self t
  have ht := signFactor_ne_zero t
  rw [signFactor_xor, zpow_sub₀ two_ne_zero, finiteValue, finiteValue]
  field_simp
  linear_combination (signFactor s * m) * hsign

end

/-- Unpacking a finite pattern in the terms of `finiteValue`. -/
theorem Unpacks.exists_finite {fmt : FPFormat} {w : Nat} {value : BitVec w → Option ℚ}
    (hv : Unpacks fmt value) {a : BitVec w} {x : ℚ} (h : value a = some x) :
    ∃ m e, unpack fmt a.toNat = .finite a.msb m e ∧ finiteValue a.msb m e = x := by
  obtain ⟨m, e, hunpack, hx, -, -⟩ := hv a x h
  exact ⟨m, e, hunpack, hx.symm⟩

/-- The four operations of a format are exact where they can be, in any format whose patterns `value`
describes. -/
theorem exactArithmetic_of_unpacks {fmt : FPFormat} {w : Nat} {value : BitVec w → Option ℚ}
    (hv : Unpacks fmt value)
    (hzero : ∀ neg, BitVec.ofNat w (signBits fmt neg) = zeroPattern w neg) :
    ExactArithmetic value
      (fun a b => addClass fmt w (unpack fmt a.toNat) (unpack fmt b.toNat))
      (fun a b => addClass fmt w (unpack fmt a.toNat) (negClass (unpack fmt b.toNat)))
      (fun a b => mulClass fmt w (unpack fmt a.toNat) (unpack fmt b.toNat))
      (fun a b => divClass fmt w (unpack fmt a.toNat) (unpack fmt b.toNat)) := by
  intro a b x y hx hy
  obtain ⟨m, e, ha, rfl⟩ := hv.exists_finite hx
  obtain ⟨n, k, hb, rfl⟩ := hv.exists_finite hy
  simp only [ha, hb, ← hzero]
  have hadd := roundsTo_addClass fmt w a.msb b.msb m n e k
  have hsub := roundsTo_subClass fmt w a.msb b.msb m n e k
  have hmul := roundsTo_mulClass fmt w a.msb b.msb m n e k
  have hdiv (h : finiteValue b.msb n k ≠ 0) :=
    roundsTo_divClass fmt w a.msb b.msb m n e k fun hn => h (finiteValue_eq_zero_iff.2 hn)
  refine ⟨fun c z hc hz => ⟨?_, ?_, ?_, ?_⟩, hadd.eq_of_zero, hsub.eq_of_zero, hmul.eq_of_zero, ?_⟩
  · rintro rfl; exact hadd.eq_of_value hv hc hz
  · rintro rfl; exact hsub.eq_of_value hv hc hz
  · rintro rfl; exact hmul.eq_of_value hv hc hz
  · rintro hy0 rfl; exact (hdiv hy0).eq_of_value hv hc hz
  · exact fun hy0 hx0 => (hdiv hy0).eq_of_zero (by rw [hx0, zero_div])

theorem signBits_single : ∀ neg, BitVec.ofNat 32 (signBits single neg) = zeroPattern 32 neg := by
  decide

theorem signBits_double : ∀ neg, BitVec.ofNat 64 (signBits double neg) = zeroPattern 64 neg := by
  decide

/-- Settles O37. -/
theorem defaultArithmeticIsExactWhereItCanBe : Obligations.DefaultArithmeticIsExactWhereItCanBe :=
  ⟨exactArithmetic_of_unpacks unpacks_single signBits_single,
    exactArithmetic_of_unpacks unpacks_double signBits_double⟩

/-! Comparisons with a NaN. -/

/-- An exponent of all ones with a fraction other than zero is a NaN (R201). -/
theorem unpack_eq_nan {fmt : FPFormat} {bits : Nat}
    (hexp : bits / 2 ^ fmt.fracBits % 2 ^ fmt.expBits = 2 ^ fmt.expBits - 1)
    (hfrac : bits % 2 ^ fmt.fracBits ≠ 0) : unpack fmt bits = .nan := by
  simp only [unpack, hexp, if_true, if_neg hfrac]

theorem unpack_single_eq_nan {n : Word} (hexp : n.extractLsb' 23 8 = 0xFF#8)
    (hfrac : n.extractLsb' 0 23 ≠ 0#23) : unpack single n.toNat = .nan := by
  have he := congrArg BitVec.toNat hexp
  rw [BitVec.extractLsb'_toNat, Nat.shiftRight_eq_div_pow] at he
  refine unpack_eq_nan he fun h => hfrac (BitVec.eq_of_toNat_eq ?_)
  rw [BitVec.extractLsb'_toNat, Nat.shiftRight_zero]
  exact h

theorem unpack_double_eq_nan {n : Dword} (hexp : n.extractLsb' 52 11 = 0x7FF#11)
    (hfrac : n.extractLsb' 0 52 ≠ 0#52) : unpack double n.toNat = .nan := by
  have he := congrArg BitVec.toNat hexp
  rw [BitVec.extractLsb'_toNat, Nat.shiftRight_eq_div_pow] at he
  refine unpack_eq_nan he fun h => hfrac (BitVec.eq_of_toNat_eq ?_)
  rw [BitVec.extractLsb'_toNat, Nat.shiftRight_zero]
  exact h

/-- No relation holds of a NaN, on either side. -/
theorem compareClass_nan (c : FPClass) : eqClass .nan c = false ∧ eqClass c .nan = false ∧
    ltClass .nan c = false ∧ ltClass c .nan = false ∧
    leClass .nan c = false ∧ leClass c .nan = false := by
  cases c <;> exact ⟨rfl, rfl, rfl, rfl, rfl, rfl⟩

/-- Settles O35. -/
theorem defaultComparisonsWithNaNAreFalse : Obligations.DefaultComparisonsWithNaNAreFalse := by
  refine ⟨fun n a hexp hfrac => ?single, fun n a hexp hfrac => ?double⟩
  case single =>
    obtain ⟨eq1, eq2, lt1, lt2, le1, le2⟩ := compareClass_nan (unpack single a.toNat)
    simp [ieee754Ops, unpack_single_eq_nan hexp hfrac, eq1, eq2, lt1, lt2, le1, le2]
  case double =>
    obtain ⟨eq1, eq2, lt1, lt2, le1, le2⟩ := compareClass_nan (unpack double a.toNat)
    simp [ieee754Ops, unpack_double_eq_nan hexp hfrac, eq1, eq2, lt1, lt2, le1, le2]

/-! Division by zero. -/

theorem extractLsb'_low31_eq_zero_iff (a : Word) : a.extractLsb' 0 31 = 0#31 ↔ a.toNat % 2 ^ 31 = 0 := by
  rw [← BitVec.toNat_inj, BitVec.extractLsb'_toNat, Nat.shiftRight_zero]
  rfl

theorem toNat_exponent (a : Word) : (a.extractLsb' 23 8).toNat = a.toNat / 2 ^ 23 % 2 ^ 8 := by
  rw [BitVec.extractLsb'_toNat, Nat.shiftRight_eq_div_pow]

/-- A single whose exponent is not all ones is finite, and zero if all its bits but the sign are. -/
theorem unpack_single_finite {a : Word} (hexp : a.extractLsb' 23 8 ≠ 0xFF#8) :
    ∃ m e, unpack single a.toNat = .finite a.msb m e ∧ (m = 0 ↔ a.extractLsb' 0 31 = 0#31) := by
  have hf : (a.extractLsb' 0 23).toNat = a.toNat % 2 ^ 23 := by
    rw [BitVec.extractLsb'_toNat, Nat.shiftRight_zero]
  have hne : a.toNat / 2 ^ 23 % 2 ^ 8 ≠ 255 :=
    fun h => hexp (BitVec.eq_of_toNat_eq ((toNat_exponent a).trans h))
  obtain ⟨m, e, hunpack, hvalue⟩ :=
    unpacks_single.exists_finite (singleValue_of rfl (toNat_exponent a) hf hne)
  refine ⟨m, e, hunpack, ?_⟩
  have hsign := signFactor_ne_zero (a.getLsbD 31)
  rw [← finiteValue_eq_zero_iff (neg := a.msb) (e := e), hvalue, extractLsb'_low31_eq_zero_iff]
  split
  case isTrue hzero =>
    have hunit : (2 : ℚ) ^ (-149 : ℤ) ≠ 0 := zpow_ne_zero _ two_ne_zero
    rw [mul_eq_zero, mul_eq_zero, or_iff_left hunit, or_iff_right hsign, Nat.cast_eq_zero]
    omega
  case isFalse hnormal =>
    have hmant : (2 : ℚ) ^ 23 + (a.toNat % 2 ^ 23 : ℕ) ≠ 0 := by positivity
    have hunit : (2 : ℚ) ^ (((a.toNat / 2 ^ 23 % 2 ^ 8 : ℕ) : ℤ) - 150) ≠ 0 :=
      zpow_ne_zero _ two_ne_zero
    refine iff_of_false (mul_ne_zero (mul_ne_zero hsign hmant) hunit) ?_
    omega

/-- The sign of a single, as the first bit and as a truth value. -/
theorem extractLsb'_sign (v : Word) : v.extractLsb' 31 1 = BitVec.ofBool v.msb := by
  ext k hk
  have hk0 : k = 0 := by omega
  subst hk0
  simp [BitVec.msb_eq_getLsbD_last]

/-- The infinity with the exclusive or of two signs, from its fields. -/
theorem infinite_single_xor (a b : Word) : infinite single 32 (a.msb ^^ b.msb) =
    .value ((a.extractLsb' 31 1 ^^^ b.extractLsb' 31 1) ++ 0xFF#8 ++ 0#23) := by
  rw [extractLsb'_sign, extractLsb'_sign]
  cases a.msb <;> cases b.msb <;> rfl

/-- Settles O36. -/
theorem defaultDivisionByZero : Obligations.DefaultDivisionByZero := by
  intro a b hb ha
  have hbexp : b.extractLsb' 23 8 ≠ 0xFF#8 := by
    intro h
    have hones : b.toNat / 2 ^ 23 % 2 ^ 8 = 255 := (toNat_exponent b).symm.trans (congrArg BitVec.toNat h)
    have hzero := (extractLsb'_low31_eq_zero_iff b).1 hb
    omega
  obtain ⟨m, e, hua, hm⟩ := unpack_single_finite ha
  obtain ⟨n, k, hub, hn⟩ := unpack_single_finite hbexp
  have hdiv : ieee754Ops.div32 a b =
      if m = 0 then .quietNaN else infinite single 32 (a.msb ^^ b.msb) := by
    simp only [ieee754Ops, hua, hub, divClass, if_pos (hn.2 hb)]
  rw [hdiv, ← infinite_single_xor]
  exact ⟨fun h => if_neg fun h0 => h (hm.1 h0), fun h => if_pos (hm.2 h)⟩

end Sys2Proof.Machine
end

