-- ==== Sys2Proof/Proofs/FloatConvert.lean ====
section
/-! Comparisons and conversions of the default record in exact numbers (`43_floating_point.md` R201): the
relations are those of the numbers, a conversion to an integer rounds toward zero, and every single and every
integer is the number of some double. -/

namespace Sys2Proof.Machine

/-! Comparisons of finite operands. -/

section
variable (s t : Bool) (m n : Nat) (e k : Int)

/-- In a common unit the operands compare as their numbers do. -/
theorem scaled_eq_iff :
    scaled s m e (min e k) = scaled t n k (min e k) ↔ finiteValue s m e = finiteValue t n k := by
  have hunit : (2 : ℚ) ^ min e k ≠ 0 := zpow_ne_zero _ two_ne_zero
  rw [← scaled_mul_zpow (min_le_left e k), ← scaled_mul_zpow (min_le_right e k), mul_left_inj' hunit,
    Int.cast_inj]

theorem scaled_lt_iff :
    scaled s m e (min e k) < scaled t n k (min e k) ↔ finiteValue s m e < finiteValue t n k := by
  have hunit : (0 : ℚ) < 2 ^ min e k := zpow_pos two_pos _
  rw [← scaled_mul_zpow (min_le_left e k), ← scaled_mul_zpow (min_le_right e k),
    mul_lt_mul_iff_left₀ hunit, Int.cast_lt]

theorem eqClass_finite : eqClass (.finite s m e) (.finite t n k) =
    decide (finiteValue s m e = finiteValue t n k) := by
  rw [eqClass, beq_eq_decide, decide_eq_decide]
  exact scaled_eq_iff s t m n e k

theorem ltClass_finite : ltClass (.finite s m e) (.finite t n k) =
    decide (finiteValue s m e < finiteValue t n k) := by
  rw [ltClass, decide_eq_decide]
  exact scaled_lt_iff s t m n e k

theorem leClass_finite : leClass (.finite s m e) (.finite t n k) =
    decide (finiteValue s m e ≤ finiteValue t n k) := by
  rw [leClass, eqClass_finite, ltClass_finite, ← Bool.decide_or, decide_eq_decide, le_iff_lt_or_eq]

end

/-- The three relations of a format, on the patterns that `value` describes. -/
theorem compare_of_unpacks {fmt : FPFormat} {w : Nat} {value : BitVec w → Option ℚ}
    (hv : Unpacks fmt value) {a b : BitVec w} {x y : ℚ} (hx : value a = some x) (hy : value b = some y) :
    eqClass (unpack fmt a.toNat) (unpack fmt b.toNat) = decide (x = y) ∧
    ltClass (unpack fmt a.toNat) (unpack fmt b.toNat) = decide (x < y) ∧
    leClass (unpack fmt a.toNat) (unpack fmt b.toNat) = decide (x ≤ y) := by
  obtain ⟨m, e, ha, rfl⟩ := hv.exists_finite hx
  obtain ⟨n, k, hb, rfl⟩ := hv.exists_finite hy
  rw [ha, hb]
  exact ⟨eqClass_finite .., ltClass_finite .., leClass_finite ..⟩

/-! Conversions to an integer. -/

/-- The shifts leave the integer part of the size. -/
theorem floor_mul_zpow (m : Nat) (e : Int) :
    ⌊(m : ℚ) * 2 ^ e⌋ = (((m <<< e.toNat) >>> (-e).toNat : Nat) : Int) := by
  rw [Nat.shiftLeft_eq, Nat.shiftRight_eq_div_pow, two_zpow_eq, ← mul_div_assoc]
  exact_mod_cast Rat.floor_natCast_div_natCast _ _

/-- Rounding toward zero. -/
def truncated (x : ℚ) : Int := if x < 0 then ⌈x⌉ else ⌊x⌋

theorem truncated_neg (x : ℚ) : truncated (-x) = -truncated x := by
  rcases lt_trichotomy x 0 with h | h | h
  · simp [truncated, h, not_lt.2 (neg_nonneg.2 h.le), Int.floor_neg]
  · simp [truncated, h]
  · simp [truncated, h, not_lt.2 h.le, Int.ceil_neg]

theorem truncated_intCast (v : Int) : truncated (v : ℚ) = v := by
  simp [truncated]

/-- The size with the sign is the number rounded toward zero. -/
theorem truncated_finiteValue (s : Bool) (m : Nat) (e : Int) : truncated (finiteValue s m e) =
    if s then -(((m <<< e.toNat) >>> (-e).toNat : Nat) : Int)
    else (((m <<< e.toNat) >>> (-e).toNat : Nat) : Int) := by
  have hsize : truncated ((m : ℚ) * 2 ^ e) = (((m <<< e.toNat) >>> (-e).toNat : Nat) : Int) := by
    rw [truncated, if_neg (not_lt.2 (by positivity)), floor_mul_zpow]
  cases s
  · simpa [finiteValue, signFactor] using hsize
  · simpa [finiteValue, signFactor, truncated_neg] using hsize

theorem truncatesTo_iff {x : ℚ} {r : FPResult 32} : TruncatesTo x r ↔
    r = if Fits (truncated x) then .value (BitVec.ofInt 32 (truncated x)) else .anyBits := Iff.rfl

theorem truncatesTo_integerClass {fmt : FPFormat} {w : Nat} {value : BitVec w → Option ℚ}
    (hv : Unpacks fmt value) {a : BitVec w} {x : ℚ} (hx : value a = some x) :
    TruncatesTo x (integerClass (unpack fmt a.toNat)) := by
  obtain ⟨m, e, ha, rfl⟩ := hv.exists_finite hx
  rw [truncatesTo_iff, ha, truncated_finiteValue]
  rfl

/-! Conversions between the formats and from an integer. -/

theorem roundsTo_convertClass (fmt : FPFormat) (w : Nat) (s : Bool) (m : Nat) (e : Int) :
    RoundsTo fmt w s (finiteValue s m e) (convertClass fmt w (.finite s m e)) :=
  ⟨s, m, 1, e, one_pos, rfl, by rw [Nat.cast_one, div_one, finiteValue], fun _ => rfl⟩

theorem roundsTo_ofInteger (fmt : FPFormat) (w : Nat) (v : Word) :
    RoundsTo fmt w false (v.toInt : ℚ) (ofInteger fmt w v) := by
  refine ⟨decide (v.toInt < 0), v.toInt.natAbs, 1, 0, one_pos, rfl, ?_, fun h => ?_⟩
  · rw [Nat.cast_one, div_one, zpow_zero, mul_one, signFactor_mul_natAbs]
  · rw [Int.cast_eq_zero.1 h]
    rfl

/-! Numbers that a double holds. -/

/-- The double with this sign, exponent and fraction (R201). -/
def doublePattern (neg : Bool) (e : BitVec 11) (frac : BitVec 52) : Dword :=
  BitVec.ofBool neg ++ e ++ frac

/-- The number of a normal double, from its parts. -/
theorem doubleValue_doublePattern (neg : Bool) {e : BitVec 11} (frac : BitVec 52)
    (he : e.toNat ≠ 0) (he' : e.toNat ≠ 2047) : doubleValue (doublePattern neg e frac) =
      some (signFactor neg * (2 ^ 52 + frac.toNat) * 2 ^ ((e.toNat : ℤ) - 1075)) := by
  have hsign : (doublePattern neg e frac).getLsbD 63 = neg := by
    rw [doublePattern, BitVec.getLsbD_append, BitVec.getLsbD_append]
    simp
  have hexp : (doublePattern neg e frac).extractLsb' 52 11 = e :=
    calc (doublePattern neg e frac).extractLsb' 52 11
      _ = (BitVec.ofBool neg ++ e).extractLsb' 0 11 := BitVec.extractLsb'_append_eq_of_le le_rfl
      _ = e.extractLsb' 0 11 := BitVec.extractLsb'_append_eq_of_add_le (by decide)
      _ = e := BitVec.extractLsb'_eq_self
  have hfrac : (doublePattern neg e frac).extractLsb' 0 52 = frac :=
    (BitVec.extractLsb'_append_eq_of_add_le (by decide)).trans BitVec.extractLsb'_eq_self
  rw [doubleValue_of hsign (congrArg BitVec.toNat hexp) (congrArg BitVec.toNat hfrac) he', if_neg he]

/-- The zero of either sign is the number zero. -/
theorem doubleValue_zeroPattern (neg : Bool) : doubleValue (zeroPattern 64 neg) = some 0 := by
  have hsign : (zeroPattern 64 neg).getLsbD 63 = neg := by cases neg <;> decide
  have hexp : ((zeroPattern 64 neg).extractLsb' 52 11).toNat = 0 := by cases neg <;> decide
  have hfrac : ((zeroPattern 64 neg).extractLsb' 0 52).toNat = 0 := by cases neg <;> decide
  rw [doubleValue_of hsign hexp hfrac (by decide), if_pos rfl, Nat.cast_zero, mul_zero, zero_mul]

/-- A mantissa of at most 53 bits, shifted up to exactly 53. -/
theorem shifted_mantissa_bounds {m : Nat} (hm : 0 < m) (hlt : m < 2 ^ 53) : m.log2 ≤ 52 ∧
    2 ^ 52 ≤ m * 2 ^ (52 - m.log2) ∧ m * 2 ^ (52 - m.log2) < 2 ^ 53 := by
  have hlog : m.log2 ≤ 52 := Nat.lt_succ_iff.1 ((Nat.log2_lt hm.ne').2 hlt)
  refine ⟨hlog, ?_, ?_⟩
  · calc 2 ^ 52
      _ = 2 ^ m.log2 * 2 ^ (52 - m.log2) := by rw [← pow_add, Nat.add_sub_cancel' hlog]
      _ ≤ m * 2 ^ (52 - m.log2) := Nat.mul_le_mul_right _ (Nat.log2_self_le hm.ne')
  · calc m * 2 ^ (52 - m.log2)
      _ < 2 ^ (m.log2 + 1) * 2 ^ (52 - m.log2) :=
        Nat.mul_lt_mul_of_pos_right Nat.lt_log2_self (by positivity)
      _ = 2 ^ 53 := by rw [← pow_add]; congr 1; omega

/-- Shifting the mantissa up and the exponent down keeps the number. -/
theorem shifted_mantissa_value {m j : Nat} {e k : Int} (hk : k = e - j) :
    ((m * 2 ^ j : Nat) : ℚ) * 2 ^ k = m * 2 ^ e := by
  rw [hk, zpow_sub₀ two_ne_zero, zpow_natCast]
  push_cast
  field_simp

theorem exists_doubleValue_of_pos (neg : Bool) {m : Nat} {e : Int} (hm : 0 < m) (hlt : m < 2 ^ 53)
    (hlo : -1022 ≤ e) (hhi : e ≤ 900) : ∃ d, doubleValue d = some (finiteValue neg m e) := by
  obtain ⟨hlog, hlower, hupper⟩ := shifted_mantissa_bounds hm hlt
  have hvalue := shifted_mantissa_value (m := m) (j := 52 - m.log2) (e := e)
    (k := e + m.log2 + 1023 - 1075) (by omega)
  generalize m * 2 ^ (52 - m.log2) = mant at hlower hupper hvalue
  obtain ⟨expo, hexpo⟩ : ∃ expo : Nat, (expo : Int) = e + m.log2 + 1023 :=
    ⟨(e + m.log2 + 1023).toNat, by omega⟩
  have hexp : (BitVec.ofNat 11 expo).toNat = expo := by rw [BitVec.toNat_ofNat]; omega
  have hfrac : (BitVec.ofNat 52 (mant - 2 ^ 52)).toNat = mant - 2 ^ 52 := by
    rw [BitVec.toNat_ofNat]; omega
  refine ⟨doublePattern neg (BitVec.ofNat 11 expo) (BitVec.ofNat 52 (mant - 2 ^ 52)), ?_⟩
  rw [doubleValue_doublePattern neg _ (by omega) (by omega), hexp, hfrac, hexpo, Nat.cast_sub hlower,
    finiteValue, ← hvalue]
  push_cast
  ring_nf

/-- A number of at most 53 bits that is neither too small nor too large is the number of a double. -/
theorem exists_doubleValue (neg : Bool) {m : Nat} {e : Int} (hlt : m < 2 ^ 53)
    (hrange : 0 < m → -1022 ≤ e ∧ e ≤ 900) : ∃ d, doubleValue d = some (finiteValue neg m e) := by
  rcases Nat.eq_zero_or_pos m with hzero | hpos
  · exact ⟨zeroPattern 64 neg, by rw [doubleValue_zeroPattern, finiteValue_eq_zero_iff.2 hzero]⟩
  · obtain ⟨hlo, hhi⟩ := hrange hpos
    exact exists_doubleValue_of_pos neg hpos hlt hlo hhi

/-- Rounding to double a number that a double holds keeps the number. -/
theorem RoundsTo.exists_double {zeroSign : Bool} {z : ℚ} {r : FPResult 64}
    (h : RoundsTo double 64 zeroSign z r) (hz : ∃ c, doubleValue c = some z) :
    ∃ d, r = .value d ∧ doubleValue d = some z := by
  obtain ⟨c, hc⟩ := hz
  by_cases hzero : z = 0
  · refine ⟨zeroPattern 64 zeroSign, ?_, by rw [doubleValue_zeroPattern, hzero]⟩
    rw [h.eq_of_zero hzero, signBits_double]
  · exact ⟨c, h.eq_of_value unpacks_double hc hzero, hc⟩

/-- R212: every single is the number of a double. -/
theorem f2d_exact {a : Word} {x : ℚ} (hx : singleValue a = some x) :
    ∃ d, ieee754Ops.f2d a = .value d ∧ doubleValue d = some x := by
  obtain ⟨m, e, hunpack, hvalue, hcanonical, -⟩ := unpacks_single a x hx
  have hround : RoundsTo double 64 a.msb x (ieee754Ops.f2d a) := by
    rw [hvalue]
    simp only [ieee754Ops, hunpack]
    exact roundsTo_convertClass double 64 a.msb m e
  refine hround.exists_double ?_
  rw [hvalue]
  have hmin : minExp single = -149 := rfl
  have hinf : infinityBits single = 255 * 2 ^ 23 := rfl
  have hfrac : single.fracBits = 23 := rfl
  rcases Nat.eq_zero_or_pos m with rfl | hpos
  · exact exists_doubleValue a.msb (by decide) nofun
  · obtain ⟨-, hlt, hlo, -, hbound⟩ := hcanonical hpos
    rw [hmin, hinf, hfrac] at hbound
    rw [hmin] at hlo
    rw [hfrac] at hlt
    exact exists_doubleValue a.msb (by omega) fun _ => by omega

/-- R217: so is every integer. -/
theorem i2d_exact (v : Word) :
    ∃ d, ieee754Ops.i2d v = .value d ∧ doubleValue d = some (v.toInt : ℚ) := by
  have hlo : -(2 : Int) ^ 31 ≤ v.toInt := BitVec.le_toInt v
  have hhi : v.toInt < (2 : Int) ^ 31 := BitVec.toInt_lt
  refine (roundsTo_ofInteger double 64 v).exists_double ?_
  obtain ⟨d, hd⟩ := exists_doubleValue (decide (v.toInt < 0)) (m := v.toInt.natAbs) (e := 0)
    (by omega) fun _ => by omega
  refine ⟨d, hd.trans ?_⟩
  rw [finiteValue, zpow_zero, mul_one, signFactor_mul_natAbs]

/-- Settles O60, field by field of the record. -/
theorem defaultComparisonsAndConversionsFollowTheNumbers :
    Obligations.DefaultComparisonsAndConversionsFollowTheNumbers := by
  refine ⟨fun a b x y hx hy => ?compare32, fun a b x y hx hy => ?compare64, fun a x hx => ?ofSingle,
    fun a x hx => ⟨fun c hc hx0 => ?d2f, ?d2i⟩, fun v => ⟨i2d_exact v, fun c hc hv => ?i2f⟩⟩
  case compare32 =>
    obtain ⟨heq, hlt, hle⟩ := compare_of_unpacks unpacks_single hx hy
    exact ⟨congrArg some heq, congrArg some hlt, congrArg some hle⟩
  case compare64 =>
    obtain ⟨heq, hlt, hle⟩ := compare_of_unpacks unpacks_double hx hy
    exact ⟨congrArg some heq, congrArg some hlt, congrArg some hle⟩
  case ofSingle => exact ⟨f2d_exact hx, truncatesTo_integerClass unpacks_single hx⟩
  case d2f =>
    obtain ⟨m, e, hunpack, rfl⟩ := unpacks_double.exists_finite hx
    have hround := roundsTo_convertClass single 32 a.msb m e
    rw [← hunpack] at hround
    exact hround.eq_of_value unpacks_single hc hx0
  case d2i => exact truncatesTo_integerClass unpacks_double hx
  case i2f =>
    have hv0 : (v.toInt : ℚ) ≠ 0 := fun h => hv (BitVec.eq_of_toInt_eq (Int.cast_eq_zero.1 h))
    exact (roundsTo_ofInteger single 32 v).eq_of_value unpacks_single hc hv0

/-- Settles O38: the double is the integer's number, and truncating that number gives the integer. -/
theorem integerToDoubleAndBackIsExact : Obligations.IntegerToDoubleAndBackIsExact := by
  intro v
  obtain ⟨d, hd, hvalue⟩ := i2d_exact v
  refine ⟨d, hd, ?_⟩
  have htruncates : TruncatesTo (v.toInt : ℚ) (ieee754Ops.d2i d) :=
    truncatesTo_integerClass unpacks_double hvalue
  have hfits : Fits v.toInt := ⟨BitVec.le_toInt v, Int.le_sub_one_of_lt BitVec.toInt_lt⟩
  rwa [truncatesTo_iff, truncated_intCast, if_pos hfits, BitVec.ofInt_toInt] at htruncates

end Sys2Proof.Machine
end
